-- ==== Sys2Proof/Word.lean ====
section
/-! DEFINITION. The value types of the block: bits, bit strings, symbols and the words of fixed width. -/

namespace Sys2Proof

/-- A Bit is 0 or 1 (`00_scope.md` R10): `false` is 0 and `true` is 1. -/
abbrev Bit := Bool

/-- A bit string (`00_scope.md` R10): the entry at index 0 is emitted and consumed first. -/
abbrev BitString := List Bit

/-- A Symbol (`10_state.md` R21) is compared only for equality. Its width SYM_BITS is a parameter, so the value is a
natural number and the width an invariant. -/
abbrev Symbol := Nat

/-- The word of register CMD (`10_state.md` R34, R35). -/
abbrev CmdWord := BitVec 8

/-- The word of register STATUS (`10_state.md` R36). -/
abbrev StatusWord := BitVec 16

end Sys2Proof
end

