-- ==== Sys2Proof/Syntax.lean ====
section
/-! DEFINITION. The instructions: the ten commands of `30_encoding.md` R91. -/

namespace Sys2Proof

/-- One constructor per row of `spec/opcode_table.json`. No command carries an operand in its word (`30_encoding.md`
R92), so no constructor has an argument. -/
inductive Instr where
  /-- Build the Huffman tree (`40_huffman_tree_builder.md` R110). -/
  | bht
  /-- Derive the Huffman code table (`41_huffman_code_table_encoder.md` R130). -/
  | hct
  /-- Huffman encode (`41_huffman_code_table_encoder.md` R135). -/
  | hen
  /-- Huffman decode (`42_huffman_decoder_fsm.md` R150). -/
  | hde
  /-- Build the Interval Model (`43_interval_model.md` R165). -/
  | bim
  /-- Arithmetic encode (`44_arithmetic_encoder_interval_renorm.md` R175). -/
  | aen
  /-- Arithmetic decode (`45_arithmetic_decoder_inverse_renorm.md` R200). -/
  | ade
  /-- Clear the Frequency Table (`46_buffer_commands.md` R220). -/
  | clrft
  /-- Clear the input symbol sequence (`46_buffer_commands.md` R221). -/
  | clrsym
  /-- Clear the input bit sequence (`46_buffer_commands.md` R222). -/
  | clrbit
deriving DecidableEq, Repr

end Sys2Proof
end

