-- ==== Sys2Proof/Decode.lean ====
section
/-! DEFINITION. Decoding and encoding of the command word CMD8 (`30_encoding.md` R90, R91, R94). -/

namespace Sys2Proof

/-- Why a command word selects no command (`30_encoding.md` R93). -/
inductive DecodeError where
  /-- The field `zero`, bits 7:4, is not 0000. -/
  | highBitsSet (zero : BitVec 4)
  /-- The field `zero` is 0000 and the opcode, bits 3:0, is 0 or 11 to 15. -/
  | noSuchOpcode (opcode : BitVec 4)
deriving DecidableEq, Repr

/-- The field `zero` of CMD8, bits 7:4 (`30_encoding.md` R90). -/
def zeroField (c : CmdWord) : BitVec 4 := c.extractLsb' 4 4

/-- The field `opcode` of CMD8, bits 3:0 (`30_encoding.md` R90). -/
def opcodeField (c : CmdWord) : BitVec 4 := c.extractLsb' 0 4

/-- The column of opcodes of `30_encoding.md` R91 and R94. -/
def opcodeOf (o : BitVec 4) : Option Instr :=
  match o.toNat with
  | 1 => some .bht
  | 2 => some .hct
  | 3 => some .hen
  | 4 => some .hde
  | 5 => some .bim
  | 6 => some .aen
  | 7 => some .ade
  | 8 => some .clrft
  | 9 => some .clrsym
  | 10 => some .clrbit
  | _ => none

/-- `Decode(c)` of `30_encoding.md` R94, total on all 256 values; an illegal value is rejected by name. -/
def decode (c : CmdWord) : Except DecodeError Instr :=
  if zeroField c ≠ 0 then .error (.highBitsSet (zeroField c))
  else
    match opcodeOf (opcodeField c) with
    | some i => .ok i
    | none => .error (.noSuchOpcode (opcodeField c))

/-- The CMD value of each command, the column "CMD value" of `30_encoding.md` R91. -/
def encode (i : Instr) : CmdWord :=
  match i with
  | .bht => 0x01#8
  | .hct => 0x02#8
  | .hen => 0x03#8
  | .hde => 0x04#8
  | .bim => 0x05#8
  | .aen => 0x06#8
  | .ade => 0x07#8
  | .clrft => 0x08#8
  | .clrsym => 0x09#8
  | .clrbit => 0x0A#8

/-- The instruction the decoder reads from a word `w` of which `nbits` bits are given and every further bit is 0. There is
one command length, the 8-bit value written to CMD (`30_encoding.md` R90); of a longer value the block takes bits
7:0 (`20_memory.md` R63). -/
def decodeTableWord (nbits w : Nat) : Option Instr :=
  (decode (BitVec.ofNat 8 (w % 2 ^ nbits))).toOption

end Sys2Proof
end

