-- ==== Sys2Proof/Config.lean ====
section
/-! DEFINITION. The implementation parameters of `00_scope.md` R6. -/

namespace Sys2Proof

/-- The six OPEN parameters of `00_scope.md` R6 and `92_eei_decisions.md` section 5. A model takes them as a
configuration argument; here they stand in the field `params` of the state, which no action writes. -/
structure Params where
  /-- SYM_BITS: width of a Symbol. -/
  symBits : Nat
  /-- MAX_SYMS: capacity of the Frequency Table. -/
  maxSyms : Nat
  /-- CNT_BITS: width of one frequency count. -/
  cntBits : Nat
  /-- K_MAX: the largest precision the arithmetic units accept. -/
  kMax : Nat
  /-- MAX_N: capacity of SYM_IN and of SYM_OUT. -/
  maxN : Nat
  /-- MAX_BITS: capacity of BIT_IN and of BIT_OUT. -/
  maxBits : Nat
deriving DecidableEq, Repr

/-- The column "default" of `00_scope.md` R6: a suggestion on which no rule depends. DESIGN CHOICE (log entry 1):
the state after reset carries these. -/
def Params.suggested : Params where
  symBits := 8
  maxSyms := 256
  cntBits := 32
  kMax := 32
  maxN := 65536
  maxBits := 4194304

end Sys2Proof
end

