-- ==== Sys2Proof/Machine/Buffers.lean ====
section
/-! DEFINITION. The address spaces of the buffers and their entries (`10_state.md` R22 to R33, `20_memory.md` R60). -/

namespace Sys2Proof.Machine

/-- An entry of FT, the Frequency Table (`10_state.md` R22). -/
structure FtEntry where
  sym : Symbol
  count : Nat
deriving DecidableEq, Repr

/-- The field `kind` of a tree node (`10_state.md` R24); a Symbol value never stands for "internal node" (R21, R271). -/
inductive NodeKind where
  /-- kind 0 -/
  | leaf
  /-- kind 1 -/
  | internal
deriving DecidableEq, Repr

/-- The bit that `kind` is stored as (`10_state.md` R24). -/
def NodeKind.bit : NodeKind → Bit
  | .leaf => false
  | .internal => true

/-- An entry of TN, the tree-node buffer (`10_state.md` R24). In a leaf `left` and `right` are 0, in an internal node
`sym` is 0, and none of the three has a meaning there (`93_implementation_defined.md` I11). -/
structure TreeNode where
  kind : NodeKind
  sym : Symbol
  freq : Nat
  left : Nat
  right : Nat
deriving DecidableEq, Repr

/-- An entry of CT, the Code Table (`10_state.md` R27). -/
structure CodeEntry where
  sym : Symbol
  len : Nat
  bits : BitString
deriving DecidableEq, Repr

/-- An entry of IM, the Interval Model (`10_state.md` R28). -/
structure Interval where
  sym : Symbol
  low : Nat
  high : Nat
deriving DecidableEq, Repr

/-- The eight buffer spaces of `20_memory.md` R60. The ninth, REG, is reached by register number. -/
inductive Space where
  | ft
  | tn
  | ct
  | im
  | symIn
  | symOut
  | bitIn
  | bitOut
deriving DecidableEq, Repr

/-- One entry of a buffer space, moved whole (`20_memory.md` R68, R71). -/
inductive Entry where
  | freq (e : FtEntry)
  | node (e : TreeNode)
  | code (e : CodeEntry)
  | interval (e : Interval)
  | symbol (s : Symbol)
  | bit (b : Bit)
deriving DecidableEq, Repr

end Sys2Proof.Machine
end

