-- ==== Sys2Proof/Machine/Action.lean ====
section
/-! DEFINITION. What the outside can do to the block, one at a time (`20_memory.md` R62). -/

namespace Sys2Proof.Machine

/-- The host actions of `20_memory.md` R62, and reset, "the only other event". -/
inductive HostAction where
  /-- `HostWriteReg(no, v)` (`20_memory.md` R63). -/
  | writeReg (no v : Nat)
  /-- `HostReadReg(no)` (`20_memory.md` R67). -/
  | readReg (no : Nat)
  /-- `MemRead(space, i)` (`20_memory.md` R68). -/
  | memRead (space : Space) (i : Nat)
  /-- `MemWrite(space, 1, e)`, the push of one entry (`20_memory.md` R64 to R66). -/
  | memWrite (space : Space) (e : Entry)
  /-- Reset (`70_reset_and_hazards.md` R260). -/
  | reset
deriving DecidableEq, Repr

/-- What a host read returns. -/
inductive Reply where
  /-- A register's value, zero-extended to the host's word (`20_memory.md` R67). -/
  | value (v : Nat)
  /-- A whole entry, the record of its fields (`20_memory.md` R68). -/
  | entry (e : Entry)
deriving DecidableEq, Repr

end Sys2Proof.Machine
end

