-- ==== Sys2Proof/Machine/State.lean ====
section
/-! DEFINITION. The state of the block (`10_state.md` R20), its value after reset (R50), and the reasons to stop. -/

namespace Sys2Proof.Machine

/-- The reasons for which the machine itself stops. None is one of the spec's faults, which are reported in STATUS and
never stop the block (`60_exceptions.md` R230). Each is raised only in states that no run from reset reaches
(`10_state.md` R51) and to which no rule gives a meaning. DEDUCED (log entry 5), safe. -/
inductive Fault where
  /-- Raised by HCT when TREE_V = 1 and TN, ROOT are not the tree of `10_state.md` R26, so that the traversal of
  `41_huffman_code_table_encoder.md` R130 meets an index that is no node, does not end or leaves an entry unfilled. Safe: the
  model stops. -/
  | treeNotValid
  /-- Raised by AEN and ADE when `Narrow` would divide by T = 0 with IM_V = 1, against `43_interval_model.md` R168. Safe:
  the model stops. -/
  | zeroTotal
  /-- Raised by AEN and ADE when a renormalization does not end within the K steps of
  `44_arithmetic_encoder_interval_renorm.md` R190, because IM is not the model of `10_state.md` R28. Safe: the model stops. -/
  | renormNotEnding
deriving DecidableEq, Repr

/-- The accesses that have no meaning in the spec (`20_memory.md` R69: "marks the run as refused"). -/
inductive Refusal where
  /-- Raised by `exec` for an instruction without a meaning; no arm raises it now. Safe. -/
  | notModelled (mnemonic : String)
  /-- Raised by a host write to a read-only register (1 to 3, 6 to 22). Safe. -/
  | writeReadOnly (no : Nat)
  /-- Raised by a host read of a port (23 to 25). Safe. -/
  | readPort (no : Nat)
  /-- Raised by any host access to a register number above 25. Safe. -/
  | noSuchRegister (no : Nat)
  /-- Raised by a host read of a buffer at an index at or past its length. Safe. -/
  | readPastEnd (space : Space) (i : Nat)
  /-- Raised by a host write into TN, CT, IM, SYM_OUT or BIT_OUT. Safe. -/
  | noWritePort (space : Space)
  /-- Raised by a MemWrite whose operand is not an entry of the space (log entry 6). Safe. -/
  | notAnEntry (space : Space)
deriving DecidableEq, Repr

/-- The whole state of the block: eight buffers and the registers that have storage (`10_state.md` R20, R34). The
length registers 15 to 22 are computed from the buffers and the ports 23 to 25 have no storage. `params`, `pending`
and `reply` are the model's own. -/
structure State where
  /-- The implementation parameters (`00_scope.md` R6); no action writes them. Model's own (log entry 1). -/
  params : Params
  /-- The host actions still to be performed, the input of the run (`00_scope.md` R17). Model's own (log entry 2). -/
  pending : List HostAction
  /-- What the last host read returned (`20_memory.md` R67, R68). Model's own (log entry 3). -/
  reply : Option Reply
  /-- 0, CMD (`10_state.md` R35). -/
  cmd : CmdWord
  /-- 1, STATUS (`10_state.md` R36). -/
  status : StatusWord
  /-- 2, ERRPOS (`10_state.md` R45). -/
  errpos : Nat
  /-- 3, ERRSYM (`10_state.md` R45). -/
  errsym : Symbol
  /-- 4, K (`10_state.md` R37). -/
  k : BitVec 8
  /-- 5, N (`10_state.md` R38). -/
  n : BitVec 32
  /-- 6, T (`10_state.md` R29). -/
  t : Nat
  /-- 7, ROOT (`10_state.md` R25). -/
  root : Nat
  /-- 8, L (`10_state.md` R39). -/
  l : Nat
  /-- 9, U (`10_state.md` R39). -/
  u : Nat
  /-- 10, M (`10_state.md` R40). -/
  m : Nat
  /-- 11, CODE (`10_state.md` R41). -/
  code : Nat
  /-- 12, NODE (`10_state.md` R42). -/
  node : Nat
  /-- 13, BITPOS (`10_state.md` R43). -/
  bitpos : Nat
  /-- 14, SYMPOS (`10_state.md` R44). -/
  sympos : Nat
  /-- FT (`10_state.md` R22). -/
  ft : List FtEntry
  /-- TN (`10_state.md` R24). -/
  tn : List TreeNode
  /-- CT (`10_state.md` R27). -/
  ct : List CodeEntry
  /-- IM (`10_state.md` R28). -/
  im : List Interval
  /-- SYM_IN (`10_state.md` R30). -/
  symIn : List Symbol
  /-- SYM_OUT (`10_state.md` R31). -/
  symOut : List Symbol
  /-- BIT_IN (`10_state.md` R32). -/
  bitIn : BitString
  /-- BIT_OUT (`10_state.md` R33). -/
  bitOut : BitString
deriving DecidableEq, Repr

/-- The state after reset for given parameters: every buffer empty, every register 0, STATUS = 0 (`10_state.md` R50,
`70_reset_and_hazards.md` R260). -/
def State.resetWith (p : Params) : State where
  params := p
  pending := []
  reply := none
  cmd := 0
  status := 0
  errpos := 0
  errsym := 0
  k := 0
  n := 0
  t := 0
  root := 0
  l := 0
  u := 0
  m := 0
  code := 0
  node := 0
  bitpos := 0
  sympos := 0
  ft := []
  tn := []
  ct := []
  im := []
  symIn := []
  symOut := []
  bitIn := []
  bitOut := []

/-- The machine right after reset (`10_state.md` R50), with the suggested parameters of `00_scope.md` R6. -/
def State.reset : State := State.resetWith Params.suggested

end Sys2Proof.Machine
end

