-- ==== Sys2Proof/Machine/Flags.lean ====
section
/-! DEFINITION. The fields of STATUS (`10_state.md` R36, R48) and the fault codes (`60_exceptions.md` R231). -/

namespace Sys2Proof.Machine

/-- The six flags of STATUS (`10_state.md` R36, R48). -/
inductive Flag where
  /-- TN and ROOT hold the tree of the present FT. -/
  | treeV
  /-- CT holds the codes of the present tree. -/
  | ctV
  /-- IM and T hold the model of the present FT. -/
  | imV
  /-- An FT push was dropped. -/
  | ftOvf
  /-- A SYM_IN push was dropped. -/
  | symOvf
  /-- A BIT_IN push was dropped. -/
  | bitOvf
deriving DecidableEq, Repr

/-- The bit of STATUS a flag stands in (`10_state.md` R36). -/
def Flag.bitNo : Flag → Nat
  | .treeV => 0
  | .ctV => 1
  | .imV => 2
  | .ftOvf => 3
  | .symOvf => 4
  | .bitOvf => 5

/-- The value of a flag in a STATUS word. -/
def getFlag (w : StatusWord) (f : Flag) : Bool := w.getLsbD f.bitNo

/-- A STATUS word with one flag replaced and every other bit kept. -/
def putFlag (w : StatusWord) (f : Flag) (b : Bool) : StatusWord :=
  if b then w ||| (1#16 <<< f.bitNo) else w &&& ~~~(1#16 <<< f.bitNo)

/-- The field ERR, bits 11:8 (`10_state.md` R36). -/
def getErr (w : StatusWord) : BitVec 4 := w.extractLsb' 8 4

/-- A STATUS word with the field ERR replaced and every other bit kept. -/
def putErr (w : StatusWord) (e : BitVec 4) : StatusWord :=
  (w &&& 0xF0FF#16) ||| (e.setWidth 16 <<< 8)

/-- The reserved bits 7:6 and 15:12 of a STATUS word (`10_state.md` R36). -/
def reservedBits (w : StatusWord) : StatusWord := w &&& 0xF0C0#16

/-- The outcomes a command reports in STATUS.ERR (`60_exceptions.md` R231); codes 8 to 15 are never produced. -/
inductive ErrCode where
  | success
  | invalidInput
  | malformedStream
  | precisionTooLow
  | unknownSymbol
  | illegalCommand
  | notReady
  | capacityExceeded
deriving DecidableEq, Repr

/-- The column "ERR" of `60_exceptions.md` R231. -/
def ErrCode.code : ErrCode → BitVec 4
  | .success => 0
  | .invalidInput => 1
  | .malformedStream => 2
  | .precisionTooLow => 3
  | .unknownSymbol => 4
  | .illegalCommand => 5
  | .notReady => 6
  | .capacityExceeded => 7

/-- STATUS.<flag>. -/
def State.flag (s : State) (f : Flag) : Bool := getFlag s.status f

/-- STATUS.<flag> <- b. -/
def State.setFlag (s : State) (f : Flag) (b : Bool) : State :=
  { s with status := putFlag s.status f b }

/-- STATUS.ERR. -/
def State.err (s : State) : BitVec 4 := getErr s.status

end Sys2Proof.Machine
end

