-- ==== Sys2Proof/Machine/Widths.lean ====
section
/-! DEFINITION. The widths derived from the parameters (`00_scope.md` R7, `10_state.md` R34). -/

namespace Sys2Proof

/-- `ceil(log2(x))` for `x >= 1`: the least `e` with `x <= 2^e`. -/
def ceilLog2 (x : Nat) : Nat :=
  if x ≤ 1 then 0 else Nat.log2 (x - 1) + 1

/-- FREQ_BITS, the width of a node frequency, of a cumulative bound and of T (`00_scope.md` R7). -/
def Params.freqBits (p : Params) : Nat := p.cntBits + ceilLog2 p.maxSyms

/-- NODE_BITS, the width of a node index (`00_scope.md` R7). -/
def Params.nodeBits (p : Params) : Nat := ceilLog2 (2 * p.maxSyms)

/-- CODE_LEN_MAX, the longest Huffman code (`00_scope.md` R7). -/
def Params.codeLenMax (p : Params) : Nat := max 1 (p.maxSyms - 1)

/-- M_BITS, the width of the pending-bit counter (`00_scope.md` R7). -/
def Params.mBits (p : Params) : Nat := ceilLog2 (p.maxN * p.kMax + 1)

/-- POS_BITS (`10_state.md` R34). -/
def Params.posBits (p : Params) : Nat :=
  ceilLog2 (max p.maxBits (p.maxN * p.kMax + p.kMax) + 1)

/-- The width of ERRPOS (`10_state.md` R34). -/
def Params.errposBits (p : Params) : Nat := max 32 p.posBits

/-- The width of FTLEN, CTLEN and IMLEN (`10_state.md` R34). -/
def Params.tableLenBits (p : Params) : Nat := ceilLog2 (p.maxSyms + 1)

/-- The width of SYMPOS, SYMINLEN and SYMOUTLEN (`10_state.md` R34). -/
def Params.symLenBits (p : Params) : Nat := ceilLog2 (p.maxN + 1)

/-- The width of BITINLEN and BITOUTLEN (`10_state.md` R34). -/
def Params.bitLenBits (p : Params) : Nat := ceilLog2 (p.maxBits + 1)

/-- The capacity of TN (`10_state.md` R24). -/
def Params.maxNodes (p : Params) : Nat := 2 * p.maxSyms - 1

end Sys2Proof
end

