-- ==== Sys2Proof/Machine/Registers.lean ====
section
/-! DEFINITION. The register map (`10_state.md` R34). -/

namespace Sys2Proof.Machine

/-- The 26 registers of `10_state.md` R34, in the order of their numbers. -/
inductive Reg where
  | cmd
  | status
  | errpos
  | errsym
  | k
  | n
  | t
  | root
  | l
  | u
  | m
  | code
  | node
  | bitpos
  | sympos
  | ftlen
  | tnlen
  | ctlen
  | imlen
  | syminlen
  | symoutlen
  | bitinlen
  | bitoutlen
  | ftPush
  | symPush
  | bitPush
deriving DecidableEq, Repr

/-- The column "No." of `10_state.md` R34. -/
def Reg.number : Reg → Nat
  | .cmd => 0
  | .status => 1
  | .errpos => 2
  | .errsym => 3
  | .k => 4
  | .n => 5
  | .t => 6
  | .root => 7
  | .l => 8
  | .u => 9
  | .m => 10
  | .code => 11
  | .node => 12
  | .bitpos => 13
  | .sympos => 14
  | .ftlen => 15
  | .tnlen => 16
  | .ctlen => 17
  | .imlen => 18
  | .syminlen => 19
  | .symoutlen => 20
  | .bitinlen => 21
  | .bitoutlen => 22
  | .ftPush => 23
  | .symPush => 24
  | .bitPush => 25

/-- The register of a number; numbers 26 and above do not exist (`10_state.md` R34). -/
def regOfNumber (no : Nat) : Option Reg :=
  match no with
  | 0 => some .cmd
  | 1 => some .status
  | 2 => some .errpos
  | 3 => some .errsym
  | 4 => some .k
  | 5 => some .n
  | 6 => some .t
  | 7 => some .root
  | 8 => some .l
  | 9 => some .u
  | 10 => some .m
  | 11 => some .code
  | 12 => some .node
  | 13 => some .bitpos
  | 14 => some .sympos
  | 15 => some .ftlen
  | 16 => some .tnlen
  | 17 => some .ctlen
  | 18 => some .imlen
  | 19 => some .syminlen
  | 20 => some .symoutlen
  | 21 => some .bitinlen
  | 22 => some .bitoutlen
  | 23 => some .ftPush
  | 24 => some .symPush
  | 25 => some .bitPush
  | _ => none

/-- Whether the host may read the register, the column "host" of `10_state.md` R34. -/
def Reg.hostReads : Reg → Bool
  | .ftPush | .symPush | .bitPush => false
  | _ => true

/-- Whether the host may write the register, the column "host" of `10_state.md` R34. -/
def Reg.hostWrites : Reg → Bool
  | .cmd | .k | .n | .ftPush | .symPush | .bitPush => true
  | _ => false

/-- The column "width" of `10_state.md` R34. -/
def Reg.width (p : Params) : Reg → Nat
  | .cmd => 8
  | .status => 16
  | .errpos => p.errposBits
  | .errsym => p.symBits
  | .k => 8
  | .n => 32
  | .t => p.freqBits
  | .root => p.nodeBits
  | .l => p.kMax
  | .u => p.kMax
  | .m => p.mBits
  | .code => p.kMax
  | .node => p.nodeBits
  | .bitpos => p.posBits
  | .sympos => p.symLenBits
  | .ftlen => p.tableLenBits
  | .tnlen => p.nodeBits
  | .ctlen => p.tableLenBits
  | .imlen => p.tableLenBits
  | .syminlen => p.symLenBits
  | .symoutlen => p.symLenBits
  | .bitinlen => p.bitLenBits
  | .bitoutlen => p.bitLenBits
  | .ftPush => p.symBits + p.cntBits
  | .symPush => p.symBits
  | .bitPush => 1

end Sys2Proof.Machine
end

