-- ==== Sys2Proof/Machine/Operands.lean ====
section
/-! DEFINITION. Where a command finds its operands (`30_encoding.md` R92) and what the host's values select. -/

namespace Sys2Proof.Machine

/-- `v[lo+w-1:lo]`, the unsigned number made of the `w` bits of `v` from bit `lo` up (`00_scope.md` R11). -/
def slice (v lo w : Nat) : Nat := v / 2 ^ lo % 2 ^ w

/-- The entry a write of `v` to FT_PUSH appends (`20_memory.md` R64). -/
def ftOperand (p : Params) (v : Nat) : FtEntry where
  sym := slice v 0 p.symBits
  count := slice v p.symBits p.cntBits

/-- The symbol a write of `v` to SYM_PUSH appends (`20_memory.md` R65). -/
def symOperand (p : Params) (v : Nat) : Symbol := slice v 0 p.symBits

/-- The bit a write of `v` to BIT_PUSH appends (`20_memory.md` R66). -/
def bitOperand (v : Nat) : Bit := v.testBit 0

/-- The operand `k` of the arithmetic units, register K (`10_state.md` R37). -/
def State.precision (s : State) : Nat := s.k.toNat

/-- The operand `n` of ADE, register N (`10_state.md` R38). -/
def State.messageLength (s : State) : Nat := s.n.toNat

/-- `PrecOK(K, T)` (`44_arithmetic_encoder_interval_renorm.md` R176). -/
def precOk (k t : Nat) : Bool := decide (4 * t ≤ 2 ^ k)

/-- `Lookup(CT, s)`: the entry of the least index with that symbol (`41_huffman_code_table_encoder.md` R136). -/
def lookupCode (ct : List CodeEntry) (s : Symbol) : Option CodeEntry :=
  ct.find? fun e => e.sym == s

/-- `LookupIM(IM, s)`: the entry of the least index with that symbol (`44_arithmetic_encoder_interval_renorm.md` R179). -/
def lookupInterval (im : List Interval) (s : Symbol) : Option Interval :=
  im.find? fun e => e.sym == s

/-- `FindIM(IM, value)`: the entry of the least index whose `[low, high)` holds the value
(`45_arithmetic_decoder_inverse_renorm.md` R204). -/
def findInterval (im : List Interval) (value : Int) : Option Interval :=
  im.find? fun e => decide ((e.low : Int) ≤ value ∧ value < (e.high : Int))

/-- `NextBit(p)`: a stream is read as if followed by zeros for ever (`45_arithmetic_decoder_inverse_renorm.md` R202). -/
def nextBit (bits : BitString) (p : Nat) : Bit := bits.getD p false

/-- The value a host read of a register returns, zero-extended (`20_memory.md` R67); a port has none (R69). A length
register reads as the present length of its buffer (`10_state.md` R34). -/
def State.regValue (s : State) : Reg → Option Nat
  | .cmd => some s.cmd.toNat
  | .status => some s.status.toNat
  | .errpos => some s.errpos
  | .errsym => some s.errsym
  | .k => some s.k.toNat
  | .n => some s.n.toNat
  | .t => some s.t
  | .root => some s.root
  | .l => some s.l
  | .u => some s.u
  | .m => some s.m
  | .code => some s.code
  | .node => some s.node
  | .bitpos => some s.bitpos
  | .sympos => some s.sympos
  | .ftlen => some s.ft.length
  | .tnlen => some s.tn.length
  | .ctlen => some s.ct.length
  | .imlen => some s.im.length
  | .syminlen => some s.symIn.length
  | .symoutlen => some s.symOut.length
  | .bitinlen => some s.bitIn.length
  | .bitoutlen => some s.bitOut.length
  | .ftPush => none
  | .symPush => none
  | .bitPush => none

end Sys2Proof.Machine
end

