-- ==== Sys2Proof/Machine/Ops.lean ====
section
/-! DEFINITION. The operations the commands and the host actions share: reading and appending entries, Invalidate,
FTCheck, and reporting the end of a command, by fault or by success. -/

namespace Sys2Proof.Machine

/-! ### Buffers -/

/-- `space[i]`, the whole entry, when `i < len(space)` (`20_memory.md` R68). -/
def State.readEntry (s : State) (space : Space) (i : Nat) : Option Entry :=
  match space with
  | .ft => s.ft[i]?.map .freq
  | .tn => s.tn[i]?.map .node
  | .ct => s.ct[i]?.map .code
  | .im => s.im[i]?.map .interval
  | .symIn => s.symIn[i]?.map .symbol
  | .symOut => s.symOut[i]?.map .symbol
  | .bitIn => s.bitIn[i]?.map .bit
  | .bitOut => s.bitOut[i]?.map .bit

/-- Every buffer is within its capacity (`20_memory.md` R60, `10_state.md` R51 (a)). A buffer is a list, so it has no
unwritten entry and equal buffers are equal lists: this is the whole canonical form. -/
def Memory.wf (s : State) : Bool :=
  decide (s.ft.length ≤ s.params.maxSyms) && decide (s.tn.length ≤ s.params.maxNodes) &&
  decide (s.ct.length ≤ s.params.maxSyms) && decide (s.im.length ≤ s.params.maxSyms) &&
  decide (s.symIn.length ≤ s.params.maxN) && decide (s.symOut.length ≤ s.params.maxN) &&
  decide (s.bitIn.length ≤ s.params.maxBits) && decide (s.bitOut.length ≤ s.params.maxBits)

/-- `Invalidate()` (`20_memory.md` R78). -/
def invalidate (s : State) : State :=
  { s with
    tn := [], root := 0, ct := [], im := [], t := 0
    status := putFlag (putFlag (putFlag s.status .treeV false) .ctV false) .imV false }

/-- The push to FT (`20_memory.md` R64): Invalidate in both cases. -/
def pushFt (e : FtEntry) (s : State) : State :=
  invalidate
    (if s.ft.length < s.params.maxSyms then { s with ft := s.ft ++ [e] } else s.setFlag .ftOvf true)

/-- The push to SYM_IN (`20_memory.md` R65). -/
def pushSym (x : Symbol) (s : State) : State :=
  if s.symIn.length < s.params.maxN then { s with symIn := s.symIn ++ [x] } else s.setFlag .symOvf true

/-- The push to BIT_IN (`20_memory.md` R66). -/
def pushBit (b : Bit) (s : State) : State :=
  if s.bitIn.length < s.params.maxBits then { s with bitIn := s.bitIn ++ [b] } else s.setFlag .bitOvf true

/-! ### Faults (`60_exceptions.md`) -/

/-- A fault as STATUS.ERR, ERRPOS and ERRSYM report it (`60_exceptions.md` R231). -/
structure CmdFault where
  err : ErrCode
  pos : Nat
  sym : Symbol
deriving DecidableEq, Repr

/-- Why a command's body ends before its result: `raise F(pos, sym)` (`00_scope.md` R13), or the machine stops. -/
inductive Halt where
  | raise (f : CmdFault)
  | stuck (r : Fault)
deriving DecidableEq, Repr

/-- What the body of a command gives: its value, or the reason it ends without one. -/
abbrev Result (α : Type) := Except Halt α

/-- `raise F(pos, sym)` (`00_scope.md` R13). -/
def raise {α : Type} (err : ErrCode) (pos : Nat) (sym : Symbol) : Result α :=
  .error (.raise ⟨err, pos, sym⟩)

/-- The machine stops: the state is one to which no rule gives a meaning. -/
def stuck {α : Type} (r : Fault) : Result α := .error (.stuck r)

/-- `if not c: raise F(pos, sym)`. -/
def require (c : Bool) (err : ErrCode) (pos : Nat) (sym : Symbol) : Result Unit :=
  if c then .ok () else raise err pos sym

/-- What a faulting command may have to clear: the buffers, the registers and the valid bits of its write-set
(`60_exceptions.md` R236). -/
inductive Target where
  | tn
  | ct
  | im
  | symOut
  | bitOut
  | root
  | t
  | l
  | u
  | m
  | code
  | node
  | bitpos
  | sympos
  | valid (f : Flag)
deriving DecidableEq, Repr

/-- A buffer becomes empty, a register 0, a valid bit 0 (`60_exceptions.md` R236). -/
def clearTarget (s : State) : Target → State
  | .tn => { s with tn := [] }
  | .ct => { s with ct := [] }
  | .im => { s with im := [] }
  | .symOut => { s with symOut := [] }
  | .bitOut => { s with bitOut := [] }
  | .root => { s with root := 0 }
  | .t => { s with t := 0 }
  | .l => { s with l := 0 }
  | .u => { s with u := 0 }
  | .m => { s with m := 0 }
  | .code => { s with code := 0 }
  | .node => { s with node := 0 }
  | .bitpos => { s with bitpos := 0 }
  | .sympos => { s with sympos := 0 }
  | .valid f => s.setFlag f false

/-- The write-set cleared, and nothing else changed. -/
def clearTargets (ws : List Target) (s : State) : State := ws.foldl clearTarget s

/-- The write-set of each command without ERR, ERRPOS, ERRSYM and CMD, the table of `60_exceptions.md` R236. The three
clear commands cannot fault. -/
def writeSet (i : Instr) : List Target :=
  match i with
  | .bht => [.tn, .root, .valid .treeV, .ct, .valid .ctV]
  | .hct => [.ct, .valid .ctV]
  | .hen => [.bitOut, .sympos, .bitpos]
  | .hde => [.symOut, .node, .bitpos, .sympos]
  | .bim => [.im, .t, .valid .imV]
  | .aen => [.bitOut, .l, .u, .m, .sympos, .bitpos]
  | .ade => [.symOut, .l, .u, .m, .code, .bitpos, .sympos]
  | .clrft => []
  | .clrsym => []
  | .clrbit => []

/-- STATUS.ERR, ERRPOS and ERRSYM written; STATUS keeps its other bits (`10_state.md` R36, R45). -/
def report (f : CmdFault) (s : State) : State :=
  { s with status := putErr s.status f.err.code, errpos := f.pos, errsym := f.sym }

/-- TAKING A FAULT, the block's "trap entry" (`60_exceptions.md` R236): the write-set of the command is cleared, the
fault is reported, everything else, the command's inputs included, is as it was. No program counter is saved, no
handler is entered and no mode changes (R230). -/
def takeFault (ws : List Target) (f : CmdFault) (s : State) : State := report f (clearTargets ws s)

/-- Success: ERR, ERRPOS and ERRSYM become 0 (`60_exceptions.md` R241). There is no return from a fault: after one the
block is idle and takes any host action (R242), and the next success clears the report. -/
def succeed (s : State) : State := report ⟨.success, 0, 0⟩ s

/-- The end of command `i`, started in `s`: its whole result and success, or the fault taken (`60_exceptions.md` R236,
R241), or the machine stops. -/
def conclude (i : Instr) (s : State) (r : Result State) : Host.Outcome State Fault Refusal :=
  match r with
  | .ok t => .next (succeed t)
  | .error (.raise f) => .next (takeFault (writeSet i) f s)
  | .error (.stuck f) => .fault f

/-- Writing a CMD value that selects no command: only ERR, ERRPOS and ERRSYM change (`60_exceptions.md` R237). -/
def illegalCommand (s : State) : State := takeFault [] ⟨.illegalCommand, s.cmd.toNat, 0⟩ s

/-! ### FTCheck (`10_state.md` R23) -/

/-- The entries of FT from index `i` on, examined in index order; `seen` holds the entries before. For one entry the
zero-count test comes first (`60_exceptions.md` R232). -/
def ftCheckFrom (seen : List FtEntry) (i : Nat) : List FtEntry → Result Unit
  | [] => .ok ()
  | e :: es =>
    if e.count = 0 then raise .invalidInput i e.sym
    else if seen.any (fun d => d.sym == e.sym) then raise .invalidInput i e.sym
    else ftCheckFrom (seen ++ [e]) (i + 1) es

/-- `FTCheck(FT)` (`10_state.md` R23). -/
def ftCheck (ft : List FtEntry) : Result Unit :=
  if ft.isEmpty then raise .invalidInput 0 0 else ftCheckFrom [] 0 ft

end Sys2Proof.Machine
end

