-- ==== Sys2Proof/Machine/Renorm.lean ====
section
/-! DEFINITION. The integer arithmetic that the arithmetic encoder and decoder share: `Narrow` and the tests E1, E2, E3
(`44_arithmetic_encoder_interval_renorm.md` R178, R180, R184). Working values are integers and nothing wraps
(`00_scope.md` R9). -/

namespace Sys2Proof.Machine

/-- `R = 2^K` (`10_state.md` R37). -/
def rangeOf (k : Nat) : Int := ((2 ^ k : Nat) : Int)

/-- `Narrow(l, u, low, high, T)` (`44_arithmetic_encoder_interval_renorm.md` R178): both bounds from the old `l` and the
old width, the product before the division, `floor` division. -/
def narrow (l u low high t : Int) : Int × Int :=
  let w := u - l + 1
  (l + w * low / t, l + w * high / t - 1)

/-- The three renormalization cases. -/
inductive RenormCase where
  /-- upper half (`44_arithmetic_encoder_interval_renorm.md` R181) -/
  | e1
  /-- lower half (`44_arithmetic_encoder_interval_renorm.md` R182) -/
  | e2
  /-- middle (`44_arithmetic_encoder_interval_renorm.md` R183) -/
  | e3
deriving DecidableEq, Repr

/-- The tests in the order E1, E2, E3 (`44_arithmetic_encoder_interval_renorm.md` R180, R184), for the range `r`. -/
def renormCase (r l u : Int) : Option RenormCase :=
  if r / 2 ≤ l then some .e1
  else if u < r / 2 then some .e2
  else if r / 4 ≤ l ∧ u < 3 * r / 4 then some .e3
  else none

end Sys2Proof.Machine
end

