-- ==== Sys2Proof/Machine/ArithDecode.lean ====
section
/-! DEFINITION. The arithmetic decoder unit, command ADE (`45_arithmetic_decoder_inverse_renorm.md`). -/

namespace Sys2Proof.Machine

/-- The decoder's working state: the interval, the K-bit window, the index of the next stream bit
(`45_arithmetic_decoder_inverse_renorm.md` R200). -/
structure Decoder where
  l : Int
  u : Int
  code : Int
  pos : Nat
deriving DecidableEq, Repr

/-- A bit as a number. -/
def bitValue (b : Bit) : Nat := if b then 1 else 0

/-- `InitWindow(BIT_IN, K)`: the first K bits, the earliest the most significant
(`45_arithmetic_decoder_inverse_renorm.md` R201). -/
def initWindow (bits : BitString) (k : Nat) : Nat :=
  ((List.range k).map fun p => bitValue (nextBit bits p) * 2 ^ (k - 1 - p)).sum

/-- The start of a message (`45_arithmetic_decoder_inverse_renorm.md` R200). -/
def decoderStart (bits : BitString) (k : Nat) : Decoder :=
  ⟨0, rangeOf k - 1, (initWindow bits k : Int), k⟩

/-- `Value(code, l, u, T)` (`45_arithmetic_decoder_inverse_renorm.md` R203). -/
def valueOf (code l u t : Int) : Int := ((code - l + 1) * t - 1) / (u - l + 1)

/-- The offset that a renormalization case takes off (`45_arithmetic_decoder_inverse_renorm.md` R206). -/
def renormOffset (r : Int) : RenormCase → Int
  | .e1 => r / 2
  | .e2 => 0
  | .e3 => r / 4

/-- One step of `DecRenorm`: the next unread stream bit enters at the least significant place
(`45_arithmetic_decoder_inverse_renorm.md` R206). -/
def decodeShift (bits : BitString) (r : Int) (e : RenormCase) (d : Decoder) : Decoder :=
  let off := renormOffset r e
  ⟨2 * (d.l - off), 2 * (d.u - off) + 1, (2 * (d.code - off) + (bitValue (nextBit bits d.pos) : Int)) % r, d.pos + 1⟩

/-- `DecRenorm(l, u, code, pos)` (`45_arithmetic_decoder_inverse_renorm.md` R206); at most K steps (R208), so `K + 1`
turns of the loop reach its end. -/
def decRenorm (bits : BitString) (r : Int) : Nat → Decoder → Result Decoder
  | 0, _ => stuck .renormNotEnding
  | fuel + 1, d =>
    match renormCase r d.l d.u with
    | some e => decRenorm bits r fuel (decodeShift bits r e d)
    | none => .ok d

/-- One symbol of `45_arithmetic_decoder_inverse_renorm.md` R200: find it, narrow as the encoder did, renormalize. -/
def decodeSymbol (im : List Interval) (t k : Nat) (bits : BitString) (i : Nat) (d : Decoder) :
    Result (Symbol × Decoder) :=
  match findInterval im (valueOf d.code d.l d.u t) with
  | none => raise .malformedStream i 0
  | some e =>
    if t = 0 then stuck .zeroTotal
    else
      let b := narrow d.l d.u e.low e.high t
      decRenorm bits (rangeOf k) (k + 1) ⟨b.1, b.2, d.code, d.pos⟩ >>= fun d' => .ok (e.sym, d')

/-- The loop of `45_arithmetic_decoder_inverse_renorm.md` R200: `left` symbols are still to be decoded, from symbol index
`i` on. -/
def decodeSymbols (im : List Interval) (t k : Nat) (bits : BitString) :
    Nat → Nat → Decoder → List Symbol → Result (Decoder × List Symbol)
  | 0, _, d, out => .ok (d, out)
  | left + 1, i, d, out =>
    decodeSymbol im t k bits i d >>= fun r => decodeSymbols im t k bits left (i + 1) r.2 (out ++ [r.1])

/-- The body of ADE (`45_arithmetic_decoder_inverse_renorm.md` R200). ADE counts no pending bits: M becomes 0
(`10_state.md` R40). -/
def adeBody (s : State) : Result State := do
  require (s.flag .imV) .notReady 0 0
  require (!s.flag .bitOvf) .capacityExceeded 0 0
  require (decide (s.precision ≤ s.params.kMax)) .capacityExceeded s.precision 0
  require (decide (s.messageLength ≤ s.params.maxN)) .capacityExceeded s.messageLength 0
  require (precOk s.precision s.t) .precisionTooLow s.precision 0
  let r ← decodeSymbols s.im s.t s.precision s.bitIn s.messageLength 0 (decoderStart s.bitIn s.precision) []
  pure { s with
    symOut := r.2, l := r.1.l.toNat, u := r.1.u.toNat, code := r.1.code.toNat, m := 0
    bitpos := r.1.pos, sympos := s.messageLength }

/-- ADE, arithmetic decode (`45_arithmetic_decoder_inverse_renorm.md` R200). -/
def execAde (s : State) : Host.Outcome State Fault Refusal := conclude .ade s (adeBody s)

end Sys2Proof.Machine
end

