-- ==== Sys2Proof/Machine/ArithEncode.lean ====
section
/-! DEFINITION. The arithmetic encoder unit, command AEN (`44_arithmetic_encoder_interval_renorm.md`). -/

namespace Sys2Proof.Machine

/-- The Coder State `(l, u, m)` and the bits emitted so far (`00_scope.md` R15). -/
structure Encoder where
  l : Int
  u : Int
  m : Nat
  out : BitString
deriving DecidableEq, Repr

/-- `l = 0, u = R - 1, m = 0` and no output (`44_arithmetic_encoder_interval_renorm.md` R177). -/
def encoderStart (k : Nat) : Encoder := ⟨0, rangeOf k - 1, 0, []⟩

/-- `Emit(out, b, m, i)`: the bit, then the pending bits, all its complement
(`44_arithmetic_encoder_interval_renorm.md` R185). -/
def emit (maxBits : Nat) (out : BitString) (b : Bit) (m i : Nat) : Result BitString :=
  if out.length + 1 + m > maxBits then raise .capacityExceeded i 0
  else .ok (out ++ b :: List.replicate m (!b))

/-- E1, upper half (`44_arithmetic_encoder_interval_renorm.md` R181). -/
def encodeE1 (maxBits : Nat) (r : Int) (i : Nat) (c : Encoder) : Result Encoder := do
  let out ← emit maxBits c.out true c.m i
  pure ⟨2 * c.l - r, 2 * c.u - r + 1, 0, out⟩

/-- E2, lower half (`44_arithmetic_encoder_interval_renorm.md` R182). -/
def encodeE2 (maxBits : Nat) (i : Nat) (c : Encoder) : Result Encoder := do
  let out ← emit maxBits c.out false c.m i
  pure ⟨2 * c.l, 2 * c.u + 1, 0, out⟩

/-- E3, middle: nothing is emitted (`44_arithmetic_encoder_interval_renorm.md` R183). -/
def encodeE3 (r : Int) (c : Encoder) : Encoder :=
  ⟨2 * c.l - r / 2, 2 * c.u - r / 2 + 1, c.m + 1, c.out⟩

/-- `EncRenorm(l, u, m, out, i)` (`44_arithmetic_encoder_interval_renorm.md` R180). At most K steps are ever made (R190),
so `K + 1` turns of the loop, the last of them only the test, reach its end. -/
def encRenorm (maxBits : Nat) (r : Int) (i : Nat) : Nat → Encoder → Result Encoder
  | 0, _ => stuck .renormNotEnding
  | fuel + 1, c =>
    match renormCase r c.l c.u with
    | some .e1 => encodeE1 maxBits r i c >>= encRenorm maxBits r i fuel
    | some .e2 => encodeE2 maxBits i c >>= encRenorm maxBits r i fuel
    | some .e3 => encRenorm maxBits r i fuel (encodeE3 r c)
    | none => .ok c

/-- One symbol of `44_arithmetic_encoder_interval_renorm.md` R175: look it up, narrow, renormalize. -/
def encodeSymbol (im : List Interval) (t k maxBits i : Nat) (x : Symbol) (c : Encoder) : Result Encoder :=
  match lookupInterval im x with
  | none => raise .unknownSymbol i x
  | some e =>
    if t = 0 then stuck .zeroTotal
    else
      let b := narrow c.l c.u e.low e.high t
      encRenorm maxBits (rangeOf k) i (k + 1) ⟨b.1, b.2, c.m, c.out⟩

/-- The loop of `44_arithmetic_encoder_interval_renorm.md` R175 from symbol index `i` on. -/
def encodeSymbols (im : List Interval) (t k maxBits : Nat) : Nat → List Symbol → Encoder → Result Encoder
  | _, [], c => .ok c
  | i, x :: xs, c => encodeSymbol im t k maxBits i x c >>= encodeSymbols im t k maxBits (i + 1) xs

/-- `Flush(l, m, out, pos)` (`44_arithmetic_encoder_interval_renorm.md` R186). -/
def flush (maxBits : Nat) (r : Int) (c : Encoder) (pos : Nat) : Result BitString :=
  if c.out.length + c.m + 2 > maxBits then raise .capacityExceeded pos 0
  else if r / 4 ≤ c.l then .ok (c.out ++ true :: List.replicate c.m false ++ [false])
  else .ok (c.out ++ false :: List.replicate c.m true ++ [true])

/-- The body of AEN (`44_arithmetic_encoder_interval_renorm.md` R175); M receives the `m` that entered Flush (R186). -/
def aenBody (s : State) : Result State := do
  require (s.flag .imV) .notReady 0 0
  require (!s.flag .symOvf) .capacityExceeded 0 0
  require (decide (s.precision ≤ s.params.kMax)) .capacityExceeded s.precision 0
  require (precOk s.precision s.t) .precisionTooLow s.precision 0
  let c ← encodeSymbols s.im s.t s.precision s.params.maxBits 0 s.symIn (encoderStart s.precision)
  let out ← flush s.params.maxBits (rangeOf s.precision) c s.symIn.length
  pure { s with
    bitOut := out, l := c.l.toNat, u := c.u.toNat, m := c.m
    sympos := s.symIn.length, bitpos := out.length }

/-- AEN, arithmetic encode (`44_arithmetic_encoder_interval_renorm.md` R175). -/
def execAen (s : State) : Host.Outcome State Fault Refusal := conclude .aen s (aenBody s)

end Sys2Proof.Machine
end

