-- ==== Sys2Proof/Machine/BufferCommands.lean ====
section
/-! DEFINITION. Buffer management, commands CLRFT, CLRSYM and CLRBIT (`46_buffer_commands.md`). -/

namespace Sys2Proof.Machine

/-- CLRFT, clear the Frequency Table (`46_buffer_commands.md` R220). -/
def execClrft (s : State) : Host.Outcome State Fault Refusal :=
  conclude .clrft s (.ok (invalidate { s with ft := [], status := putFlag s.status .ftOvf false }))

/-- CLRSYM, clear the input symbol sequence (`46_buffer_commands.md` R221). -/
def execClrsym (s : State) : Host.Outcome State Fault Refusal :=
  conclude .clrsym s (.ok { s with symIn := [], status := putFlag s.status .symOvf false })

/-- CLRBIT, clear the input bit sequence (`46_buffer_commands.md` R222). -/
def execClrbit (s : State) : Host.Outcome State Fault Refusal :=
  conclude .clrbit s (.ok { s with bitIn := [], status := putFlag s.status .bitOvf false })

end Sys2Proof.Machine
end

