-- ==== Sys2Proof/Machine/CodeTable.lean ====
section
/-! DEFINITION. The Huffman code-table and encoder unit, commands HCT and HEN (`41_huffman_code_table_encoder.md`). -/

namespace Sys2Proof.Machine

/-! ### HCT -/

/-- `Code(p)`: the path, or the placeholder bit `0` when the path is empty (`41_huffman_code_table_encoder.md` R132). -/
def codeOfPath (p : BitString) : BitString := if p.isEmpty then [false] else p

/-- The depth-first traversal of `41_huffman_code_table_encoder.md` R130 with its explicit stack, left before right, at
most `fuel` visits; a table entry not yet filled is `none`. It answers `none` where an index is no node, where a leaf
has no table entry, and where the visits run out before the stack is empty: none of these happens on a tree of
`10_state.md` R26. -/
def traverse (tn : List TreeNode) :
    Nat → List (Nat × BitString) → List (Option CodeEntry) → Option (List (Option CodeEntry))
  | _, [], ct => some ct
  | 0, _ :: _, _ => none
  | fuel + 1, (v, p) :: stack, ct =>
    match tn[v]? with
    | none => none
    | some nd =>
      match nd.kind with
      | .leaf =>
        if v < ct.length then
          traverse tn fuel stack (ct.set v (some ⟨nd.sym, (codeOfPath p).length, codeOfPath p⟩))
        else none
      | .internal =>
        traverse tn fuel ((nd.left, p ++ [false]) :: (nd.right, p ++ [true]) :: stack) ct

/-- The table when every entry is filled. -/
def filled : List (Option CodeEntry) → Option (List CodeEntry)
  | [] => some []
  | none :: _ => none
  | some e :: es => (filled es).map (e :: ·)

/-- The code table of a tree; a tree of n leaves has `len(TN) = 2n - 1` nodes, each visited once
(`41_huffman_code_table_encoder.md` R130, `70_reset_and_hazards.md` R272). -/
def codeTable (tn : List TreeNode) (root : Nat) : Option (List CodeEntry) :=
  (traverse tn tn.length [(root, [])] (List.replicate ((tn.length + 1) / 2) none)).bind filled

/-- The body of HCT (`41_huffman_code_table_encoder.md` R130). -/
def hctBody (s : State) : Result State := do
  require (s.flag .treeV) .notReady 0 0
  match codeTable s.tn s.root with
  | some ct => pure { s with ct := ct, status := putFlag s.status .ctV true }
  | none => stuck .treeNotValid

/-- HCT, derive the Huffman code table (`41_huffman_code_table_encoder.md` R130). -/
def execHct (s : State) : Host.Outcome State Fault Refusal := conclude .hct s (hctBody s)

/-! ### HEN -/

/-- The loop of `41_huffman_code_table_encoder.md` R135 from symbol index `i` on; `out` holds the bits so far. -/
def huffmanEncode (ct : List CodeEntry) (maxBits : Nat) : Nat → List Symbol → BitString → Result BitString
  | _, [], out => .ok out
  | i, x :: xs, out =>
    match lookupCode ct x with
    | none => raise .unknownSymbol i x
    | some e =>
      if out.length + e.len > maxBits then raise .capacityExceeded i 0
      else huffmanEncode ct maxBits (i + 1) xs (out ++ e.bits)

/-- The body of HEN (`41_huffman_code_table_encoder.md` R135). -/
def henBody (s : State) : Result State := do
  require (s.flag .ctV) .notReady 0 0
  require (!s.flag .symOvf) .capacityExceeded 0 0
  let out ← huffmanEncode s.ct s.params.maxBits 0 s.symIn []
  pure { s with bitOut := out, sympos := s.symIn.length, bitpos := out.length }

/-- HEN, Huffman encode (`41_huffman_code_table_encoder.md` R135). -/
def execHen (s : State) : Host.Outcome State Fault Refusal := conclude .hen s (henBody s)

end Sys2Proof.Machine
end

