-- ==== Sys2Proof/Machine/IntervalModel.lean ====
section
/-! DEFINITION. The interval-model front end, command BIM (`43_interval_model.md`). -/

namespace Sys2Proof.Machine

/-- The loop of `43_interval_model.md` R165 with `acc` the sum so far: the intervals in FT order, and the total. -/
def buildIntervals (acc : Nat) : List FtEntry → List Interval × Nat
  | [] => ([], acc)
  | e :: es =>
    let r := buildIntervals (acc + e.count) es
    (⟨e.sym, acc, acc + e.count⟩ :: r.1, r.2)

/-- The body of BIM (`43_interval_model.md` R165). -/
def bimBody (s : State) : Result State := do
  require (!s.flag .ftOvf) .capacityExceeded 0 0
  ftCheck s.ft
  pure { s with
    im := (buildIntervals 0 s.ft).1, t := (buildIntervals 0 s.ft).2
    status := putFlag s.status .imV true }

/-- BIM, build the Interval Model (`43_interval_model.md` R165). -/
def execBim (s : State) : Host.Outcome State Fault Refusal := conclude .bim s (bimBody s)

end Sys2Proof.Machine
end

