-- ==== Sys2Proof/Machine/Tree.lean ====
section
/-! DEFINITION. The Huffman tree builder unit, command BHT (`40_huffman_tree_builder.md`). -/

namespace Sys2Proof.Machine

/-- The leaf of an entry of FT (`10_state.md` R24, `40_huffman_tree_builder.md` R110). -/
def leafOf (e : FtEntry) : TreeNode := ⟨.leaf, e.sym, e.count, 0, 0⟩

/-- `tn[v].freq`. The priority structure only ever holds indices of nodes, so the default is never read. -/
def freqAt (tn : List TreeNode) (v : Nat) : Nat := (tn[v]?.map TreeNode.freq).getD 0

/-- Whether the key `(tn[v].freq, v)` comes before the key of `w` in lexicographic order (`40_huffman_tree_builder.md`
R111). -/
def keyBefore (tn : List TreeNode) (v w : Nat) : Bool :=
  decide (freqAt tn v < freqAt tn w) || (decide (freqAt tn v = freqAt tn w) && decide (v < w))

/-- The index of least key among `v` and the indices of `vs`. -/
def leastIndex (tn : List TreeNode) (v : Nat) (vs : List Nat) : Nat :=
  vs.foldl (fun best w => if keyBefore tn w best then w else best) v

/-- `ExtractMin(pq, tn)` (`40_huffman_tree_builder.md` R111); `none` when `pq` is empty. -/
def extractMin (pq : List Nat) (tn : List TreeNode) : Option (Nat × List Nat) :=
  match pq with
  | [] => none
  | v :: vs => some (leastIndex tn v vs, (v :: vs).erase (leastIndex tn v vs))

/-- The node that `Merge(tn, a, b)` appends: the first node extracted is the left child
(`40_huffman_tree_builder.md` R112). -/
def mergedNode (tn : List TreeNode) (a b : Nat) : TreeNode :=
  ⟨.internal, 0, freqAt tn a + freqAt tn b, a, b⟩

/-- `while |pq| > 1` of `40_huffman_tree_builder.md` R110, at most `fuel` times. For a table of n symbols the loop runs
n - 1 times (R113). -/
def mergeLoop : Nat → List TreeNode → List Nat → List TreeNode × List Nat
  | 0, tn, pq => (tn, pq)
  | fuel + 1, tn, pq =>
    match extractMin pq tn with
    | none => (tn, pq)
    | some (a, pq') =>
      match extractMin pq' tn with
      | none => (tn, pq)
      | some (b, pq'') => mergeLoop fuel (tn ++ [mergedNode tn a b]) (pq'' ++ [tn.length])

/-- The tree of a well-formed table: TN, and the single element of `pq`, its root (`40_huffman_tree_builder.md` R110). -/
def buildTree (ft : List FtEntry) : List TreeNode × Nat :=
  let r := mergeLoop (ft.length - 1) (ft.map leafOf) (List.range ft.length)
  (r.1, r.2.headD 0)

/-- The state BHT leaves on success, but for the report: codes of an older tree are discarded
(`40_huffman_tree_builder.md` R110). -/
def withTree (s : State) (tn : List TreeNode) (root : Nat) : State :=
  { s with
    tn := tn, root := root, ct := []
    status := putFlag (putFlag s.status .treeV true) .ctV false }

/-- The body of BHT (`40_huffman_tree_builder.md` R110). -/
def bhtBody (s : State) : Result State := do
  require (!s.flag .ftOvf) .capacityExceeded 0 0
  ftCheck s.ft
  pure (withTree s (buildTree s.ft).1 (buildTree s.ft).2)

/-- BHT, build Huffman tree (`40_huffman_tree_builder.md` R110). -/
def execBht (s : State) : Host.Outcome State Fault Refusal := conclude .bht s (bhtBody s)

end Sys2Proof.Machine
end

