-- ==== Sys2Proof/Machine/TreeDecode.lean ====
section
/-! DEFINITION. The Huffman decoder FSM unit, command HDE (`42_huffman_decoder_fsm.md`). -/

namespace Sys2Proof.Machine

/-- `HufStep(node, b, p)`: the next node and the symbol emitted, if any (`42_huffman_decoder_fsm.md` R151, R152). Where a
node has no child of that index the walk has "no corresponding child", MalformedStream; on a tree of `10_state.md`
R26 that happens only for bit `1` on a single leaf (R152, `93_implementation_defined.md` I13; log entry 9). -/
def hufStep (tn : List TreeNode) (root node : Nat) (b : Bit) (p : Nat) : Result (Nat × Option Symbol) :=
  match tn[node]? with
  | none => raise .malformedStream p 0
  | some nd =>
    match nd.kind with
    | .internal =>
      let nxt := if b then nd.right else nd.left
      match tn[nxt]? with
      | none => raise .malformedStream p 0
      | some child =>
        match child.kind with
        | .leaf => .ok (root, some child.sym)
        | .internal => .ok (nxt, none)
    | .leaf =>
      if b then raise .malformedStream p 0
      else
        match tn[root]? with
        | none => raise .malformedStream p 0
        | some r => .ok (root, some r.sym)

/-- The loop of `42_huffman_decoder_fsm.md` R150 from bit position `p` on; it gives the node the walk ends at and the
symbols emitted. -/
def huffmanDecode (tn : List TreeNode) (root maxN : Nat) :
    Nat → BitString → Nat → List Symbol → Result (Nat × List Symbol)
  | _, [], node, out => .ok (node, out)
  | p, b :: bs, node, out =>
    match hufStep tn root node b p with
    | .error h => .error h
    | .ok (node', none) => huffmanDecode tn root maxN (p + 1) bs node' out
    | .ok (node', some x) =>
      if out.length = maxN then raise .capacityExceeded p 0
      else huffmanDecode tn root maxN (p + 1) bs node' (out ++ [x])

/-- The body of HDE (`42_huffman_decoder_fsm.md` R150); a walk that ends inside a code is MalformedStream (R153). -/
def hdeBody (s : State) : Result State := do
  require (s.flag .treeV) .notReady 0 0
  require (!s.flag .bitOvf) .capacityExceeded 0 0
  let r ← huffmanDecode s.tn s.root s.params.maxN 0 s.bitIn s.root []
  require (r.1 == s.root) .malformedStream s.bitIn.length 0
  pure { s with symOut := r.2, node := r.1, bitpos := s.bitIn.length, sympos := r.2.length }

/-- HDE, Huffman decode (`42_huffman_decoder_fsm.md` R150). -/
def execHde (s : State) : Host.Outcome State Fault Refusal := conclude .hde s (hdeBody s)

end Sys2Proof.Machine
end

