-- ==== Sys2Proof/Machine/Dispatch.lean ====
section
/-! DEFINITION. One arm per command. -/

namespace Sys2Proof.Machine

def exec (i : Instr) (s : State) : Host.Outcome State Fault Refusal :=
  match i with
  | .bht => Sys2Proof.Machine.execBht s
  | .hct => Sys2Proof.Machine.execHct s
  | .hen => Sys2Proof.Machine.execHen s
  | .hde => Sys2Proof.Machine.execHde s
  | .bim => Sys2Proof.Machine.execBim s
  | .aen => Sys2Proof.Machine.execAen s
  | .ade => Sys2Proof.Machine.execAde s
  | .clrft => Sys2Proof.Machine.execClrft s
  | .clrsym => Sys2Proof.Machine.execClrsym s
  | .clrbit => Sys2Proof.Machine.execClrbit s

end Sys2Proof.Machine
end

