-- ==== Sys2Proof/Machine/HostPort.lean ====
section
/-! DEFINITION. The host actions: the block's loads and stores, and the write that runs a command (`20_memory.md`
R62 to R69). -/

namespace Sys2Proof.Machine

/-- `HostWriteReg(0, v)`: `CMD <- v[7:0]`, then the command it decodes to runs to completion (`20_memory.md` R63,
`10_state.md` R35); a value that selects no command raises IllegalCommand (`30_encoding.md` R94). -/
def runCommand (v : Nat) (s : State) : Host.Outcome State Fault Refusal :=
  let s' := { s with cmd := BitVec.ofNat 8 v }
  match decode s'.cmd with
  | .ok i => exec i s'
  | .error _ => .next (illegalCommand s')

/-- `HostWriteReg(no, v)` (`20_memory.md` R63 to R66); every other write is refused (R69). -/
def hostWrite (no v : Nat) (s : State) : Host.Outcome State Fault Refusal :=
  match regOfNumber no with
  | some .cmd => runCommand v s
  | some .k => .next { s with k := BitVec.ofNat 8 v }
  | some .n => .next { s with n := BitVec.ofNat 32 v }
  | some .ftPush => .next (pushFt (ftOperand s.params v) s)
  | some .symPush => .next (pushSym (symOperand s.params v) s)
  | some .bitPush => .next (pushBit (bitOperand v) s)
  | some _ => .refused (.writeReadOnly no)
  | none => .refused (.noSuchRegister no)

/-- `HostReadReg(no)` (`20_memory.md` R67): the value is returned and the block does not change. -/
def hostRead (no : Nat) (s : State) : Host.Outcome State Fault Refusal :=
  match regOfNumber no with
  | some r =>
    match s.regValue r with
    | some v => .next { s with reply := some (.value v) }
    | none => .refused (.readPort no)
  | none => .refused (.noSuchRegister no)

/-- `MemRead(space, i)` (`20_memory.md` R68): the entry is returned and the block does not change. -/
def memRead (space : Space) (i : Nat) (s : State) : Host.Outcome State Fault Refusal :=
  match s.readEntry space i with
  | some e => .next { s with reply := some (.entry e) }
  | none => .refused (.readPastEnd space i)

/-- `MemWrite(space, 1, e)` (`20_memory.md` R64 to R66): a push to one of the three input buffers. A space without a
port is refused (R69), and so is an operand that is not an entry of the space (log entry 6). -/
def memWrite (space : Space) (e : Entry) (s : State) : Host.Outcome State Fault Refusal :=
  match space with
  | .ft =>
    match e with
    | .freq x =>
      if x.sym < 2 ^ s.params.symBits ∧ x.count < 2 ^ s.params.cntBits then .next (pushFt x s)
      else .refused (.notAnEntry .ft)
    | _ => .refused (.notAnEntry .ft)
  | .symIn =>
    match e with
    | .symbol x => if x < 2 ^ s.params.symBits then .next (pushSym x s) else .refused (.notAnEntry .symIn)
    | _ => .refused (.notAnEntry .symIn)
  | .bitIn =>
    match e with
    | .bit b => .next (pushBit b s)
    | _ => .refused (.notAnEntry .bitIn)
  | .tn => .refused (.noWritePort .tn)
  | .ct => .refused (.noWritePort .ct)
  | .im => .refused (.noWritePort .im)
  | .symOut => .refused (.noWritePort .symOut)
  | .bitOut => .refused (.noWritePort .bitOut)

/-- Reset (`70_reset_and_hazards.md` R260): the whole state of the block takes the values of `10_state.md` R50. The
parameters and the actions the host has still to perform are no state of the block (R20) and stay. -/
def platformReset (s : State) : State :=
  { State.resetWith s.params with pending := s.pending, reply := s.reply }

/-- One host action, atomic and complete before the next (`20_memory.md` R62). -/
def perform (a : HostAction) (s : State) : Host.Outcome State Fault Refusal :=
  match a with
  | .writeReg no v => hostWrite no v s
  | .readReg no => hostRead no s
  | .memRead space i => memRead space i s
  | .memWrite space e => memWrite space e s
  | .reset => .next (platformReset s)

end Sys2Proof.Machine
end

