-- ==== Sys2Proof/Machine/Step.lean ====
section
/-! DEFINITION. One step: the next host action of the run (`00_scope.md` R17). -/

namespace Sys2Proof.Machine

/-- One step performs the first pending host action. With none pending the block is idle and nothing changes: there is
no halt and no terminal state (`00_scope.md` R16, R17). -/
def step (s : State) : Host.Outcome State Fault Refusal :=
  match s.pending with
  | [] => .next s
  | a :: rest => perform a { s with pending := rest }

/-- `s` with the command word `w` where the next command comes from: as the host's next write to CMD. The block fetches
nothing (`10_state.md` R47), so this stands for the host issuing the command (log entry 4). -/
def State.withFetchWord (s : State) (nbits w : Nat) : State :=
  { s with pending := .writeReg 0 (w % 2 ^ nbits) :: s.pending }

end Sys2Proof.Machine
end

