-- ==== Sys2Proof/Machine/Script.lean ====
section
/-! DEFINITION. The host-script syntax of `30_encoding.md` R96 to R98: what each line stands for as host actions (log entry 12). -/

namespace Sys2Proof.Machine

/-- The mnemonic of a command, alone, in upper case (`30_encoding.md` R96). -/
def mnemonic : Instr → String
  | .bht => "BHT"
  | .hct => "HCT"
  | .hen => "HEN"
  | .hde => "HDE"
  | .bim => "BIM"
  | .aen => "AEN"
  | .ade => "ADE"
  | .clrft => "CLRFT"
  | .clrsym => "CLRSYM"
  | .clrbit => "CLRBIT"

/-- The command of a mnemonic (`30_encoding.md` R96). -/
def commandNamed (name : String) : Option Instr :=
  [Instr.bht, .hct, .hen, .hde, .bim, .aen, .ade, .clrft, .clrsym, .clrbit].find? fun i => mnemonic i == name

/-- The names of the registers, the column "name" of `10_state.md` R34, as `RDREG` uses them (`30_encoding.md` R97). -/
def Reg.name : Reg → String
  | .cmd => "CMD"
  | .status => "STATUS"
  | .errpos => "ERRPOS"
  | .errsym => "ERRSYM"
  | .k => "K"
  | .n => "N"
  | .t => "T"
  | .root => "ROOT"
  | .l => "L"
  | .u => "U"
  | .m => "M"
  | .code => "CODE"
  | .node => "NODE"
  | .bitpos => "BITPOS"
  | .sympos => "SYMPOS"
  | .ftlen => "FTLEN"
  | .tnlen => "TNLEN"
  | .ctlen => "CTLEN"
  | .imlen => "IMLEN"
  | .syminlen => "SYMINLEN"
  | .symoutlen => "SYMOUTLEN"
  | .bitinlen => "BITINLEN"
  | .bitoutlen => "BITOUTLEN"
  | .ftPush => "FT_PUSH"
  | .symPush => "SYM_PUSH"
  | .bitPush => "BIT_PUSH"

/-- The symbol that a quoted character stands for, its ASCII code (`30_encoding.md` R97, `10_state.md` R21). -/
def quotedSymbol (c : Char) : Symbol := c.toNat

/-- A line of a host script (`30_encoding.md` R96, R97, R98). A symbol is its number; a quoted character is given
as `quotedSymbol`. -/
inductive ScriptLine where
  /-- A command by its mnemonic (R96). -/
  | command (i : Instr)
  /-- `CMD v`, an arbitrary value (R96). -/
  | cmd (v : Nat)
  /-- `SETK v` (R97). -/
  | setK (v : Nat)
  /-- `SETN v` (R97). -/
  | setN (v : Nat)
  /-- `PUSHFT s, c` (R97). -/
  | pushFt (s c : Nat)
  /-- `PUSHSYM s` (R97). -/
  | pushSym (s : Nat)
  /-- `PUSHBIT b` (R97). -/
  | pushBit (b : Bit)
  /-- `RDREG name` (R97). -/
  | rdReg (r : Reg)
  /-- `RD space, i` (R97). -/
  | rd (space : Space) (i : Nat)
  /-- `LOADFT` with the entries in the order written (R98). -/
  | loadFt (es : List (Nat × Nat))
  /-- `LOADSYM` (R98). -/
  | loadSym (xs : List Nat)
  /-- `LOADBITS` (R98). -/
  | loadBits (bs : BitString)
  /-- `COPYBITS` (R98). -/
  | copyBits
  /-- `EXPECT cond`: no action (R98). -/
  | expect (cond : String)
deriving DecidableEq, Repr

/-- A command assembles to a write of its value to CMD (`30_encoding.md` R96). -/
def commandAction (i : Instr) : HostAction := .writeReg 0 (encode i).toNat

/-- The host actions of a line, for the state the line is reached in: `COPYBITS` reads BIT_OUT and pushes the bits read,
which no action of its expansion changes (`30_encoding.md` R96 to R98). -/
def ScriptLine.expand (s : State) : ScriptLine → List HostAction
  | .command i => [commandAction i]
  | .cmd v => [.writeReg 0 v]
  | .setK v => [.writeReg 4 v]
  | .setN v => [.writeReg 5 v]
  | .pushFt x c => [.memWrite .ft (.freq ⟨x, c⟩)]
  | .pushSym x => [.memWrite .symIn (.symbol x)]
  | .pushBit b => [.memWrite .bitIn (.bit b)]
  | .rdReg r => [.readReg r.number]
  | .rd space i => [.memRead space i]
  | .loadFt es => commandAction .clrft :: es.map fun e => .memWrite .ft (.freq ⟨e.1, e.2⟩)
  | .loadSym xs => commandAction .clrsym :: xs.map fun x => .memWrite .symIn (.symbol x)
  | .loadBits bs => commandAction .clrbit :: bs.map fun b => .memWrite .bitIn (.bit b)
  | .copyBits =>
    commandAction .clrbit ::
      (List.range s.bitOut.length).flatMap fun i =>
        [.memRead .bitOut i, .memWrite .bitIn (.bit (s.bitOut.getD i false))]
  | .expect _ => []

/-- The actions in order, each complete before the next; the first refusal or stop ends the run (`20_memory.md` R62,
R76). -/
def performAll : List HostAction → State → Host.Outcome State Fault Refusal
  | [], s => .next s
  | a :: rest, s =>
    match perform a s with
    | .next s' => performAll rest s'
    | .fault f => .fault f
    | .refused r => .refused r

/-- A script run from a state, line by line (`30_encoding.md` R96 to R98, `00_scope.md` R17). -/
def runScript : List ScriptLine → State → Host.Outcome State Fault Refusal
  | [], s => .next s
  | line :: rest, s =>
    match performAll (line.expand s) s with
    | .next s' => runScript rest s'
    | .fault f => .fault f
    | .refused r => .refused r

end Sys2Proof.Machine
end

