-- ==== Sys2Proof/WellFormed.lean ====
section
/-! DEFINITION. Which parameters, commands and host actions are well formed. -/

namespace Sys2Proof

/-- The constraints of `00_scope.md` R6 on the parameters. -/
def Params.wf (p : Params) : Bool :=
  decide (1 ≤ p.symBits) &&
  decide (1 ≤ p.maxSyms) && decide (p.maxSyms ≤ 2 ^ p.symBits) &&
  decide (1 ≤ p.cntBits) &&
  decide (2 ≤ p.kMax) && decide (p.kMax ≤ 255) &&
  decide (1 ≤ p.maxN) && decide (p.maxN < 2 ^ 32) &&
  decide (1 ≤ p.maxBits)

/-- Every command is well formed: it has no operand that could be out of range (`30_encoding.md` R92). -/
def Instr.wf (_ : Instr) : Bool := true

end Sys2Proof

namespace Sys2Proof.Machine

/-- A value of FT_PUSH's entry type (`10_state.md` R22). -/
def FtEntry.fits (p : Params) (e : FtEntry) : Bool :=
  decide (e.sym < 2 ^ p.symBits) && decide (e.count < 2 ^ p.cntBits)

/-- The host actions that `20_memory.md` R62 and R69 give the host, but for the index of a MemRead, which is held against
the present length of the buffer only when the read is made. -/
def HostAction.wf (p : Params) : HostAction → Bool
  | .writeReg no _ => (regOfNumber no).any Reg.hostWrites
  | .readReg no => (regOfNumber no).any Reg.hostReads
  | .memRead _ _ => true
  | .memWrite .ft (.freq e) => e.fits p
  | .memWrite .symIn (.symbol x) => decide (x < 2 ^ p.symBits)
  | .memWrite .bitIn (.bit _) => true
  | .memWrite _ _ => false
  | .reset => true

end Sys2Proof.Machine
end

