-- ==== Sys2Proof/Safety.lean ====
section
/-! DEFINITION. What the spec promises of every state reachable from reset (`10_state.md` R51) and of every run, in the
terms the statements use. -/

namespace Sys2Proof.Machine

/-! ### The structures derived from a table -/

/-- A well-formed table (`10_state.md` R23): non-empty, every count at least 1, all symbols distinct. -/
abbrev FtWellFormed (ft : List FtEntry) : Prop :=
  ft ≠ [] ∧ (∀ e ∈ ft, 1 ≤ e.count) ∧ (ft.map FtEntry.sym).Nodup

/-- The sum of all counts. -/
def totalCount (ft : List FtEntry) : Nat := (ft.map FtEntry.count).sum

/-- The children that the internal nodes of `tn` name, with repetitions. -/
def childIndices (tn : List TreeNode) : List Nat :=
  tn.flatMap fun nd =>
    match nd.kind with
    | .leaf => []
    | .internal => [nd.left, nd.right]

/-- `10_state.md` R26 for an internal node at index `j`, with `sym` 0 (R24). -/
def innerNodeOk (tn : List TreeNode) (j : Nat) : Bool :=
  match tn[j]? with
  | none => false
  | some nd =>
    nd.kind == .internal && nd.sym == 0 && decide (nd.left < j) && decide (nd.right < j) &&
      nd.left != nd.right && nd.freq == freqAt tn nd.left + freqAt tn nd.right

/-- The tree invariant (`10_state.md` R26). -/
structure TreeInv (ft : List FtEntry) (tn : List TreeNode) (root : Nat) : Prop where
  /-- `len(TN) = 2n - 1` -/
  size : tn.length + 1 = 2 * ft.length
  /-- the leaves, in FT order -/
  leaves : tn.take ft.length = ft.map fun e => ⟨.leaf, e.sym, e.count, 0, 0⟩
  /-- the internal nodes -/
  inner : ∀ j < tn.length, ft.length ≤ j → innerNodeOk tn j = true
  /-- every index but the root's is a child of exactly one internal node -/
  child : ∀ i < tn.length - 1, (childIndices tn).count i = 1
  /-- `ROOT = 2n - 2` -/
  root_eq : root + 1 = tn.length
  /-- `TN[ROOT].freq` is the sum of all counts -/
  total : freqAt tn root = totalCount ft

/-- The node reached from `v` by descending left at each `0` and right at each `1` through internal nodes
(`41_huffman_code_table_encoder.md` R131); `none` where the path leaves the tree. -/
def follow (tn : List TreeNode) : Nat → BitString → Option Nat
  | v, [] => some v
  | v, b :: bs =>
    match tn[v]? with
    | none => none
    | some nd =>
      match nd.kind with
      | .leaf => none
      | .internal => follow tn (if b then nd.right else nd.left) bs

/-- CT[i] is the entry of leaf i: its symbol, and its path from the root, or the one bit `0` when the table has one
symbol (`10_state.md` R27, `41_huffman_code_table_encoder.md` R131, R132). -/
def codeEntryOk (ft : List FtEntry) (tn : List TreeNode) (root : Nat) (ct : List CodeEntry) (i : Nat) : Bool :=
  match ft[i]?, ct[i]? with
  | some f, some c =>
    c.sym == f.sym && c.len == c.bits.length &&
      (if ft.length = 1 then c.bits == [false] else follow tn root c.bits == some i)
  | _, _ => false

/-- The clause of `10_state.md` R27 for a valid CT. -/
structure CodeInv (ft : List FtEntry) (tn : List TreeNode) (root : Nat) (ct : List CodeEntry) : Prop where
  size : ct.length = ft.length
  entries : ∀ i < ft.length, codeEntryOk ft tn root ct i = true

/-- IM[i] has FT[i]'s symbol and width (`10_state.md` R28). -/
def intervalOk (ft : List FtEntry) (im : List Interval) (i : Nat) : Bool :=
  match ft[i]?, im[i]? with
  | some f, some e => e.sym == f.sym && e.high == e.low + f.count
  | _, _ => false

/-- The clause of `10_state.md` R28 for a valid IM. -/
structure IntervalInv (ft : List FtEntry) (im : List Interval) (t : Nat) : Prop where
  size : im.length = ft.length
  rows : ∀ i < ft.length, intervalOk ft im i = true
  first : im.head?.map Interval.low = some 0
  chain : ∀ i < ft.length - 1, im[i + 1]?.map Interval.low = im[i]?.map Interval.high
  total : im.getLast?.map Interval.high = some t

/-! ### The invariants of every reachable state -/

/-- `10_state.md` R51, clause by clause, with the constraints of `00_scope.md` R6 on the parameters. -/
structure Inv (s : State) : Prop where
  /-- `00_scope.md` R6 -/
  params_wf : s.params.wf = true
  /-- R51 (a), and the capacities of TN, CT and IM (R24, R27, R28) -/
  capacity : Memory.wf s = true
  /-- R51 (b) -/
  no_tree : s.flag .treeV = false → s.tn = [] ∧ s.root = 0 ∧ s.flag .ctV = false
  /-- R51 (c) -/
  no_codes : s.flag .ctV = false → s.ct = []
  /-- R51 (d) -/
  no_model : s.flag .imV = false → s.im = [] ∧ s.t = 0
  /-- R51 (e), R26 -/
  tree : s.flag .treeV = true → TreeInv s.ft s.tn s.root
  /-- R51 (e), R27 -/
  codes : s.flag .ctV = true → CodeInv s.ft s.tn s.root s.ct
  /-- R51 (e), R28 -/
  model : s.flag .imV = true → IntervalInv s.ft s.im s.t
  /-- R51 (f) -/
  table : (s.flag .treeV || s.flag .ctV || s.flag .imV) = true → s.flag .ftOvf = false ∧ FtWellFormed s.ft
  /-- R51 (g) -/
  reserved : reservedBits s.status = 0

/-- What STATUS, ERRPOS and ERRSYM may hold together: the reserved bits are 0 (`10_state.md` R36), codes 8 to 15 are never
produced, a success reports position 0 and symbol 0, and only InvalidInput and UnknownSymbol report a symbol
(`60_exceptions.md` R231). -/
structure ReportInv (s : State) : Prop where
  reserved : reservedBits s.status = 0
  code_range : s.err.toNat ≤ 7
  success_zero : s.err = ErrCode.success.code → s.errpos = 0 ∧ s.errsym = 0
  symbol_only : s.errsym ≠ 0 → s.err = ErrCode.invalidInput.code ∨ s.err = ErrCode.unknownSymbol.code

/-- Every entry of every buffer is within the widths of its fields (`10_state.md` R22 to R31). -/
structure EntriesFit (s : State) : Prop where
  ft : ∀ e ∈ s.ft, e.sym < 2 ^ s.params.symBits ∧ e.count < 2 ^ s.params.cntBits
  tn : ∀ e ∈ s.tn, e.sym < 2 ^ s.params.symBits ∧ e.freq < 2 ^ s.params.freqBits ∧
    e.left < 2 ^ s.params.nodeBits ∧ e.right < 2 ^ s.params.nodeBits
  ct : ∀ e ∈ s.ct, e.sym < 2 ^ s.params.symBits ∧ 1 ≤ e.len ∧ e.len ≤ s.params.codeLenMax ∧ e.bits.length = e.len
  im : ∀ e ∈ s.im, e.sym < 2 ^ s.params.symBits ∧ e.low < 2 ^ s.params.freqBits ∧ e.high < 2 ^ s.params.freqBits
  symIn : ∀ x ∈ s.symIn, x < 2 ^ s.params.symBits
  symOut : ∀ x ∈ s.symOut, x < 2 ^ s.params.symBits

/-- Every register's value fits its width (`10_state.md` R34), and every entry the widths of its fields. -/
structure WidthsFit (s : State) : Prop where
  registers : ∀ (r : Reg) (v : Nat), s.regValue r = some v → v < 2 ^ r.width s.params
  entries : EntriesFit s

/-! ### The merge order -/

/-- Node `v` is in the priority structure when node `j` is made: it exists, and no node made before `j` has taken it as
a child (`40_huffman_tree_builder.md` R110). -/
def availableAt (tn : List TreeNode) (j v : Nat) : Bool :=
  decide (v < j) && !(childIndices (tn.take j)).contains v

/-- The lexicographic order of the keys `(tn[v].freq, v)` (`40_huffman_tree_builder.md` R111). -/
abbrev keyLess (tn : List TreeNode) (v w : Nat) : Prop :=
  freqAt tn v < freqAt tn w ∨ (freqAt tn v = freqAt tn w ∧ v < w)

/-- Each internal node merges the two available nodes of least key, the least on the left
(`40_huffman_tree_builder.md` R110, R111, R112). -/
def MergedGreedily (ft : List FtEntry) (tn : List TreeNode) : Prop :=
  ∀ (j : Nat) (nd : TreeNode), ft.length ≤ j → tn[j]? = some nd →
    availableAt tn j nd.left = true ∧ availableAt tn j nd.right = true ∧
    (∀ v, availableAt tn j v = true → v ≠ nd.left → keyLess tn nd.left v) ∧
    (∀ v, availableAt tn j v = true → v ≠ nd.left → v ≠ nd.right → keyLess tn nd.right v)

/-! ### Faults and frames, written out from the spec's tables -/

/-- STATUS after a fault: the bits of `keep` kept, the others 0, and ERR the code (`10_state.md` R36). -/
def faultStatus (w keep : StatusWord) (e : ErrCode) : StatusWord :=
  (w &&& keep) ||| (e.code.setWidth 16 <<< 8)

/-- The state a command leaves on a fault, the table of `60_exceptions.md` R236 with STATUS by its bits. The three clear
commands cannot fault; their row would change the report only. -/
def faultOutcome (i : Instr) (e : ErrCode) (pos : Nat) (sym : Symbol) (s : State) : State :=
  match i with
  | .bht =>
    { s with
      tn := [], root := 0, ct := []
      status := faultStatus s.status 0xF0FC#16 e, errpos := pos, errsym := sym }
  | .hct => { s with ct := [], status := faultStatus s.status 0xF0FD#16 e, errpos := pos, errsym := sym }
  | .hen =>
    { s with
      bitOut := [], sympos := 0, bitpos := 0
      status := faultStatus s.status 0xF0FF#16 e, errpos := pos, errsym := sym }
  | .hde =>
    { s with
      symOut := [], node := 0, bitpos := 0, sympos := 0
      status := faultStatus s.status 0xF0FF#16 e, errpos := pos, errsym := sym }
  | .bim => { s with im := [], t := 0, status := faultStatus s.status 0xF0FB#16 e, errpos := pos, errsym := sym }
  | .aen =>
    { s with
      bitOut := [], l := 0, u := 0, m := 0, sympos := 0, bitpos := 0
      status := faultStatus s.status 0xF0FF#16 e, errpos := pos, errsym := sym }
  | .ade =>
    { s with
      symOut := [], l := 0, u := 0, m := 0, code := 0, bitpos := 0, sympos := 0
      status := faultStatus s.status 0xF0FF#16 e, errpos := pos, errsym := sym }
  | .clrft => { s with status := faultStatus s.status 0xF0FF#16 e, errpos := pos, errsym := sym }
  | .clrsym => { s with status := faultStatus s.status 0xF0FF#16 e, errpos := pos, errsym := sym }
  | .clrbit => { s with status := faultStatus s.status 0xF0FF#16 e, errpos := pos, errsym := sym }

/-- The faults each command raises, the column "raised by" of `60_exceptions.md` R231. -/
def mayRaise (i : Instr) : List ErrCode :=
  match i with
  | .bht => [.capacityExceeded, .invalidInput]
  | .hct => [.notReady]
  | .hen => [.notReady, .capacityExceeded, .unknownSymbol]
  | .hde => [.notReady, .capacityExceeded, .malformedStream]
  | .bim => [.capacityExceeded, .invalidInput]
  | .aen => [.notReady, .capacityExceeded, .precisionTooLow, .unknownSymbol]
  | .ade => [.notReady, .capacityExceeded, .precisionTooLow, .malformedStream]
  | .clrft => []
  | .clrsym => []
  | .clrbit => []

/-- The bits of STATUS that a command never writes, by the write-set its rule lists (`10_state.md` R36). -/
def statusKept (i : Instr) : StatusWord :=
  match i with
  | .bht => 0xF0FC#16
  | .hct => 0xF0FD#16
  | .bim => 0xF0FB#16
  | .clrft => 0xF0F0#16
  | .clrsym => 0xF0EF#16
  | .clrbit => 0xF0DF#16
  | .hen => 0xF0FF#16
  | .hde => 0xF0FF#16
  | .aen => 0xF0FF#16
  | .ade => 0xF0FF#16

/-- `t` differs from `s` at most in what the rule of command `i` lists as its write-set: the registers and buffers here,
and the bits of STATUS outside `statusKept`. -/
def WritesOnly (i : Instr) (s t : State) : Prop :=
  t.status &&& statusKept i = s.status &&& statusKept i ∧
  match i with
  | .bht => t = { s with tn := t.tn, root := t.root, ct := [], status := t.status, errpos := t.errpos, errsym := t.errsym }
  | .hct => t = { s with ct := t.ct, status := t.status, errpos := t.errpos, errsym := t.errsym }
  | .hen =>
    t = { s with
      bitOut := t.bitOut, sympos := t.sympos, bitpos := t.bitpos
      status := t.status, errpos := t.errpos, errsym := t.errsym }
  | .hde =>
    t = { s with
      symOut := t.symOut, node := t.node, bitpos := t.bitpos, sympos := t.sympos
      status := t.status, errpos := t.errpos, errsym := t.errsym }
  | .bim => t = { s with im := t.im, t := t.t, status := t.status, errpos := t.errpos, errsym := t.errsym }
  | .aen =>
    t = { s with
      bitOut := t.bitOut, l := t.l, u := t.u, m := t.m, sympos := t.sympos, bitpos := t.bitpos
      status := t.status, errpos := t.errpos, errsym := t.errsym }
  | .ade =>
    t = { s with
      symOut := t.symOut, l := t.l, u := t.u, m := 0, code := t.code, bitpos := t.bitpos, sympos := t.sympos
      status := t.status, errpos := t.errpos, errsym := t.errsym }
  | .clrft =>
    t = { s with
      ft := [], tn := [], root := 0, ct := [], im := [], t := 0, status := t.status, errpos := 0, errsym := 0 }
  | .clrsym => t = { s with symIn := [], status := t.status, errpos := 0, errsym := 0 }
  | .clrbit => t = { s with bitIn := [], status := t.status, errpos := 0, errsym := 0 }

/-- FT[i] offends FTCheck: its count is 0, or its symbol is that of an earlier entry (`10_state.md` R23). -/
def offends (ft : List FtEntry) (i : Nat) : Bool :=
  match ft[i]? with
  | none => false
  | some e => e.count == 0 || (ft.take i).any fun d => d.sym == e.sym

/-- The entries of a buffer space, index 0 first (`20_memory.md` R60). -/
def entriesOf (s : State) (space : Space) : List Entry :=
  match space with
  | .ft => s.ft.map .freq
  | .tn => s.tn.map .node
  | .ct => s.ct.map .code
  | .im => s.im.map .interval
  | .symIn => s.symIn.map .symbol
  | .symOut => s.symOut.map .symbol
  | .bitIn => s.bitIn.map .bit
  | .bitOut => s.bitOut.map .bit

/-- Every buffer is within its capacity, and each code in CT has the length its entry states. -/
structure CapacityInv (s : State) : Prop where
  buffers : Memory.wf s = true
  code_len : ∀ c ∈ s.ct, c.bits.length = c.len

/-! ### The arithmetic coder as relations

Each relation has at most one result for its arguments. `r` is `R = 2^K` and `t` the total; arithmetic is on integers and
division is floor division (`00_scope.md` R9). -/

/-- `EncRenorm` run to its end, with no bound on the output (`44_arithmetic_encoder_interval_renorm.md` R180 to R185):
`c'` is what `c` becomes when E1, else E2, else E3 is applied until none of the three conditions holds. -/
inductive EncRenorms (r : Int) : Encoder → Encoder → Prop where
  | done {c : Encoder} : c.l < r / 2 → r / 2 ≤ c.u → ¬ (r / 4 ≤ c.l ∧ c.u < 3 * r / 4) → EncRenorms r c c
  | e1 {c c' : Encoder} : r / 2 ≤ c.l →
      EncRenorms r ⟨2 * c.l - r, 2 * c.u - r + 1, 0, c.out ++ true :: List.replicate c.m false⟩ c' →
      EncRenorms r c c'
  | e2 {c c' : Encoder} : c.l < r / 2 → c.u < r / 2 →
      EncRenorms r ⟨2 * c.l, 2 * c.u + 1, 0, c.out ++ false :: List.replicate c.m true⟩ c' →
      EncRenorms r c c'
  | e3 {c c' : Encoder} : c.l < r / 2 → r / 2 ≤ c.u → r / 4 ≤ c.l → c.u < 3 * r / 4 →
      EncRenorms r ⟨2 * c.l - r / 2, 2 * c.u - r / 2 + 1, c.m + 1, c.out⟩ c' → EncRenorms r c c'

/-- The loop of `44_arithmetic_encoder_interval_renorm.md` R175 over a message: look up the least index with the symbol
(R179), narrow with the old `l` and the old width (R178), renormalize. -/
inductive Encodes (im : List Interval) (t r : Int) : List Symbol → Encoder → Encoder → Prop where
  | nil {c : Encoder} : Encodes im t r [] c c
  | cons {x : Symbol} {xs : List Symbol} {e : Interval} {c c' c'' : Encoder} :
      (im.find? fun e => e.sym == x) = some e →
      EncRenorms r
        ⟨c.l + (c.u - c.l + 1) * e.low / t, c.l + (c.u - c.l + 1) * e.high / t - 1, c.m, c.out⟩ c' →
      Encodes im t r xs c' c'' → Encodes im t r (x :: xs) c c''

/-- The output with the termination bits (`44_arithmetic_encoder_interval_renorm.md` R186). -/
def flushedBits (r : Int) (c : Encoder) : BitString :=
  c.out ++ if r / 4 ≤ c.l then true :: List.replicate c.m false ++ [false] else false :: List.replicate c.m true ++ [true]

/-- The output of AEN on the message `xs` passes the capacity `w` while the symbol at index `pos` is encoded, or, at
`pos = len(xs)`, in the flush (`60_exceptions.md` R239 (d)). -/
def OutputOverflowsAt (im : List Interval) (t r : Int) (w : Nat) (xs : List Symbol) (pos : Nat) : Prop :=
  (∃ (pre post : List Symbol) (x : Symbol) (c c' : Encoder), xs = pre ++ x :: post ∧ pos = pre.length ∧
    Encodes im t r pre ⟨0, r - 1, 0, []⟩ c ∧ c.out.length ≤ w ∧ Encodes im t r [x] c c' ∧ w < c'.out.length) ∨
  (∃ c : Encoder, pos = xs.length ∧ Encodes im t r xs ⟨0, r - 1, 0, []⟩ c ∧ c.out.length ≤ w ∧
    w < (flushedBits r c).length)

/-- The stream bit at index `p` as a number, zeros past the end (`45_arithmetic_decoder_inverse_renorm.md` R202). -/
def streamBit (bits : BitString) (p : Nat) : Nat := if bits[p]? = some true then 1 else 0

/-- The first `k` bits of the stream, the earliest the most significant (`45_arithmetic_decoder_inverse_renorm.md`
R201). -/
def streamWindow (bits : BitString) (k : Nat) : Nat :=
  ((List.range k).map fun p => streamBit bits p * 2 ^ (k - 1 - p)).sum

/-- The decoder with its interval and window shifted once, after `off` is taken off
(`45_arithmetic_decoder_inverse_renorm.md` R206). -/
def shiftedBy (r : Int) (bits : BitString) (off : Int) (d : Decoder) : Decoder :=
  ⟨2 * (d.l - off), 2 * (d.u - off) + 1, (2 * (d.code - off) + streamBit bits d.pos) % r, d.pos + 1⟩

/-- `DecRenorm` run to its end (`45_arithmetic_decoder_inverse_renorm.md` R206). -/
inductive DecRenorms (r : Int) (bits : BitString) : Decoder → Decoder → Prop where
  | done {d : Decoder} : d.l < r / 2 → r / 2 ≤ d.u → ¬ (r / 4 ≤ d.l ∧ d.u < 3 * r / 4) → DecRenorms r bits d d
  | e1 {d d' : Decoder} : r / 2 ≤ d.l → DecRenorms r bits (shiftedBy r bits (r / 2) d) d' → DecRenorms r bits d d'
  | e2 {d d' : Decoder} : d.l < r / 2 → d.u < r / 2 → DecRenorms r bits (shiftedBy r bits 0 d) d' →
      DecRenorms r bits d d'
  | e3 {d d' : Decoder} : d.l < r / 2 → r / 2 ≤ d.u → r / 4 ≤ d.l → d.u < 3 * r / 4 →
      DecRenorms r bits (shiftedBy r bits (r / 4) d) d' → DecRenorms r bits d d'

/-- The loop of `45_arithmetic_decoder_inverse_renorm.md` R200 over a number of symbols: find the least index whose range
holds the value (R203, R204), narrow as the encoder does (R205), renormalize. -/
inductive Decodes (im : List Interval) (t r : Int) (bits : BitString) :
    Nat → Decoder → List Symbol → Decoder → Prop where
  | zero {d : Decoder} : Decodes im t r bits 0 d [] d
  | succ {n : Nat} {e : Interval} {d d' d'' : Decoder} {out : List Symbol} :
      (im.find? fun e =>
        decide ((e.low : Int) ≤ ((d.code - d.l + 1) * t - 1) / (d.u - d.l + 1) ∧
          ((d.code - d.l + 1) * t - 1) / (d.u - d.l + 1) < (e.high : Int))) = some e →
      DecRenorms r bits
        ⟨d.l + (d.u - d.l + 1) * e.low / t, d.l + (d.u - d.l + 1) * e.high / t - 1, d.code, d.pos⟩ d' →
      Decodes im t r bits n d' out d'' → Decodes im t r bits (n + 1) d (e.sym :: out) d''

/-! ### Runs -/

/-- The machine has not stopped: the outcome is no fault of the model. The spec's own faults are next states
(`60_exceptions.md` R230). -/
def NotStopped (o : Host.Outcome State Fault Refusal) : Prop :=
  match o with
  | .fault _ => False
  | _ => True

end Sys2Proof.Machine
end

