-- ==== Sys2Proof/Certificates/Slice0/Obligations.lean ====
section
/-! DEFINITION. The statements for the provers. Each docstring names the rule of `spec/` it takes up. -/

open Sys2Proof Sys2Proof.Machine

/-! ### Decoding -/

/-- `30_encoding.md` R94: `Decode` answers, for each of the 256 values, the command of R91 or that it is illegal. -/
def Obligations.DecodeSelectsExactlyTheTenCommands : Prop :=
  ∀ c : CmdWord, (decode c).toOption =
    if c = 0x01#8 then some .bht else if c = 0x02#8 then some .hct else if c = 0x03#8 then some .hen
    else if c = 0x04#8 then some .hde else if c = 0x05#8 then some .bim else if c = 0x06#8 then some .aen
    else if c = 0x07#8 then some .ade else if c = 0x08#8 then some .clrft else if c = 0x09#8 then some .clrsym
    else if c = 0x0A#8 then some .clrbit else none

/-- `30_encoding.md` R91, R94: decoding inverts encoding, and each command has one word. -/
def Obligations.DecodeInvertsEncode : Prop :=
  (∀ i : Instr, decode (encode i) = .ok i) ∧ ∀ (c : CmdWord) (i : Instr), decode c = .ok i → encode i = c

/-- `20_memory.md` R63, `10_state.md` R35: the step whose action writes CMD runs the decoded command. Around `exec` the
step takes the action off the pending ones and stores `v[7:0]` in CMD. -/
def Obligations.StepRunsTheDecodedCommand : Prop :=
  ∀ (s : State) (rest : List HostAction) (v : Nat) (i : Instr), decode (BitVec.ofNat 8 v) = .ok i →
    step { s with pending := .writeReg 0 v :: rest } = exec i { s with pending := rest, cmd := BitVec.ofNat 8 v }

/-- `60_exceptions.md` R237: a CMD value that selects no command. -/
def Obligations.IllegalCommandChangesOnlyTheReport : Prop :=
  ∀ (s : State) (rest : List HostAction) (v : Nat), (v % 256 = 0 ∨ 0x0B ≤ v % 256) →
    step { s with pending := .writeReg 0 v :: rest } =
      .next { s with
        pending := rest, cmd := BitVec.ofNat 8 v
        status := faultStatus s.status 0xF0FF#16 .illegalCommand, errpos := v % 256, errsym := 0 }

/-! ### Host actions -/

/-- `20_memory.md` R63: K takes `v[7:0]`, N takes `v[31:0]`, and nothing else changes. -/
def Obligations.WritesToKAndNChangeNothingElse : Prop :=
  ∀ (s : State) (rest : List HostAction) (v : Nat),
    step { s with pending := .writeReg 4 v :: rest } = .next { s with pending := rest, k := BitVec.ofNat 8 v } ∧
    step { s with pending := .writeReg 5 v :: rest } = .next { s with pending := rest, n := BitVec.ofNat 32 v }

/-- `20_memory.md` R64, with Invalidate of R78 written out: the push to FT appends the entry, or drops it and sets
FT_OVF, and discards the derived structures in both cases; through the port and as MemWrite. -/
def Obligations.FtPushAppendsOrDropsAndInvalidates : Prop :=
  ∀ (s : State) (rest : List HostAction) (v sym count : Nat),
    (v % 2 ^ s.params.symBits = sym ∧ v / 2 ^ s.params.symBits % 2 ^ s.params.cntBits = count →
      step { s with pending := .writeReg 23 v :: rest } =
        .next { s with
          pending := rest
          ft := if s.ft.length < s.params.maxSyms then s.ft ++ [⟨sym, count⟩] else s.ft
          tn := [], root := 0, ct := [], im := [], t := 0
          status := if s.ft.length < s.params.maxSyms then s.status &&& 0xFFF8#16
            else (s.status ||| 0x0008#16) &&& 0xFFF8#16 }) ∧
    (sym < 2 ^ s.params.symBits → count < 2 ^ s.params.cntBits →
      step { s with pending := .memWrite .ft (.freq ⟨sym, count⟩) :: rest } =
        .next { s with
          pending := rest
          ft := if s.ft.length < s.params.maxSyms then s.ft ++ [⟨sym, count⟩] else s.ft
          tn := [], root := 0, ct := [], im := [], t := 0
          status := if s.ft.length < s.params.maxSyms then s.status &&& 0xFFF8#16
            else (s.status ||| 0x0008#16) &&& 0xFFF8#16 })

/-- `20_memory.md` R65: the push to SYM_IN, through the port and as MemWrite. -/
def Obligations.SymPushAppendsOrDrops : Prop :=
  ∀ (s : State) (rest : List HostAction) (v : Nat),
    step { s with pending := .writeReg 24 v :: rest } =
      (if s.symIn.length < s.params.maxN then
        .next { s with pending := rest, symIn := s.symIn ++ [v % 2 ^ s.params.symBits] }
      else .next { s with pending := rest, status := s.status ||| 0x0010#16 }) ∧
    (v < 2 ^ s.params.symBits →
      step { s with pending := .memWrite .symIn (.symbol v) :: rest } =
        if s.symIn.length < s.params.maxN then .next { s with pending := rest, symIn := s.symIn ++ [v] }
        else .next { s with pending := rest, status := s.status ||| 0x0010#16 })

/-- `20_memory.md` R66: the push to BIT_IN, through the port and as MemWrite. -/
def Obligations.BitPushAppendsOrDrops : Prop :=
  ∀ (s : State) (rest : List HostAction) (v : Nat) (b : Bit), (v % 2 = if b then 1 else 0) →
    ∀ a ∈ [HostAction.writeReg 25 v, HostAction.memWrite .bitIn (.bit b)],
      step { s with pending := a :: rest } =
        if s.bitIn.length < s.params.maxBits then .next { s with pending := rest, bitIn := s.bitIn ++ [b] }
        else .next { s with pending := rest, status := s.status ||| 0x0020#16 }

/-- `20_memory.md` R67: registers 0 to 22 return their present value, the length registers the present length, and the
read changes nothing of the block; every other number is refused. -/
def Obligations.RegisterReadsReturnTheValueAndChangeNothing : Prop :=
  ∀ (s : State) (rest : List HostAction) (no : Nat),
    (no ≤ 22 →
      step { s with pending := .readReg no :: rest } =
        .next { s with
          pending := rest
          reply := some (.value ([s.cmd.toNat, s.status.toNat, s.errpos, s.errsym, s.k.toNat, s.n.toNat, s.t, s.root,
            s.l, s.u, s.m, s.code, s.node, s.bitpos, s.sympos, s.ft.length, s.tn.length, s.ct.length, s.im.length,
            s.symIn.length, s.symOut.length, s.bitIn.length, s.bitOut.length].getD no 0)) }) ∧
    (22 < no → ∃ r, step { s with pending := .readReg no :: rest } = .refused r)

/-- `20_memory.md` R68: a MemRead returns the whole entry, changes nothing of the block, and is refused past the end. -/
def Obligations.MemReadReturnsTheWholeEntry : Prop :=
  ∀ (s : State) (rest : List HostAction) (space : Space) (i : Nat),
    step { s with pending := .memRead space i :: rest } =
      match (entriesOf s space)[i]? with
      | some e => .next { s with pending := rest, reply := some (.entry e) }
      | none => .refused (.readPastEnd space i)

/-- `20_memory.md` R69: each refused access is refused, whatever the state. -/
def Obligations.AccessesOfRule69AreRefused : Prop :=
  ∀ (s : State) (rest : List HostAction),
    (∀ no v, (1 ≤ no ∧ no ≤ 3) ∨ (6 ≤ no ∧ no ≤ 22) →
      step { s with pending := .writeReg no v :: rest } = .refused (.writeReadOnly no)) ∧
    (∀ no, 23 ≤ no → no ≤ 25 → step { s with pending := .readReg no :: rest } = .refused (.readPort no)) ∧
    (∀ no v, 25 < no →
      step { s with pending := .writeReg no v :: rest } = .refused (.noSuchRegister no) ∧
      step { s with pending := .readReg no :: rest } = .refused (.noSuchRegister no)) ∧
    (∀ space i, (entriesOf s space).length ≤ i →
      step { s with pending := .memRead space i :: rest } = .refused (.readPastEnd space i)) ∧
    (∀ space ∈ [Space.tn, .ct, .im, .symOut, .bitOut], ∀ e,
      step { s with pending := .memWrite space e :: rest } = .refused (.noWritePort space))

/-- `20_memory.md` R62, R69: an action that is not well formed is refused, and a well-formed one, but for a MemRead past
the end, is not: the block answers every host action that the spec gives the host. -/
def Obligations.RefusedExactlyWhenNotWellFormed : Prop :=
  ∀ (s : State) (rest : List HostAction) (a : HostAction),
    (a.wf s.params = false → ∃ r, step { s with pending := a :: rest } = .refused r) ∧
    (a.wf s.params = true → (∀ space i, a = .memRead space i → i < (entriesOf s space).length) →
      ∀ r, step { s with pending := a :: rest } ≠ .refused r)

/-- `10_state.md` R50, `70_reset_and_hazards.md` R260: a reset empties every buffer and puts 0 in every register. That the
parameters, the actions still pending and the last reply stay is the model's choice (log entries 1 to 3). -/
def Obligations.ResetActionZeroesTheBlock : Prop :=
  ∀ (s : State) (rest : List HostAction),
    step { s with pending := .reset :: rest } =
      .next {
        params := s.params, pending := rest, reply := s.reply
        cmd := 0, status := 0, errpos := 0, errsym := 0, k := 0, n := 0, t := 0, root := 0, l := 0, u := 0, m := 0
        code := 0, node := 0, bitpos := 0, sympos := 0
        ft := [], tn := [], ct := [], im := [], symIn := [], symOut := [], bitIn := [], bitOut := [] }

/-- `10_state.md` R50: the state after reset, every buffer empty, every register and every length register 0. -/
def Obligations.ResetStateIsAllZeroAndEmpty : Prop :=
  (∀ (r : Reg) (v : Nat), State.reset.regValue r = some v → v = 0) ∧
  (∀ space : Space, entriesOf State.reset space = []) ∧ ∀ f : Flag, State.reset.flag f = false

/-- `00_scope.md` R16, R17: with no action pending the block is idle; a run has no terminal state. -/
def Obligations.IdleWithoutPendingActions : Prop :=
  ∀ s : State, s.pending = [] → step s = .next s

/-! ### BHT -/

/-- `40_huffman_tree_builder.md` R110, R113, R115: BHT on a well-formed table completes with the tree of
`10_state.md` R26, ROOT its root, TREE_V set, CT discarded, and nothing else changed. -/
def Obligations.BhtBuildsTheTreeOfAWellFormedTable : Prop :=
  ∀ s : State, s.flag .ftOvf = false → FtWellFormed s.ft →
    ∃ tn root, TreeInv s.ft tn root ∧
      exec .bht s = .next { s with
        tn := tn, root := root, ct := []
        status := (s.status ||| 0x0001#16) &&& 0xF0FD#16, errpos := 0, errsym := 0 }

/-- `40_huffman_tree_builder.md` R111, R112: every merge of a successful BHT takes the two available nodes of least key
`(freq, index)`, the least as the left child. -/
def Obligations.BhtMergesTheTwoLeastKeys : Prop :=
  ∀ s t : State, s.flag .ftOvf = false → FtWellFormed s.ft → exec .bht s = .next t → MergedGreedily s.ft t.tn

/-- `10_state.md` R23, `60_exceptions.md` R232: BHT and BIM report the first offending entry of the table in index order,
and position 0 with symbol 0 for an empty table. -/
def Obligations.TableFaultsReportTheFirstOffendingEntry : Prop :=
  ∀ s : State, s.flag .ftOvf = false →
    (s.ft = [] →
      exec .bht s = .next (faultOutcome .bht .invalidInput 0 0 s) ∧
      exec .bim s = .next (faultOutcome .bim .invalidInput 0 0 s)) ∧
    (∀ (i : Nat) (e : FtEntry), s.ft[i]? = some e → offends s.ft i = true → (∀ j < i, offends s.ft j = false) →
      exec .bht s = .next (faultOutcome .bht .invalidInput i e.sym s) ∧
      exec .bim s = .next (faultOutcome .bim .invalidInput i e.sym s))

/-! ### HCT and HEN -/

/-- `41_huffman_code_table_encoder.md` R130, R131, R132: HCT on a valid tree completes; each leaf's entry has its symbol
and its path from the root, or the one bit `0` in a tree of one leaf. -/
def Obligations.HctGivesEachLeafItsPath : Prop :=
  ∀ s : State, Inv s → s.flag .treeV = true →
    ∃ ct, CodeInv s.ft s.tn s.root ct ∧
      exec .hct s = .next { s with
        ct := ct, status := (s.status ||| 0x0002#16) &&& 0xF0FF#16, errpos := 0, errsym := 0 }

/-- `41_huffman_code_table_encoder.md` R133 (a), (b), (d): in a valid code table no code is empty, no code is a prefix of
another entry's, and symbols are distinct. -/
def Obligations.ValidCodesArePrefixFree : Prop :=
  ∀ s : State, Inv s → s.flag .ctV = true →
    (∀ c ∈ s.ct, c.bits ≠ []) ∧
    ∀ (i j : Nat) (a b : CodeEntry), s.ct[i]? = some a → s.ct[j]? = some b → i ≠ j →
      ¬ a.bits <+: b.bits ∧ a.sym ≠ b.sym

/-- `41_huffman_code_table_encoder.md` R133 (c): with two or more symbols every infinite bit sequence `bs` has exactly one
code as a prefix, and the Kraft sum is 1, here times `2^CODE_LEN_MAX`; with one symbol the string `1` is no code. -/
def Obligations.CodesAreComplete : Prop :=
  ∀ s : State, Inv s → s.flag .ctV = true →
    (2 ≤ s.ft.length →
      (∀ bs : Nat → Bit, ∃! c : CodeEntry, c ∈ s.ct ∧ c.bits = (List.range c.bits.length).map bs) ∧
      (s.ct.map fun c => 2 ^ (s.params.codeLenMax - c.len)).sum = 2 ^ s.params.codeLenMax) ∧
    (s.ft.length = 1 → ∀ c ∈ s.ct, c.bits ≠ [true])

/-- `41_huffman_code_table_encoder.md` R134: a code of a table of n symbols has at most n - 1 bits, and one bit when
n = 1, so it never passes CODE_LEN_MAX. -/
def Obligations.CodeLengthsAreBounded : Prop :=
  ∀ s : State, Inv s → s.flag .ctV = true → ∀ c ∈ s.ct,
    c.len = c.bits.length ∧ (s.ft.length = 1 → c.len = 1) ∧ (2 ≤ s.ft.length → c.len ≤ s.ft.length - 1) ∧
    1 ≤ c.len ∧ c.len ≤ s.params.codeLenMax

/-- `40_huffman_tree_builder.md` R116: the total encoded length of the codes that BHT and HCT give is minimal among the
binary prefix codes for the table, `cs` being any such code. -/
def Obligations.HuffmanCodesAreOptimal : Prop :=
  ∀ (s t u : State) (cs : List BitString), exec .bht s = .next t → t.err = ErrCode.success.code →
    exec .hct t = .next u → 2 ≤ s.ft.length → cs.length = s.ft.length →
    (∀ (i j : Nat) (a b : BitString), cs[i]? = some a → cs[j]? = some b → i ≠ j → ¬ a <+: b) →
    (List.zipWith (fun e c => e.count * c.len) s.ft u.ct).sum ≤
      (List.zipWith (fun e bits => e.count * bits.length) s.ft cs).sum

/-- `41_huffman_code_table_encoder.md` R135, R136, R137: HEN completes when every symbol has a code and the codes fit in
BIT_OUT; BIT_OUT is their concatenation in order. `cs` lists the entries found, of least index each. -/
def Obligations.HenConcatenatesTheCodes : Prop :=
  ∀ (s : State) (cs : List CodeEntry), s.flag .ctV = true → s.flag .symOvf = false →
    (∀ c ∈ s.ct, c.len = c.bits.length) →
    s.symIn.map (fun x => s.ct.find? fun e => e.sym == x) = cs.map some →
    (cs.map CodeEntry.len).sum ≤ s.params.maxBits →
    exec .hen s = .next { s with
      bitOut := cs.flatMap CodeEntry.bits
      sympos := s.symIn.length, bitpos := (cs.map CodeEntry.len).sum
      status := s.status &&& 0xF0FF#16, errpos := 0, errsym := 0 }

/-- `41_huffman_code_table_encoder.md` R135, `60_exceptions.md` R235, R239 (d): after symbols `xs` whose codes fit, a
symbol without an entry is UnknownSymbol, and one whose code does not fit is CapacityExceeded, each at its index. -/
def Obligations.HenFaultsAtTheFirstBadSymbol : Prop :=
  ∀ (s : State) (xs ys : List Symbol) (x : Symbol) (cs : List CodeEntry),
    s.flag .ctV = true → s.flag .symOvf = false → (∀ c ∈ s.ct, c.len = c.bits.length) →
    s.symIn = xs ++ x :: ys → xs.map (fun y => s.ct.find? fun e => e.sym == y) = cs.map some →
    (cs.map CodeEntry.len).sum ≤ s.params.maxBits →
    ((∀ e ∈ s.ct, e.sym ≠ x) →
      exec .hen s = .next (faultOutcome .hen .unknownSymbol xs.length x s)) ∧
    (∀ c, (s.ct.find? fun e => e.sym == x) = some c → s.params.maxBits < (cs.map CodeEntry.len).sum + c.len →
      exec .hen s = .next (faultOutcome .hen .capacityExceeded xs.length 0 s))

/-! ### HDE -/

/-- `42_huffman_decoder_fsm.md` R150, R151, R152: HDE on a concatenation of codes of the tree completes with their
symbols, NODE = ROOT, every bit consumed. `ct` is the code table of the tree; HDE needs no valid CT. -/
def Obligations.HdeDecodesConcatenatedCodes : Prop :=
  ∀ (s : State) (ct cs : List CodeEntry), Inv s → s.flag .treeV = true → s.flag .bitOvf = false →
    CodeInv s.ft s.tn s.root ct → (∀ c ∈ cs, c ∈ ct) → cs.length ≤ s.params.maxN → s.bitIn = cs.flatMap CodeEntry.bits →
    exec .hde s = .next { s with
      symOut := cs.map CodeEntry.sym, node := s.root, bitpos := s.bitIn.length, sympos := cs.length
      status := s.status &&& 0xF0FF#16, errpos := 0, errsym := 0 }

/-- `42_huffman_decoder_fsm.md` R153: a stream that ends inside a code, at internal node `v` below the root, is
MalformedStream at the position after the last bit. -/
def Obligations.HdeFaultsWhenTheStreamEndsMidCode : Prop :=
  ∀ (s : State) (ct cs : List CodeEntry) (p : BitString) (v : Nat),
    Inv s → s.flag .treeV = true → s.flag .bitOvf = false → CodeInv s.ft s.tn s.root ct →
    (∀ c ∈ cs, c ∈ ct) → cs.length ≤ s.params.maxN → p ≠ [] → follow s.tn s.root p = some v → s.ft.length ≤ v →
    s.bitIn = cs.flatMap CodeEntry.bits ++ p →
    exec .hde s = .next (faultOutcome .hde .malformedStream s.bitIn.length 0 s)

/-- `42_huffman_decoder_fsm.md` R152: on a tree of one leaf each bit `0` emits its symbol, and a bit `1` is
MalformedStream at its index. -/
def Obligations.HdeOnASingleLeaf : Prop :=
  ∀ (s : State) (e : FtEntry) (j : Nat), Inv s → s.flag .treeV = true → s.flag .bitOvf = false → s.ft = [e] →
    j ≤ s.params.maxN →
    (s.bitIn = List.replicate j false →
      exec .hde s = .next { s with
        symOut := List.replicate j e.sym, node := s.root, bitpos := j, sympos := j
        status := s.status &&& 0xF0FF#16, errpos := 0, errsym := 0 }) ∧
    (∀ bs, s.bitIn = List.replicate j false ++ true :: bs →
      exec .hde s = .next (faultOutcome .hde .malformedStream j 0 s))

/-- `60_exceptions.md` R239 (e): a symbol past the MAX_N that fit is CapacityExceeded at the last bit of its code. -/
def Obligations.HdeFaultsAtTheSymbolThatDoesNotFit : Prop :=
  ∀ (s : State) (ct cs : List CodeEntry) (c : CodeEntry) (bs : BitString), Inv s → s.flag .treeV = true →
    s.flag .bitOvf = false → CodeInv s.ft s.tn s.root ct → (∀ x ∈ cs, x ∈ ct) → c ∈ ct → cs.length = s.params.maxN →
    s.bitIn = cs.flatMap CodeEntry.bits ++ c.bits ++ bs →
    exec .hde s = .next
      (faultOutcome .hde .capacityExceeded ((cs.map CodeEntry.len).sum + c.len - 1) 0 s)

/-- `42_huffman_decoder_fsm.md` R155: decoding HEN's output with HDE on the same tree gives back the symbols, and the
positions of R43 and R44. The decoding block `d` holds that tree and HEN's bits. -/
def Obligations.HuffmanRoundTrip : Prop :=
  ∀ s s' d : State, Inv s → s.flag .ctV = true → exec .hen s = .next s' → s'.err = ErrCode.success.code →
    d.params = s.params → d.tn = s.tn → d.root = s.root → d.flag .treeV = true → d.flag .bitOvf = false →
    d.bitIn = s'.bitOut →
    ∃ d', exec .hde d = .next d' ∧ d'.symOut = s.symIn ∧ d'.err = ErrCode.success.code ∧
      d'.node = d.root ∧ d'.bitpos = s'.bitOut.length ∧ d'.sympos = s.symIn.length

/-- `42_huffman_decoder_fsm.md` R156: HDE then HEN, with the same tree and table, reproduces the bits. -/
def Obligations.HdeThenHenReproducesTheBits : Prop :=
  ∀ s s' h : State, Inv s → s.flag .ctV = true → exec .hde s = .next s' → s'.err = ErrCode.success.code →
    h.params = s.params → h.ct = s.ct → h.flag .ctV = true → h.flag .symOvf = false → h.symIn = s'.symOut →
    ∃ h', exec .hen h = .next h' ∧ h'.bitOut = s.bitIn ∧ h'.err = ErrCode.success.code

/-! ### BIM -/

/-- `43_interval_model.md` R165, R166: BIM on a well-formed table completes with the cumulative sums in FT order. -/
def Obligations.BimBuildsTheCumulativeIntervals : Prop :=
  ∀ s : State, s.flag .ftOvf = false → FtWellFormed s.ft →
    exec .bim s = .next { s with
      im := s.ft.mapIdx fun i e => ⟨e.sym, totalCount (s.ft.take i), totalCount (s.ft.take i) + e.count⟩
      t := totalCount s.ft
      status := (s.status ||| 0x0004#16) &&& 0xF0FF#16, errpos := 0, errsym := 0 }

/-- `43_interval_model.md` R167: the ranges of a valid Interval Model are non-empty, lie in [0, T), and partition it. -/
def Obligations.IntervalsPartitionTheTotal : Prop :=
  ∀ s : State, Inv s → s.flag .imV = true →
    (∀ e ∈ s.im, e.low < e.high ∧ e.high ≤ s.t) ∧
    (∀ v < s.t, ∃! i : Nat, ∃ e : Interval, s.im[i]? = some e ∧ e.low ≤ v ∧ v < e.high) ∧
    (∀ v, s.t ≤ v → ∀ e ∈ s.im, ¬ (e.low ≤ v ∧ v < e.high))

/-! ### AEN -/

/-- `44_arithmetic_encoder_interval_renorm.md` R175 to R190: AEN completes on any message whose symbols are in the model
when the output bound fits in BIT_OUT. BIT_OUT, L, U and M are what the rules compute: `Encodes` gives the interval, the
pending count and the bits `acc` that enter the flush. The final interval is in range and wider than a quarter of it,
and the output and the pending count keep their bounds. -/
def Obligations.AenCompletesWithinItsBounds : Prop :=
  ∀ s : State, Inv s → s.flag .imV = true → s.flag .symOvf = false →
    s.k.toNat ≤ s.params.kMax → 4 * s.t ≤ 2 ^ s.k.toNat →
    (∀ x ∈ s.symIn, ∃ e ∈ s.im, e.sym = x) → s.symIn.length * s.k.toNat + 2 ≤ s.params.maxBits →
    ∃ (l u m : Nat) (acc out : BitString),
      Encodes s.im s.t (2 ^ s.k.toNat) s.symIn ⟨0, 2 ^ s.k.toNat - 1, 0, []⟩ ⟨l, u, m, acc⟩ ∧
      out = flushedBits (2 ^ s.k.toNat) ⟨l, u, m, acc⟩ ∧
      exec .aen s = .next { s with
        bitOut := out, l := l, u := u, m := m, sympos := s.symIn.length, bitpos := out.length
        status := s.status &&& 0xF0FF#16, errpos := 0, errsym := 0 } ∧
      out.length ≤ s.symIn.length * s.k.toNat + 2 ∧ m + 2 ≤ out.length ∧
      u < 2 ^ s.k.toNat ∧ l < 2 ^ s.k.toNat / 2 ∧ 2 ^ s.k.toNat / 2 ≤ u ∧ 2 ^ s.k.toNat / 4 + l + 1 ≤ u

/-- `44_arithmetic_encoder_interval_renorm.md` R193: the empty message. `1 ≤ s.t` is R168 for a valid model. -/
def Obligations.AenOnTheEmptyMessage : Prop :=
  ∀ s : State, s.flag .imV = true → s.flag .symOvf = false → s.k.toNat ≤ s.params.kMax → 1 ≤ s.t →
    4 * s.t ≤ 2 ^ s.k.toNat → s.symIn = [] → 2 ≤ s.params.maxBits →
    exec .aen s = .next { s with
      bitOut := [false, true], l := 0, u := 2 ^ s.k.toNat - 1, m := 0, sympos := 0, bitpos := 2
      status := s.status &&& 0xF0FF#16, errpos := 0, errsym := 0 }

/-- `44_arithmetic_encoder_interval_renorm.md` R175, R179, `60_exceptions.md` R235: after symbols `xs` that are in the
model and whose bits fit, a symbol without an interval is UnknownSymbol at its index. -/
def Obligations.AenFaultsAtTheFirstUnknownSymbol : Prop :=
  ∀ (s : State) (xs ys : List Symbol) (x : Symbol), Inv s → s.flag .imV = true → s.flag .symOvf = false →
    s.k.toNat ≤ s.params.kMax → 4 * s.t ≤ 2 ^ s.k.toNat → s.symIn = xs ++ x :: ys →
    (∀ y ∈ xs, ∃ e ∈ s.im, e.sym = y) → (∀ e ∈ s.im, e.sym ≠ x) →
    (∀ c, Encodes s.im s.t (2 ^ s.k.toNat) xs ⟨0, 2 ^ s.k.toNat - 1, 0, []⟩ c → c.out.length ≤ s.params.maxBits) →
    exec .aen s = .next (faultOutcome .aen .unknownSymbol xs.length x s)

/-- `60_exceptions.md` R239 (d), R240 (8), (9): when its output passes MAX_BITS, AEN reports CapacityExceeded at the
index of the symbol being encoded, or at `len(SYM_IN)` in the flush. A result that fits does not depend on MAX_BITS; `w`
is the capacity in place of `s`'s. -/
def Obligations.AenFaultsWhenItsOutputDoesNotFit : Prop :=
  (∀ (s : State) (pos : Nat), Inv s → s.flag .imV = true → s.flag .symOvf = false →
    s.k.toNat ≤ s.params.kMax → 4 * s.t ≤ 2 ^ s.k.toNat →
    OutputOverflowsAt s.im s.t (2 ^ s.k.toNat) s.params.maxBits s.symIn pos →
    exec .aen s = .next (faultOutcome .aen .capacityExceeded pos 0 s)) ∧
  ∀ (s t : State) (w : Nat), exec .aen s = .next t → t.err = ErrCode.success.code →
    (t.bitOut.length ≤ w →
      exec .aen { s with params := { s.params with maxBits := w } } =
        .next { t with params := { s.params with maxBits := w } }) ∧
    (w < t.bitOut.length → ∃ pos ≤ s.symIn.length,
      OutputOverflowsAt s.im s.t (2 ^ s.k.toNat) w s.symIn pos ∧
      exec .aen { s with params := { s.params with maxBits := w } } =
        .next (faultOutcome .aen .capacityExceeded pos 0 { s with params := { s.params with maxBits := w } }))

/-! ### ADE -/

/-- `45_arithmetic_decoder_inverse_renorm.md` R200 to R209: with a valid model ADE decodes every bit sequence to N symbols
of the model, without a fault. SYM_OUT, L, U, CODE and BITPOS are what the rules compute, by `Decodes` from the window of
R201; the window stays inside the interval and BITPOS within its bound. -/
def Obligations.AdeDecodesEveryStream : Prop :=
  ∀ s : State, Inv s → s.flag .imV = true → s.flag .bitOvf = false →
    s.k.toNat ≤ s.params.kMax → s.n.toNat ≤ s.params.maxN → 4 * s.t ≤ 2 ^ s.k.toNat →
    ∃ (out : List Symbol) (l u code pos : Nat),
      Decodes s.im s.t (2 ^ s.k.toNat) s.bitIn s.n.toNat
        ⟨0, 2 ^ s.k.toNat - 1, streamWindow s.bitIn s.k.toNat, s.k.toNat⟩ out ⟨l, u, code, pos⟩ ∧
      exec .ade s = .next { s with
        symOut := out, l := l, u := u, m := 0, code := code, bitpos := pos, sympos := s.n.toNat
        status := s.status &&& 0xF0FF#16, errpos := 0, errsym := 0 } ∧
      out.length = s.n.toNat ∧ (∀ x ∈ out, ∃ e ∈ s.im, e.sym = x) ∧
      l ≤ code ∧ code ≤ u ∧ u < 2 ^ s.k.toNat ∧ s.k.toNat ≤ pos ∧ pos ≤ s.k.toNat + s.n.toNat * s.k.toNat

/-- `45_arithmetic_decoder_inverse_renorm.md` R201, R202, R207: with N = 0 the window is the first K bits of the stream,
the first the most significant, zeros past its end. -/
def Obligations.AdeWithNoSymbolsShowsTheWindow : Prop :=
  ∀ s : State, s.flag .imV = true → s.flag .bitOvf = false → s.k.toNat ≤ s.params.kMax → s.n = 0 →
    4 * s.t ≤ 2 ^ s.k.toNat →
    exec .ade s = .next { s with
      symOut := [], l := 0, u := 2 ^ s.k.toNat - 1, m := 0
      code := ((List.range s.k.toNat).map fun p =>
        if s.bitIn[p]? = some true then 2 ^ (s.k.toNat - 1 - p) else 0).sum
      bitpos := s.k.toNat, sympos := 0
      status := s.status &&& 0xF0FF#16, errpos := 0, errsym := 0 }

/-- `45_arithmetic_decoder_inverse_renorm.md` R202: zeros appended to the stream change nothing else of ADE's outcome. -/
def Obligations.AdeReadsZerosPastTheEnd : Prop :=
  ∀ (s t : State) (j : Nat), exec .ade s = .next t →
    exec .ade { s with bitIn := s.bitIn ++ List.replicate j false } =
      .next { t with bitIn := s.bitIn ++ List.replicate j false }

/-- `45_arithmetic_decoder_inverse_renorm.md` R207: a smaller N decodes, without a fault, to a prefix of the message. -/
def Obligations.AdeWithSmallerNGivesAPrefix : Prop :=
  ∀ (s t : State) (n' : BitVec 32), exec .ade s = .next t → t.err = ErrCode.success.code → n'.toNat ≤ s.n.toNat →
    ∃ t', exec .ade { s with n := n' } = .next t' ∧ t'.err = ErrCode.success.code ∧ t'.symOut <+: t.symOut

/-- `45_arithmetic_decoder_inverse_renorm.md` R210: decoding AEN's output with ADE, the same model, precision and length,
gives back the symbols, whatever bits follow it (`44_arithmetic_encoder_interval_renorm.md` R187), through the same
intervals (R205) and as many shifts (R190, `10_state.md` R43). The decoding block `d` holds that model and AEN's bits. -/
def Obligations.ArithmeticRoundTrip : Prop :=
  ∀ (s s' d : State) (tail : BitString), Inv s → s.flag .imV = true →
    exec .aen s = .next s' → s'.err = ErrCode.success.code →
    d.params = s.params → d.im = s.im → d.t = s.t → d.k = s.k → d.n.toNat = s.symIn.length →
    d.flag .imV = true → d.flag .bitOvf = false → d.bitIn = s'.bitOut ++ tail →
    ∃ d', exec .ade d = .next d' ∧ d'.symOut = s.symIn ∧ d'.err = ErrCode.success.code ∧
      d'.l = s'.l ∧ d'.u = s'.u ∧ d'.bitpos + 2 = d.k.toNat + s'.bitOut.length

/-! ### Buffer commands -/

/-- `46_buffer_commands.md` R220. -/
def Obligations.ClrftEmptiesTheTableAndInvalidates : Prop :=
  ∀ s : State, exec .clrft s = .next { s with
    ft := [], tn := [], root := 0, ct := [], im := [], t := 0
    status := s.status &&& 0xF0F0#16, errpos := 0, errsym := 0 }

/-- `46_buffer_commands.md` R221. -/
def Obligations.ClrsymEmptiesTheSymbols : Prop :=
  ∀ s : State, exec .clrsym s = .next { s with
    symIn := [], status := s.status &&& 0xF0EF#16, errpos := 0, errsym := 0 }

/-- `46_buffer_commands.md` R222. -/
def Obligations.ClrbitEmptiesTheBits : Prop :=
  ∀ s : State, exec .clrbit s = .next { s with
    bitIn := [], status := s.status &&& 0xF0DF#16, errpos := 0, errsym := 0 }

/-! ### Faults and frames -/

/-- `60_exceptions.md` R238: a missing structure is NotReady, before anything else is tested. -/
def Obligations.MissingStructureIsNotReady : Prop :=
  ∀ s : State,
    (s.flag .treeV = false →
      exec .hct s = .next (faultOutcome .hct .notReady 0 0 s) ∧ exec .hde s = .next (faultOutcome .hde .notReady 0 0 s)) ∧
    (s.flag .ctV = false → exec .hen s = .next (faultOutcome .hen .notReady 0 0 s)) ∧
    (s.flag .imV = false →
      exec .aen s = .next (faultOutcome .aen .notReady 0 0 s) ∧ exec .ade s = .next (faultOutcome .ade .notReady 0 0 s))

/-- `60_exceptions.md` R239 (a), R240: a dropped push makes each command that reads the buffer fault, after NotReady and
before any other test. -/
def Obligations.DroppedPushIsCapacityExceeded : Prop :=
  ∀ s : State,
    (s.flag .ftOvf = true →
      exec .bht s = .next (faultOutcome .bht .capacityExceeded 0 0 s) ∧
      exec .bim s = .next (faultOutcome .bim .capacityExceeded 0 0 s)) ∧
    (s.flag .symOvf = true →
      (s.flag .ctV = true → exec .hen s = .next (faultOutcome .hen .capacityExceeded 0 0 s)) ∧
      (s.flag .imV = true → exec .aen s = .next (faultOutcome .aen .capacityExceeded 0 0 s))) ∧
    (s.flag .bitOvf = true →
      (s.flag .treeV = true → exec .hde s = .next (faultOutcome .hde .capacityExceeded 0 0 s)) ∧
      (s.flag .imV = true → exec .ade s = .next (faultOutcome .ade .capacityExceeded 0 0 s)))

/-- `60_exceptions.md` R234, R239 (b), (c), R240: the limits on K and N of AEN and ADE and the precision test, in the
order of R240. -/
def Obligations.PrecisionAndLengthLimits : Prop :=
  ∀ s : State, s.flag .imV = true →
    (s.flag .symOvf = false →
      (s.params.kMax < s.k.toNat → exec .aen s = .next (faultOutcome .aen .capacityExceeded s.k.toNat 0 s)) ∧
      (s.k.toNat ≤ s.params.kMax → 2 ^ s.k.toNat < 4 * s.t →
        exec .aen s = .next (faultOutcome .aen .precisionTooLow s.k.toNat 0 s))) ∧
    (s.flag .bitOvf = false →
      (s.params.kMax < s.k.toNat → exec .ade s = .next (faultOutcome .ade .capacityExceeded s.k.toNat 0 s)) ∧
      (s.k.toNat ≤ s.params.kMax → s.params.maxN < s.n.toNat →
        exec .ade s = .next (faultOutcome .ade .capacityExceeded s.n.toNat 0 s)) ∧
      (s.k.toNat ≤ s.params.kMax → s.n.toNat ≤ s.params.maxN → 2 ^ s.k.toNat < 4 * s.t →
        exec .ade s = .next (faultOutcome .ade .precisionTooLow s.k.toNat 0 s)))

/-- `60_exceptions.md` R231, R236: a command that reports a fault reports one that R231 gives it and leaves exactly the
state of R236's table, whatever its loop had done. -/
def Obligations.FaultsLeaveTheTableOfRule236 : Prop :=
  ∀ (i : Instr) (s t : State), exec i s = .next t → t.err ≠ ErrCode.success.code →
    ∃ (e : ErrCode) (pos : Nat) (sym : Symbol), e ∈ mayRaise i ∧ t = faultOutcome i e pos sym s

/-- `60_exceptions.md` R236, R241 and the write-sets of the command rules: a command changes nothing outside its
write-set, faulting or not, and a success reports position 0 and symbol 0. -/
def Obligations.CommandsWriteOnlyTheirWriteSet : Prop :=
  ∀ (i : Instr) (s t : State), exec i s = .next t →
    WritesOnly i s t ∧ (t.err = ErrCode.success.code → t.errpos = 0 ∧ t.errsym = 0)

/-- `20_memory.md` R73: repeating a command at once gives the same state again. -/
def Obligations.CommandsAreIdempotent : Prop :=
  ∀ (i : Instr) (s t : State), exec i s = .next t → exec i t = .next t

/-! ### Invariants of every step -/

/-- `10_state.md` R36, `60_exceptions.md` R231, R241: the report stays well formed, from every state. -/
def Obligations.StepKeepsTheReportWellFormed : Prop :=
  ∀ s t : State, ReportInv s → step s = .next t → ReportInv t

/-- `10_state.md` R51 (a), `20_memory.md` R60: no step takes a buffer past its capacity. -/
def Obligations.StepKeepsCapacities : Prop :=
  ∀ s t : State, CapacityInv s → step s = .next t → CapacityInv t

/-- `10_state.md` R51: every step keeps the global invariant. -/
def Obligations.StepKeepsTheGlobalInvariant : Prop :=
  ∀ s t : State, Inv s → step s = .next t → Inv t

/-- `10_state.md` R34, `00_scope.md` R7: every register and every field stays within its width, for tables small enough
that an FT index fits ERRPOS (log entry 8). -/
def Obligations.StepKeepsTheWidths : Prop :=
  ∀ s t : State, Inv s → WidthsFit s → s.params.maxSyms ≤ 2 ^ 32 → step s = .next t → WidthsFit t

/-- `10_state.md` R50, R51: the invariants hold after reset, whatever the parameters. -/
def Obligations.ResetMeetsTheInvariants : Prop :=
  (∀ p : Params, p.wf = true →
    Inv (State.resetWith p) ∧ ReportInv (State.resetWith p) ∧ CapacityInv (State.resetWith p) ∧
      WidthsFit (State.resetWith p)) ∧
  Inv State.reset

/-- `70_reset_and_hazards.md` R272, `00_scope.md` R16: from every state that meets the invariant the machine does not
stop; every command terminates. -/
def Obligations.InvariantStatesNeverStop : Prop :=
  ∀ s : State, Inv s → NotStopped (step s)

/-! ### Host scripts -/

/-- `30_encoding.md` R98: `LOADFT` leaves FT equal to the entries in the order written, when they fit. -/
def Obligations.LoadftFillsTheTableInOrder : Prop :=
  ∀ (s : State) (es : List (Nat × Nat)), es.length ≤ s.params.maxSyms →
    (∀ e ∈ es, e.1 < 2 ^ s.params.symBits ∧ e.2 < 2 ^ s.params.cntBits) →
    runScript [.loadFt es] s = .next { s with
      cmd := 0x08#8, ft := es.map fun e => ⟨e.1, e.2⟩, tn := [], root := 0, ct := [], im := [], t := 0
      status := s.status &&& 0xF0F0#16, errpos := 0, errsym := 0 }

/-- `30_encoding.md` R98, `20_memory.md` R61: `COPYBITS` carries BIT_OUT to BIT_IN bit by bit and leaves BIT_OUT. -/
def Obligations.CopybitsCarriesBitOutToBitIn : Prop :=
  ∀ s : State, s.bitOut.length ≤ s.params.maxBits →
    ∃ reply, runScript [.copyBits] s = .next { s with
      reply := reply, cmd := 0x0A#8, bitIn := s.bitOut
      status := s.status &&& 0xF0DF#16, errpos := 0, errsym := 0 }
end

