-- ==== Sys2Proof/Laws/Flags.lean ====
section
/-! SUPPORT. What the accessors of STATUS do: each field is read back as it was written, and no write of one field
changes another. -/

namespace Sys2Proof.Machine

/-! ### Reading a field after writing one -/

@[simp] theorem getFlag_putFlag (w : StatusWord) (f g : Flag) (b : Bool) :
    getFlag (putFlag w f b) g = if g = f then b else getFlag w g := by
  cases f <;> cases g <;> cases b <;> simp [getFlag, putFlag, Flag.bitNo]

@[simp] theorem getFlag_putErr (w : StatusWord) (e : BitVec 4) (f : Flag) :
    getFlag (putErr w e) f = getFlag w f := by
  cases f <;> simp [getFlag, putErr, Flag.bitNo]

@[simp] theorem getErr_putErr (w : StatusWord) (e : BitVec 4) : getErr (putErr w e) = e := by
  apply BitVec.eq_of_getLsbD_eq
  intro i hi
  interval_cases i <;> simp [getErr, putErr]

@[simp] theorem getErr_putFlag (w : StatusWord) (f : Flag) (b : Bool) : getErr (putFlag w f b) = getErr w := by
  apply BitVec.eq_of_getLsbD_eq
  intro i hi
  interval_cases i <;> cases f <;> cases b <;> simp [getErr, putFlag, Flag.bitNo]

@[simp] theorem reservedBits_putErr (w : StatusWord) (e : BitVec 4) :
    reservedBits (putErr w e) = reservedBits w := by
  apply BitVec.eq_of_getLsbD_eq
  intro i hi
  interval_cases i <;> simp [reservedBits, putErr]

@[simp] theorem reservedBits_putFlag (w : StatusWord) (f : Flag) (b : Bool) :
    reservedBits (putFlag w f b) = reservedBits w := by
  apply BitVec.eq_of_getLsbD_eq
  intro i hi
  interval_cases i <;> cases f <;> cases b <;> simp [reservedBits, putFlag, Flag.bitNo]

/-! ### The writes of STATUS as masks -/

theorem putErr_success (w : StatusWord) : putErr w ErrCode.success.code = w &&& 0xF0FF#16 := by
  apply BitVec.eq_of_getLsbD_eq
  intro i hi
  interval_cases i <;> simp [putErr, ErrCode.code]

theorem putFlag_true_eq (w : StatusWord) (f : Flag) : putFlag w f true = w ||| (1#16 <<< f.bitNo) := rfl

theorem putFlag_false_eq (w : StatusWord) (f : Flag) : putFlag w f false = w &&& ~~~(1#16 <<< f.bitNo) := rfl

/-- Clearing the bits of `a` and writing ERR, as one mask. -/
theorem putErr_and (w a : StatusWord) (e : BitVec 4) :
    putErr (w &&& a) e = (w &&& (a &&& 0xF0FF#16)) ||| (e.setWidth 16 <<< 8) := by
  rw [putErr, BitVec.and_assoc]

theorem putFlag_tree_code_false (w : StatusWord) :
    putFlag (putFlag w .treeV false) .ctV false = w &&& 0xFFFC#16 := by
  simp only [putFlag_false_eq, Flag.bitNo, BitVec.and_assoc]
  rfl

theorem putFlag_valid_false (w : StatusWord) :
    putFlag (putFlag (putFlag w .treeV false) .ctV false) .imV false = w &&& 0xFFF8#16 := by
  simp only [putFlag_false_eq, Flag.bitNo, BitVec.and_assoc]
  rfl

theorem putFlag_ctV_false (w : StatusWord) : putFlag w .ctV false = w &&& 0xFFFD#16 := rfl

theorem putFlag_imV_false (w : StatusWord) : putFlag w .imV false = w &&& 0xFFFB#16 := rfl

theorem putFlag_ftOvf_false (w : StatusWord) : putFlag w .ftOvf false = w &&& 0xFFF7#16 := rfl

theorem putFlag_symOvf_false (w : StatusWord) : putFlag w .symOvf false = w &&& 0xFFEF#16 := rfl

theorem putFlag_bitOvf_false (w : StatusWord) : putFlag w .bitOvf false = w &&& 0xFFDF#16 := rfl

end Sys2Proof.Machine
end

