-- ==== Sys2Proof/Laws/State.lean ====
section
/-! SUPPORT. One lemma per field of State for each named update, so that no later proof unfolds a record update. -/

namespace Sys2Proof.Machine

/-! ### `setFlag` -/

@[simp] theorem setFlag_params (s : State) (g : Flag) (b : Bool) : (s.setFlag g b).params = s.params := rfl
@[simp] theorem setFlag_pending (s : State) (g : Flag) (b : Bool) : (s.setFlag g b).pending = s.pending := rfl
@[simp] theorem setFlag_reply (s : State) (g : Flag) (b : Bool) : (s.setFlag g b).reply = s.reply := rfl
@[simp] theorem setFlag_cmd (s : State) (g : Flag) (b : Bool) : (s.setFlag g b).cmd = s.cmd := rfl
@[simp] theorem setFlag_status (s : State) (g : Flag) (b : Bool) : (s.setFlag g b).status = putFlag s.status g b := rfl
@[simp] theorem setFlag_errpos (s : State) (g : Flag) (b : Bool) : (s.setFlag g b).errpos = s.errpos := rfl
@[simp] theorem setFlag_errsym (s : State) (g : Flag) (b : Bool) : (s.setFlag g b).errsym = s.errsym := rfl
@[simp] theorem setFlag_k (s : State) (g : Flag) (b : Bool) : (s.setFlag g b).k = s.k := rfl
@[simp] theorem setFlag_n (s : State) (g : Flag) (b : Bool) : (s.setFlag g b).n = s.n := rfl
@[simp] theorem setFlag_t (s : State) (g : Flag) (b : Bool) : (s.setFlag g b).t = s.t := rfl
@[simp] theorem setFlag_root (s : State) (g : Flag) (b : Bool) : (s.setFlag g b).root = s.root := rfl
@[simp] theorem setFlag_l (s : State) (g : Flag) (b : Bool) : (s.setFlag g b).l = s.l := rfl
@[simp] theorem setFlag_u (s : State) (g : Flag) (b : Bool) : (s.setFlag g b).u = s.u := rfl
@[simp] theorem setFlag_m (s : State) (g : Flag) (b : Bool) : (s.setFlag g b).m = s.m := rfl
@[simp] theorem setFlag_code (s : State) (g : Flag) (b : Bool) : (s.setFlag g b).code = s.code := rfl
@[simp] theorem setFlag_node (s : State) (g : Flag) (b : Bool) : (s.setFlag g b).node = s.node := rfl
@[simp] theorem setFlag_bitpos (s : State) (g : Flag) (b : Bool) : (s.setFlag g b).bitpos = s.bitpos := rfl
@[simp] theorem setFlag_sympos (s : State) (g : Flag) (b : Bool) : (s.setFlag g b).sympos = s.sympos := rfl
@[simp] theorem setFlag_ft (s : State) (g : Flag) (b : Bool) : (s.setFlag g b).ft = s.ft := rfl
@[simp] theorem setFlag_tn (s : State) (g : Flag) (b : Bool) : (s.setFlag g b).tn = s.tn := rfl
@[simp] theorem setFlag_ct (s : State) (g : Flag) (b : Bool) : (s.setFlag g b).ct = s.ct := rfl
@[simp] theorem setFlag_im (s : State) (g : Flag) (b : Bool) : (s.setFlag g b).im = s.im := rfl
@[simp] theorem setFlag_symIn (s : State) (g : Flag) (b : Bool) : (s.setFlag g b).symIn = s.symIn := rfl
@[simp] theorem setFlag_symOut (s : State) (g : Flag) (b : Bool) : (s.setFlag g b).symOut = s.symOut := rfl
@[simp] theorem setFlag_bitIn (s : State) (g : Flag) (b : Bool) : (s.setFlag g b).bitIn = s.bitIn := rfl
@[simp] theorem setFlag_bitOut (s : State) (g : Flag) (b : Bool) : (s.setFlag g b).bitOut = s.bitOut := rfl

/-! ### `report` -/

@[simp] theorem report_params (f : CmdFault) (s : State) : (report f s).params = s.params := rfl
@[simp] theorem report_pending (f : CmdFault) (s : State) : (report f s).pending = s.pending := rfl
@[simp] theorem report_reply (f : CmdFault) (s : State) : (report f s).reply = s.reply := rfl
@[simp] theorem report_cmd (f : CmdFault) (s : State) : (report f s).cmd = s.cmd := rfl
@[simp] theorem report_status (f : CmdFault) (s : State) : (report f s).status = putErr s.status f.err.code := rfl
@[simp] theorem report_errpos (f : CmdFault) (s : State) : (report f s).errpos = f.pos := rfl
@[simp] theorem report_errsym (f : CmdFault) (s : State) : (report f s).errsym = f.sym := rfl
@[simp] theorem report_k (f : CmdFault) (s : State) : (report f s).k = s.k := rfl
@[simp] theorem report_n (f : CmdFault) (s : State) : (report f s).n = s.n := rfl
@[simp] theorem report_t (f : CmdFault) (s : State) : (report f s).t = s.t := rfl
@[simp] theorem report_root (f : CmdFault) (s : State) : (report f s).root = s.root := rfl
@[simp] theorem report_l (f : CmdFault) (s : State) : (report f s).l = s.l := rfl
@[simp] theorem report_u (f : CmdFault) (s : State) : (report f s).u = s.u := rfl
@[simp] theorem report_m (f : CmdFault) (s : State) : (report f s).m = s.m := rfl
@[simp] theorem report_code (f : CmdFault) (s : State) : (report f s).code = s.code := rfl
@[simp] theorem report_node (f : CmdFault) (s : State) : (report f s).node = s.node := rfl
@[simp] theorem report_bitpos (f : CmdFault) (s : State) : (report f s).bitpos = s.bitpos := rfl
@[simp] theorem report_sympos (f : CmdFault) (s : State) : (report f s).sympos = s.sympos := rfl
@[simp] theorem report_ft (f : CmdFault) (s : State) : (report f s).ft = s.ft := rfl
@[simp] theorem report_tn (f : CmdFault) (s : State) : (report f s).tn = s.tn := rfl
@[simp] theorem report_ct (f : CmdFault) (s : State) : (report f s).ct = s.ct := rfl
@[simp] theorem report_im (f : CmdFault) (s : State) : (report f s).im = s.im := rfl
@[simp] theorem report_symIn (f : CmdFault) (s : State) : (report f s).symIn = s.symIn := rfl
@[simp] theorem report_symOut (f : CmdFault) (s : State) : (report f s).symOut = s.symOut := rfl
@[simp] theorem report_bitIn (f : CmdFault) (s : State) : (report f s).bitIn = s.bitIn := rfl
@[simp] theorem report_bitOut (f : CmdFault) (s : State) : (report f s).bitOut = s.bitOut := rfl

/-! ### `succeed` -/

@[simp] theorem succeed_params (s : State) : (succeed s).params = s.params := rfl
@[simp] theorem succeed_pending (s : State) : (succeed s).pending = s.pending := rfl
@[simp] theorem succeed_reply (s : State) : (succeed s).reply = s.reply := rfl
@[simp] theorem succeed_cmd (s : State) : (succeed s).cmd = s.cmd := rfl
@[simp] theorem succeed_status (s : State) : (succeed s).status = putErr s.status ErrCode.success.code := rfl
@[simp] theorem succeed_errpos (s : State) : (succeed s).errpos = 0 := rfl
@[simp] theorem succeed_errsym (s : State) : (succeed s).errsym = 0 := rfl
@[simp] theorem succeed_k (s : State) : (succeed s).k = s.k := rfl
@[simp] theorem succeed_n (s : State) : (succeed s).n = s.n := rfl
@[simp] theorem succeed_t (s : State) : (succeed s).t = s.t := rfl
@[simp] theorem succeed_root (s : State) : (succeed s).root = s.root := rfl
@[simp] theorem succeed_l (s : State) : (succeed s).l = s.l := rfl
@[simp] theorem succeed_u (s : State) : (succeed s).u = s.u := rfl
@[simp] theorem succeed_m (s : State) : (succeed s).m = s.m := rfl
@[simp] theorem succeed_code (s : State) : (succeed s).code = s.code := rfl
@[simp] theorem succeed_node (s : State) : (succeed s).node = s.node := rfl
@[simp] theorem succeed_bitpos (s : State) : (succeed s).bitpos = s.bitpos := rfl
@[simp] theorem succeed_sympos (s : State) : (succeed s).sympos = s.sympos := rfl
@[simp] theorem succeed_ft (s : State) : (succeed s).ft = s.ft := rfl
@[simp] theorem succeed_tn (s : State) : (succeed s).tn = s.tn := rfl
@[simp] theorem succeed_ct (s : State) : (succeed s).ct = s.ct := rfl
@[simp] theorem succeed_im (s : State) : (succeed s).im = s.im := rfl
@[simp] theorem succeed_symIn (s : State) : (succeed s).symIn = s.symIn := rfl
@[simp] theorem succeed_symOut (s : State) : (succeed s).symOut = s.symOut := rfl
@[simp] theorem succeed_bitIn (s : State) : (succeed s).bitIn = s.bitIn := rfl
@[simp] theorem succeed_bitOut (s : State) : (succeed s).bitOut = s.bitOut := rfl

/-! ### `invalidate` -/

@[simp] theorem invalidate_params (s : State) : (invalidate s).params = s.params := rfl
@[simp] theorem invalidate_pending (s : State) : (invalidate s).pending = s.pending := rfl
@[simp] theorem invalidate_reply (s : State) : (invalidate s).reply = s.reply := rfl
@[simp] theorem invalidate_cmd (s : State) : (invalidate s).cmd = s.cmd := rfl
@[simp] theorem invalidate_status (s : State) : (invalidate s).status = putFlag (putFlag (putFlag s.status .treeV false) .ctV false) .imV false := rfl
@[simp] theorem invalidate_errpos (s : State) : (invalidate s).errpos = s.errpos := rfl
@[simp] theorem invalidate_errsym (s : State) : (invalidate s).errsym = s.errsym := rfl
@[simp] theorem invalidate_k (s : State) : (invalidate s).k = s.k := rfl
@[simp] theorem invalidate_n (s : State) : (invalidate s).n = s.n := rfl
@[simp] theorem invalidate_t (s : State) : (invalidate s).t = 0 := rfl
@[simp] theorem invalidate_root (s : State) : (invalidate s).root = 0 := rfl
@[simp] theorem invalidate_l (s : State) : (invalidate s).l = s.l := rfl
@[simp] theorem invalidate_u (s : State) : (invalidate s).u = s.u := rfl
@[simp] theorem invalidate_m (s : State) : (invalidate s).m = s.m := rfl
@[simp] theorem invalidate_code (s : State) : (invalidate s).code = s.code := rfl
@[simp] theorem invalidate_node (s : State) : (invalidate s).node = s.node := rfl
@[simp] theorem invalidate_bitpos (s : State) : (invalidate s).bitpos = s.bitpos := rfl
@[simp] theorem invalidate_sympos (s : State) : (invalidate s).sympos = s.sympos := rfl
@[simp] theorem invalidate_ft (s : State) : (invalidate s).ft = s.ft := rfl
@[simp] theorem invalidate_tn (s : State) : (invalidate s).tn = [] := rfl
@[simp] theorem invalidate_ct (s : State) : (invalidate s).ct = [] := rfl
@[simp] theorem invalidate_im (s : State) : (invalidate s).im = [] := rfl
@[simp] theorem invalidate_symIn (s : State) : (invalidate s).symIn = s.symIn := rfl
@[simp] theorem invalidate_symOut (s : State) : (invalidate s).symOut = s.symOut := rfl
@[simp] theorem invalidate_bitIn (s : State) : (invalidate s).bitIn = s.bitIn := rfl
@[simp] theorem invalidate_bitOut (s : State) : (invalidate s).bitOut = s.bitOut := rfl

/-! ### `withTree` -/

@[simp] theorem withTree_params (s : State) (tn : List TreeNode) (root : Nat) : (withTree s tn root).params = s.params := rfl
@[simp] theorem withTree_pending (s : State) (tn : List TreeNode) (root : Nat) : (withTree s tn root).pending = s.pending := rfl
@[simp] theorem withTree_reply (s : State) (tn : List TreeNode) (root : Nat) : (withTree s tn root).reply = s.reply := rfl
@[simp] theorem withTree_cmd (s : State) (tn : List TreeNode) (root : Nat) : (withTree s tn root).cmd = s.cmd := rfl
@[simp] theorem withTree_status (s : State) (tn : List TreeNode) (root : Nat) : (withTree s tn root).status = putFlag (putFlag s.status .treeV true) .ctV false := rfl
@[simp] theorem withTree_errpos (s : State) (tn : List TreeNode) (root : Nat) : (withTree s tn root).errpos = s.errpos := rfl
@[simp] theorem withTree_errsym (s : State) (tn : List TreeNode) (root : Nat) : (withTree s tn root).errsym = s.errsym := rfl
@[simp] theorem withTree_k (s : State) (tn : List TreeNode) (root : Nat) : (withTree s tn root).k = s.k := rfl
@[simp] theorem withTree_n (s : State) (tn : List TreeNode) (root : Nat) : (withTree s tn root).n = s.n := rfl
@[simp] theorem withTree_t (s : State) (tn : List TreeNode) (root : Nat) : (withTree s tn root).t = s.t := rfl
@[simp] theorem withTree_root (s : State) (tn : List TreeNode) (root : Nat) : (withTree s tn root).root = root := rfl
@[simp] theorem withTree_l (s : State) (tn : List TreeNode) (root : Nat) : (withTree s tn root).l = s.l := rfl
@[simp] theorem withTree_u (s : State) (tn : List TreeNode) (root : Nat) : (withTree s tn root).u = s.u := rfl
@[simp] theorem withTree_m (s : State) (tn : List TreeNode) (root : Nat) : (withTree s tn root).m = s.m := rfl
@[simp] theorem withTree_code (s : State) (tn : List TreeNode) (root : Nat) : (withTree s tn root).code = s.code := rfl
@[simp] theorem withTree_node (s : State) (tn : List TreeNode) (root : Nat) : (withTree s tn root).node = s.node := rfl
@[simp] theorem withTree_bitpos (s : State) (tn : List TreeNode) (root : Nat) : (withTree s tn root).bitpos = s.bitpos := rfl
@[simp] theorem withTree_sympos (s : State) (tn : List TreeNode) (root : Nat) : (withTree s tn root).sympos = s.sympos := rfl
@[simp] theorem withTree_ft (s : State) (tn : List TreeNode) (root : Nat) : (withTree s tn root).ft = s.ft := rfl
@[simp] theorem withTree_tn (s : State) (tn : List TreeNode) (root : Nat) : (withTree s tn root).tn = tn := rfl
@[simp] theorem withTree_ct (s : State) (tn : List TreeNode) (root : Nat) : (withTree s tn root).ct = [] := rfl
@[simp] theorem withTree_im (s : State) (tn : List TreeNode) (root : Nat) : (withTree s tn root).im = s.im := rfl
@[simp] theorem withTree_symIn (s : State) (tn : List TreeNode) (root : Nat) : (withTree s tn root).symIn = s.symIn := rfl
@[simp] theorem withTree_symOut (s : State) (tn : List TreeNode) (root : Nat) : (withTree s tn root).symOut = s.symOut := rfl
@[simp] theorem withTree_bitIn (s : State) (tn : List TreeNode) (root : Nat) : (withTree s tn root).bitIn = s.bitIn := rfl
@[simp] theorem withTree_bitOut (s : State) (tn : List TreeNode) (root : Nat) : (withTree s tn root).bitOut = s.bitOut := rfl

/-! ### `illegalCommand` -/

@[simp] theorem illegalCommand_params (s : State) : (illegalCommand s).params = s.params := rfl
@[simp] theorem illegalCommand_pending (s : State) : (illegalCommand s).pending = s.pending := rfl
@[simp] theorem illegalCommand_reply (s : State) : (illegalCommand s).reply = s.reply := rfl
@[simp] theorem illegalCommand_cmd (s : State) : (illegalCommand s).cmd = s.cmd := rfl
@[simp] theorem illegalCommand_status (s : State) : (illegalCommand s).status = putErr s.status ErrCode.illegalCommand.code := rfl
@[simp] theorem illegalCommand_errpos (s : State) : (illegalCommand s).errpos = s.cmd.toNat := rfl
@[simp] theorem illegalCommand_errsym (s : State) : (illegalCommand s).errsym = 0 := rfl
@[simp] theorem illegalCommand_k (s : State) : (illegalCommand s).k = s.k := rfl
@[simp] theorem illegalCommand_n (s : State) : (illegalCommand s).n = s.n := rfl
@[simp] theorem illegalCommand_t (s : State) : (illegalCommand s).t = s.t := rfl
@[simp] theorem illegalCommand_root (s : State) : (illegalCommand s).root = s.root := rfl
@[simp] theorem illegalCommand_l (s : State) : (illegalCommand s).l = s.l := rfl
@[simp] theorem illegalCommand_u (s : State) : (illegalCommand s).u = s.u := rfl
@[simp] theorem illegalCommand_m (s : State) : (illegalCommand s).m = s.m := rfl
@[simp] theorem illegalCommand_code (s : State) : (illegalCommand s).code = s.code := rfl
@[simp] theorem illegalCommand_node (s : State) : (illegalCommand s).node = s.node := rfl
@[simp] theorem illegalCommand_bitpos (s : State) : (illegalCommand s).bitpos = s.bitpos := rfl
@[simp] theorem illegalCommand_sympos (s : State) : (illegalCommand s).sympos = s.sympos := rfl
@[simp] theorem illegalCommand_ft (s : State) : (illegalCommand s).ft = s.ft := rfl
@[simp] theorem illegalCommand_tn (s : State) : (illegalCommand s).tn = s.tn := rfl
@[simp] theorem illegalCommand_ct (s : State) : (illegalCommand s).ct = s.ct := rfl
@[simp] theorem illegalCommand_im (s : State) : (illegalCommand s).im = s.im := rfl
@[simp] theorem illegalCommand_symIn (s : State) : (illegalCommand s).symIn = s.symIn := rfl
@[simp] theorem illegalCommand_symOut (s : State) : (illegalCommand s).symOut = s.symOut := rfl
@[simp] theorem illegalCommand_bitIn (s : State) : (illegalCommand s).bitIn = s.bitIn := rfl
@[simp] theorem illegalCommand_bitOut (s : State) : (illegalCommand s).bitOut = s.bitOut := rfl

/-! ### `platformReset` -/

@[simp] theorem platformReset_params (s : State) : (platformReset s).params = s.params := rfl
@[simp] theorem platformReset_pending (s : State) : (platformReset s).pending = s.pending := rfl
@[simp] theorem platformReset_reply (s : State) : (platformReset s).reply = s.reply := rfl
@[simp] theorem platformReset_cmd (s : State) : (platformReset s).cmd = 0 := rfl
@[simp] theorem platformReset_status (s : State) : (platformReset s).status = 0 := rfl
@[simp] theorem platformReset_errpos (s : State) : (platformReset s).errpos = 0 := rfl
@[simp] theorem platformReset_errsym (s : State) : (platformReset s).errsym = 0 := rfl
@[simp] theorem platformReset_k (s : State) : (platformReset s).k = 0 := rfl
@[simp] theorem platformReset_n (s : State) : (platformReset s).n = 0 := rfl
@[simp] theorem platformReset_t (s : State) : (platformReset s).t = 0 := rfl
@[simp] theorem platformReset_root (s : State) : (platformReset s).root = 0 := rfl
@[simp] theorem platformReset_l (s : State) : (platformReset s).l = 0 := rfl
@[simp] theorem platformReset_u (s : State) : (platformReset s).u = 0 := rfl
@[simp] theorem platformReset_m (s : State) : (platformReset s).m = 0 := rfl
@[simp] theorem platformReset_code (s : State) : (platformReset s).code = 0 := rfl
@[simp] theorem platformReset_node (s : State) : (platformReset s).node = 0 := rfl
@[simp] theorem platformReset_bitpos (s : State) : (platformReset s).bitpos = 0 := rfl
@[simp] theorem platformReset_sympos (s : State) : (platformReset s).sympos = 0 := rfl
@[simp] theorem platformReset_ft (s : State) : (platformReset s).ft = [] := rfl
@[simp] theorem platformReset_tn (s : State) : (platformReset s).tn = [] := rfl
@[simp] theorem platformReset_ct (s : State) : (platformReset s).ct = [] := rfl
@[simp] theorem platformReset_im (s : State) : (platformReset s).im = [] := rfl
@[simp] theorem platformReset_symIn (s : State) : (platformReset s).symIn = [] := rfl
@[simp] theorem platformReset_symOut (s : State) : (platformReset s).symOut = [] := rfl
@[simp] theorem platformReset_bitIn (s : State) : (platformReset s).bitIn = [] := rfl
@[simp] theorem platformReset_bitOut (s : State) : (platformReset s).bitOut = [] := rfl

/-! ### What clearing the write-set of each command leaves (`60_exceptions.md` R236) -/

theorem clearTargets_bht (s : State) :
    clearTargets (writeSet .bht) s = { s with
      tn := [], root := 0, ct := [], status := putFlag (putFlag s.status .treeV false) .ctV false } := by
  simp only [clearTargets, writeSet, List.foldl_cons, List.foldl_nil, clearTarget, State.setFlag]

theorem clearTargets_hct (s : State) :
    clearTargets (writeSet .hct) s = { s with ct := [], status := putFlag s.status .ctV false } := by
  simp only [clearTargets, writeSet, List.foldl_cons, List.foldl_nil, clearTarget, State.setFlag]

theorem clearTargets_hen (s : State) :
    clearTargets (writeSet .hen) s = { s with bitOut := [], sympos := 0, bitpos := 0 } := by
  simp only [clearTargets, writeSet, List.foldl_cons, List.foldl_nil, clearTarget]

theorem clearTargets_hde (s : State) :
    clearTargets (writeSet .hde) s = { s with symOut := [], node := 0, bitpos := 0, sympos := 0 } := by
  simp only [clearTargets, writeSet, List.foldl_cons, List.foldl_nil, clearTarget]

theorem clearTargets_bim (s : State) :
    clearTargets (writeSet .bim) s = { s with im := [], t := 0, status := putFlag s.status .imV false } := by
  simp only [clearTargets, writeSet, List.foldl_cons, List.foldl_nil, clearTarget, State.setFlag]

theorem clearTargets_aen (s : State) :
    clearTargets (writeSet .aen) s = { s with
      bitOut := [], l := 0, u := 0, m := 0, sympos := 0, bitpos := 0 } := by
  simp only [clearTargets, writeSet, List.foldl_cons, List.foldl_nil, clearTarget]

theorem clearTargets_ade (s : State) :
    clearTargets (writeSet .ade) s = { s with
      symOut := [], l := 0, u := 0, m := 0, code := 0, bitpos := 0, sympos := 0 } := by
  simp only [clearTargets, writeSet, List.foldl_cons, List.foldl_nil, clearTarget]

theorem takeFault_eq (ws : List Target) (f : CmdFault) (s : State) :
    takeFault ws f s = { clearTargets ws s with
      status := putErr (clearTargets ws s).status f.err.code, errpos := f.pos, errsym := f.sym } := rfl

end Sys2Proof.Machine
end

