-- ==== Sys2Proof/Laws/Ops.lean ====
section
/-! SUPPORT. What each shared operation can do, said once: the checks, the end of a command, FTCheck, the pushes, the
register map. -/

namespace Sys2Proof.Machine

/-! ### Results -/

@[simp] theorem require_true (err : ErrCode) (pos sym : Nat) : require true err pos sym = .ok () := rfl

@[simp] theorem require_false (err : ErrCode) (pos sym : Nat) : require false err pos sym = raise err pos sym := rfl

theorem require_eq_ok {c : Bool} {err : ErrCode} {pos sym : Nat} :
    require c err pos sym = .ok () ↔ c = true := by
  cases c <;> simp [require, raise]

@[simp] theorem ok_bind {α β : Type} (a : α) (f : α → Result β) : ((Except.ok a : Result α) >>= f) = f a := rfl

@[simp] theorem raise_bind {α β : Type} (err : ErrCode) (pos sym : Nat) (f : α → Result β) :
    ((raise err pos sym : Result α) >>= f) = raise err pos sym := rfl

@[simp] theorem stuck_bind {α β : Type} (r : Fault) (f : α → Result β) :
    ((stuck r : Result α) >>= f) = stuck r := rfl

/-- A sequence has a value exactly when both parts do. -/
theorem bind_eq_ok {α β : Type} {x : Result α} {f : α → Result β} {b : β} :
    (x >>= f) = .ok b ↔ ∃ a, x = .ok a ∧ f a = .ok b := by
  cases x with
  | error h => exact ⟨(nomatch ·), fun ⟨_, e, _⟩ => nomatch e⟩
  | ok a =>
    refine ⟨fun e => ⟨a, rfl, e⟩, ?_⟩
    rintro ⟨a', e, e'⟩
    cases e
    exact e'

/-- A sequence ends early exactly when its first part does, or its second does. -/
theorem bind_eq_error {α β : Type} {x : Result α} {f : α → Result β} {h : Halt} :
    (x >>= f) = .error h ↔ x = .error h ∨ ∃ a, x = .ok a ∧ f a = .error h := by
  cases x with
  | error h' =>
    refine ⟨fun e => .inl ?_, fun e => ?_⟩
    · cases e; rfl
    · rcases e with e | ⟨a, e, _⟩
      · cases e; rfl
      · cases e
  | ok a =>
    refine ⟨fun e => .inr ⟨a, rfl, e⟩, fun e => ?_⟩
    rcases e with e | ⟨a', e, e'⟩
    · cases e
    · cases e; exact e'

/-! ### The end of a command -/

@[simp] theorem conclude_ok (i : Instr) (s t : State) : conclude i s (.ok t) = .next (succeed t) := rfl

@[simp] theorem conclude_raise (i : Instr) (s : State) (err : ErrCode) (pos sym : Nat) :
    conclude i s (raise err pos sym) = .next (takeFault (writeSet i) ⟨err, pos, sym⟩ s) := rfl

@[simp] theorem conclude_stuck (i : Instr) (s : State) (r : Fault) : conclude i s (stuck r) = .fault r := rfl

/-- Everything a command that goes on can have done: succeeded, or taken a fault. -/
theorem conclude_next {i : Instr} {s t : State} {r : Result State} (h : conclude i s r = .next t) :
    (∃ u, r = .ok u ∧ t = succeed u) ∨ ∃ f, r = .error (.raise f) ∧ t = takeFault (writeSet i) f s := by
  match r, h with
  | .ok u, h => exact .inl ⟨u, rfl, (Host.Outcome.next.inj h).symm⟩
  | .error (.raise f), h => exact .inr ⟨f, rfl, (Host.Outcome.next.inj h).symm⟩

theorem conclude_ne_refused (i : Instr) (s : State) (r : Result State) (q : Refusal) :
    conclude i s r ≠ .refused q := by
  match r with
  | .ok _ => exact nofun
  | .error (.raise _) => exact nofun
  | .error (.stuck _) => exact nofun

/-- No command is refused. -/
theorem exec_ne_refused (i : Instr) (s : State) (q : Refusal) : exec i s ≠ .refused q := by
  cases i
  case clrft => exact nofun
  case clrsym => exact nofun
  case clrbit => exact nofun
  all_goals exact conclude_ne_refused _ _ _ _

theorem succeed_eq (s : State) :
    succeed s = { s with status := s.status &&& 0xF0FF#16, errpos := 0, errsym := 0 } := by
  simp only [succeed, report, putErr_success]

/-- The state a fault leaves, with STATUS by its bits. -/
theorem takeFault_eq_faultOutcome (i : Instr) (f : CmdFault) (s : State) :
    takeFault (writeSet i) f s = faultOutcome i f.err f.pos f.sym s := by
  cases i
  case bht =>
    rw [takeFault_eq, clearTargets_bht]
    simp only [faultOutcome, faultStatus, putFlag_tree_code_false, putErr_and]
    rfl
  case hct =>
    rw [takeFault_eq, clearTargets_hct]
    simp only [faultOutcome, faultStatus, putFlag_ctV_false, putErr_and]
    rfl
  case bim =>
    rw [takeFault_eq, clearTargets_bim]
    simp only [faultOutcome, faultStatus, putFlag_imV_false, putErr_and]
    rfl
  case hen => rw [takeFault_eq, clearTargets_hen]; rfl
  case hde => rw [takeFault_eq, clearTargets_hde]; rfl
  case aen => rw [takeFault_eq, clearTargets_aen]; rfl
  case ade => rw [takeFault_eq, clearTargets_ade]; rfl
  case clrft => rfl
  case clrsym => rfl
  case clrbit => rfl

/-- A fault is reported by its code. -/
@[simp] theorem takeFault_err (ws : List Target) (f : CmdFault) (s : State) : (takeFault ws f s).err = f.err.code := by
  simp [takeFault, State.err]

@[simp] theorem succeed_err (s : State) : (succeed s).err = ErrCode.success.code := by
  simp [State.err]

/-! ### FTCheck -/

theorem ftCheckFrom_ok (seen es : List FtEntry) (i : Nat) :
    ftCheckFrom seen i es = .ok () ↔
      (∀ e ∈ es, e.count ≠ 0 ∧ ∀ d ∈ seen, d.sym ≠ e.sym) ∧ (es.map FtEntry.sym).Nodup := by
  induction es generalizing seen i with
  | nil => simp [ftCheckFrom]
  | cons e es ih =>
    unfold ftCheckFrom
    split
    · next h => simp [raise, h]
    · next h =>
      split
      · next h' =>
        obtain ⟨d, hd, he⟩ := List.any_eq_true.mp h'
        have he : d.sym = e.sym := by simpa using he
        constructor
        · intro k; cases k
        · intro k; exact absurd he ((k.1 e (by simp)).2 d hd)
      · next h' =>
        have hn : ∀ d ∈ seen, d.sym ≠ e.sym := fun d hd he =>
          h' (List.any_eq_true.mpr ⟨d, hd, by simpa using he⟩)
        rw [ih]
        simp only [List.mem_append, List.mem_cons, List.not_mem_nil, or_false, List.map_cons, List.nodup_cons, List.mem_map]
        constructor
        · rintro ⟨k1, k2⟩
          refine ⟨?_, ?_, k2⟩
          · rintro x (rfl | hx)
            · exact ⟨h, hn⟩
            · exact ⟨(k1 x hx).1, fun d hd => (k1 x hx).2 d (.inl hd)⟩
          · rintro ⟨x, hx, hxe⟩
            exact (k1 x hx).2 e (.inr rfl) hxe.symm
        · rintro ⟨k1, k2, k3⟩
          refine ⟨fun x hx => ⟨(k1 x (.inr hx)).1, ?_⟩, k3⟩
          rintro d (hd | rfl)
          · exact (k1 x (.inr hx)).2 d hd
          · exact fun hde => k2 ⟨x, hx, hde.symm⟩

/-- FTCheck passes exactly the well-formed tables. -/
theorem ftCheck_ok (ft : List FtEntry) : ftCheck ft = .ok () ↔ FtWellFormed ft := by
  cases ft with
  | nil => simp [ftCheck, raise, FtWellFormed]
  | cons e es =>
    have hc : ftCheck (e :: es) = ftCheckFrom [] 0 (e :: es) := by simp [ftCheck]
    rw [hc, ftCheckFrom_ok]
    simp [FtWellFormed, Nat.one_le_iff_ne_zero]

/-! ### Pushes and Invalidate -/

theorem invalidate_eq (s : State) :
    invalidate s = { s with
      tn := [], root := 0, ct := [], im := [], t := 0, status := s.status &&& 0xFFF8#16 } := by
  simp only [invalidate, putFlag_valid_false]

theorem pushFt_eq (e : FtEntry) (s : State) :
    pushFt e s = { s with
      ft := if s.ft.length < s.params.maxSyms then s.ft ++ [e] else s.ft
      tn := [], root := 0, ct := [], im := [], t := 0
      status := if s.ft.length < s.params.maxSyms then s.status &&& 0xFFF8#16
        else (s.status ||| 0x0008#16) &&& 0xFFF8#16 } := by
  by_cases h : s.ft.length < s.params.maxSyms
  · simp only [pushFt, h, if_true, invalidate_eq]
  · simp only [pushFt, h, if_false, invalidate_eq]; rfl

theorem pushSym_eq (x : Symbol) (s : State) :
    pushSym x s = if s.symIn.length < s.params.maxN then { s with symIn := s.symIn ++ [x] }
      else { s with status := s.status ||| 0x0010#16 } := rfl

theorem pushBit_eq (b : Bit) (s : State) :
    pushBit b s = if s.bitIn.length < s.params.maxBits then { s with bitIn := s.bitIn ++ [b] }
      else { s with status := s.status ||| 0x0020#16 } := rfl

/-! ### The register map -/

@[simp] theorem regOfNumber_number (r : Reg) : regOfNumber r.number = some r := by cases r <;> rfl

theorem regOfNumber_none {no : Nat} (h : 25 < no) : regOfNumber no = none := by
  obtain ⟨k, rfl⟩ := Nat.exists_eq_add_of_lt h
  rw [show 25 + k + 1 = k + 26 by omega]
  rfl

/-- A register has a value for the host exactly when the host may read it. -/
theorem regValue_isSome (s : State) (r : Reg) : (s.regValue r).isSome = r.hostReads := by cases r <;> rfl

/-! ### Widths -/

theorem le_two_pow_ceilLog2 (x : Nat) : x ≤ 2 ^ ceilLog2 x := by
  unfold ceilLog2
  split
  · simpa
  · next h =>
    have : x - 1 < 2 ^ (Nat.log2 (x - 1) + 1) := Nat.lt_log2_self
    omega

theorem lt_two_pow_ceilLog2_succ (x : Nat) : x < 2 ^ ceilLog2 (x + 1) := le_two_pow_ceilLog2 (x + 1)

end Sys2Proof.Machine
end

