-- ==== Sys2Proof/Laws/Renorm.lean ====
section
/-! SUPPORT. The renormalization tests and steps of the arithmetic units, said once. -/

namespace Sys2Proof.Machine

theorem rangeOf_pos (k : Nat) : 0 < rangeOf k := by
  unfold rangeOf
  exact_mod_cast Nat.two_pow_pos k

theorem rangeOf_eq (k : Nat) : rangeOf k = 2 ^ k := by
  unfold rangeOf
  push_cast
  rfl

/-- For a precision of at least 2 the range is a multiple of 4, so halves and quarters are exact (`00_scope.md` R9). -/
theorem rangeOf_quarters {k : Nat} (h : 2 ≤ k) :
    rangeOf k = 4 * (rangeOf k / 4) ∧ rangeOf k / 2 = 2 * (rangeOf k / 4) ∧ 3 * rangeOf k / 4 = 3 * (rangeOf k / 4) := by
  obtain ⟨j, rfl⟩ := Nat.exists_eq_add_of_le h
  have e : rangeOf (2 + j) = 4 * ((2 ^ j : Nat) : Int) := by
    unfold rangeOf
    push_cast
    ring
  rw [e]
  omega

/-- No case applies exactly when the interval straddles the middle and is not inside the middle half. -/
theorem renormCase_none {r l u : Int} :
    renormCase r l u = none ↔ l < r / 2 ∧ r / 2 ≤ u ∧ ¬(r / 4 ≤ l ∧ u < 3 * r / 4) := by
  unfold renormCase
  split
  · simp; omega
  · split
    · simp; omega
    · split <;> simp <;> omega

theorem renormCase_e1 {r l u : Int} : renormCase r l u = some .e1 ↔ r / 2 ≤ l := by
  unfold renormCase
  split
  · simp; omega
  · split
    · simp; omega
    · split <;> simp <;> omega

theorem renormCase_e2 {r l u : Int} : renormCase r l u = some .e2 ↔ l < r / 2 ∧ u < r / 2 := by
  unfold renormCase
  split
  · simp; omega
  · split
    · simp; omega
    · split <;> simp <;> omega

theorem renormCase_e3 {r l u : Int} :
    renormCase r l u = some .e3 ↔ l < r / 2 ∧ r / 2 ≤ u ∧ r / 4 ≤ l ∧ u < 3 * r / 4 := by
  unfold renormCase
  split
  · simp; omega
  · split
    · simp; omega
    · split <;> simp <;> omega

/-- The interval after a renormalization step: the offset taken off, then doubled. -/
theorem decodeShift_bounds (bits : BitString) (r : Int) (e : RenormCase) (d : Decoder) :
    (decodeShift bits r e d).l = 2 * (d.l - renormOffset r e) ∧
      (decodeShift bits r e d).u = 2 * (d.u - renormOffset r e) + 1 ∧
      (decodeShift bits r e d).pos = d.pos + 1 := ⟨rfl, rfl, rfl⟩

/-- Each step doubles the width (`44_arithmetic_encoder_interval_renorm.md` R190). -/
theorem decodeShift_width (bits : BitString) (r : Int) (e : RenormCase) (d : Decoder) :
    (decodeShift bits r e d).u - (decodeShift bits r e d).l + 1 = 2 * (d.u - d.l + 1) := by
  rw [(decodeShift_bounds bits r e d).1, (decodeShift_bounds bits r e d).2.1]
  ring

/-- What `Emit` gives: the bit and then the pending bits, or CapacityExceeded. -/
theorem emit_eq_ok {maxBits : Nat} {out out' : BitString} {b : Bit} {m i : Nat} :
    emit maxBits out b m i = .ok out' ↔
      out.length + 1 + m ≤ maxBits ∧ out' = out ++ b :: List.replicate m (!b) := by
  unfold emit
  split
  · simp [raise]; omega
  · simp [eq_comm]; omega

/-- What `Flush` gives: `m + 2` bits more, or CapacityExceeded (`44_arithmetic_encoder_interval_renorm.md` R186). -/
theorem flush_length {maxBits : Nat} {r : Int} {c : Encoder} {pos : Nat} {out : BitString}
    (h : flush maxBits r c pos = .ok out) : out.length = c.out.length + c.m + 2 ∧ out.length ≤ maxBits := by
  unfold flush at h
  split at h
  · cases h
  · split at h <;> cases h <;> simp <;> omega

end Sys2Proof.Machine
end

