-- ==== Sys2Proof/Laws/Coder.lean ====
section
/-! SUPPORT. The loops of AEN and ADE against the relations of `Safety.lean`: what a loop answers is what the relation
gives, and the relation gives one result. -/

namespace Sys2Proof.Machine

/-! ### The relations have one result -/

theorem EncRenorms.unique {r : Int} {c c₁ c₂ : Encoder} (h₁ : EncRenorms r c c₁) (h₂ : EncRenorms r c c₂) : c₁ = c₂ := by
  induction h₁ with
  | done => cases h₂ <;> first | rfl | (exfalso; omega)
  | e1 _ _ ih => cases h₂ <;> first | exact ih ‹_› | (exfalso; omega)
  | e2 _ _ _ ih => cases h₂ <;> first | exact ih ‹_› | (exfalso; omega)
  | e3 _ _ _ _ _ ih => cases h₂ <;> first | exact ih ‹_› | (exfalso; omega)

theorem Encodes.unique {im : List Interval} {t r : Int} {xs : List Symbol} {c c₁ c₂ : Encoder}
    (h₁ : Encodes im t r xs c c₁) (h₂ : Encodes im t r xs c c₂) : c₁ = c₂ := by
  induction h₁ with
  | nil => cases h₂; rfl
  | cons hf hr _ ih =>
    cases h₂ with
    | cons hf' hr' ht' =>
      cases hf.symm.trans hf'
      cases hr.unique hr'
      exact ih ht'

theorem DecRenorms.unique {r : Int} {bits : BitString} {d d₁ d₂ : Decoder} (h₁ : DecRenorms r bits d d₁)
    (h₂ : DecRenorms r bits d d₂) : d₁ = d₂ := by
  induction h₁ with
  | done => cases h₂ <;> first | rfl | (exfalso; omega)
  | e1 _ _ ih => cases h₂ <;> first | exact ih ‹_› | (exfalso; omega)
  | e2 _ _ _ ih => cases h₂ <;> first | exact ih ‹_› | (exfalso; omega)
  | e3 _ _ _ _ _ ih => cases h₂ <;> first | exact ih ‹_› | (exfalso; omega)

theorem Decodes.unique {im : List Interval} {t r : Int} {bits : BitString} {n : Nat} {d d₁ d₂ : Decoder}
    {out₁ out₂ : List Symbol} (h₁ : Decodes im t r bits n d out₁ d₁) (h₂ : Decodes im t r bits n d out₂ d₂) :
    out₁ = out₂ ∧ d₁ = d₂ := by
  induction h₁ generalizing out₂ with
  | zero => cases h₂; exact ⟨rfl, rfl⟩
  | succ hf hr _ ih =>
    cases h₂ with
    | succ hf' hr' ht' =>
      cases hf.symm.trans hf'
      cases hr.unique hr'
      obtain ⟨rfl, rfl⟩ := ih ht'
      exact ⟨rfl, rfl⟩

/-- A message encoded in two parts. -/
theorem Encodes.append {im : List Interval} {t r : Int} {xs ys : List Symbol} {c c' c'' : Encoder}
    (h₁ : Encodes im t r xs c c') (h₂ : Encodes im t r ys c' c'') : Encodes im t r (xs ++ ys) c c'' := by
  induction h₁ with
  | nil => exact h₂
  | cons hf hr _ ih => exact .cons hf hr (ih h₂)

/-! ### The loops of the model -/

theorem encRenorm_sound {maxBits : Nat} {r : Int} {i fuel : Nat} {c c' : Encoder}
    (h : encRenorm maxBits r i fuel c = .ok c') : EncRenorms r c c' := by
  induction fuel generalizing c with
  | zero => cases h
  | succ fuel ih =>
    unfold encRenorm at h
    split at h
    · next he =>
      obtain ⟨c₁, h₁, h₂⟩ := (bind_eq_ok ..).1 h
      obtain ⟨out, ho, hp⟩ := (bind_eq_ok ..).1 h₁
      cases hp
      obtain ⟨-, rfl⟩ := emit_eq_ok.1 ho
      exact .e1 (renormCase_e1.1 he) (ih h₂)
    · next he =>
      obtain ⟨c₁, h₁, h₂⟩ := (bind_eq_ok ..).1 h
      obtain ⟨out, ho, hp⟩ := (bind_eq_ok ..).1 h₁
      cases hp
      obtain ⟨-, rfl⟩ := emit_eq_ok.1 ho
      exact .e2 (renormCase_e2.1 he).1 (renormCase_e2.1 he).2 (ih h₂)
    · next he =>
      obtain ⟨h1, h2, h3, h4⟩ := renormCase_e3.1 he
      exact .e3 h1 h2 h3 h4 (ih h)
    · next he =>
      cases h
      obtain ⟨h1, h2, h3⟩ := renormCase_none.1 he
      exact .done h1 h2 h3

theorem encodeSymbols_sound {im : List Interval} {t k maxBits i : Nat} {xs : List Symbol} {c c' : Encoder}
    (h : encodeSymbols im t k maxBits i xs c = .ok c') : Encodes im t (rangeOf k) xs c c' := by
  induction xs generalizing i c with
  | nil => cases h; exact .nil
  | cons x xs ih =>
    obtain ⟨c₁, h₁, h₂⟩ := (bind_eq_ok ..).1 h
    unfold encodeSymbol at h₁
    split at h₁
    · cases h₁
    · next e he =>
      split at h₁
      · cases h₁
      · exact .cons he (encRenorm_sound h₁) (ih h₂)

/-- The bits that `Flush` gives. -/
theorem flush_bits {maxBits : Nat} {r : Int} {c : Encoder} {pos : Nat} {out : BitString}
    (h : flush maxBits r c pos = .ok out) : out = flushedBits r c := by
  unfold flush at h
  unfold flushedBits
  split at h
  · cases h
  · split at h <;> cases h <;> simp [*]

theorem bitValue_nextBit (bits : BitString) (p : Nat) : bitValue (nextBit bits p) = streamBit bits p := by
  unfold nextBit streamBit bitValue
  rw [List.getD_eq_getElem?_getD]
  cases bits[p]? with
  | none => rfl
  | some b => cases b <;> rfl

theorem initWindow_eq (bits : BitString) (k : Nat) : initWindow bits k = streamWindow bits k := by
  simp only [initWindow, streamWindow, bitValue_nextBit]

theorem decodeShift_eq (bits : BitString) (r : Int) (e : RenormCase) (d : Decoder) :
    decodeShift bits r e d = shiftedBy r bits (renormOffset r e) d := by
  simp only [decodeShift, shiftedBy, bitValue_nextBit]

theorem decRenorm_sound {bits : BitString} {r : Int} {fuel : Nat} {d d' : Decoder}
    (h : decRenorm bits r fuel d = .ok d') : DecRenorms r bits d d' := by
  induction fuel generalizing d with
  | zero => cases h
  | succ fuel ih =>
    unfold decRenorm at h
    split at h
    · next e he =>
      have hd := ih h
      rw [decodeShift_eq] at hd
      cases e with
      | e1 => exact .e1 (renormCase_e1.1 he) hd
      | e2 => exact .e2 (renormCase_e2.1 he).1 (renormCase_e2.1 he).2 hd
      | e3 =>
        obtain ⟨h1, h2, h3, h4⟩ := renormCase_e3.1 he
        exact .e3 h1 h2 h3 h4 hd
    · next he =>
      cases h
      obtain ⟨h1, h2, h3⟩ := renormCase_none.1 he
      exact .done h1 h2 h3

theorem decodeSymbols_sound {im : List Interval} {t k : Nat} {bits : BitString} {n i : Nat} {d d' : Decoder}
    {acc out : List Symbol} (h : decodeSymbols im t k bits n i d acc = .ok (d', out)) :
    ∃ xs, out = acc ++ xs ∧ Decodes im t (rangeOf k) bits n d xs d' := by
  induction n generalizing i d acc with
  | zero => cases h; exact ⟨[], by simp, .zero⟩
  | succ n ih =>
    obtain ⟨⟨x, d₁⟩, h₁, h₂⟩ := (bind_eq_ok ..).1 h
    unfold decodeSymbol at h₁
    split at h₁
    · cases h₁
    · next e he =>
      split at h₁
      · cases h₁
      · obtain ⟨d₂, hr, hp⟩ := (bind_eq_ok ..).1 h₁
        cases hp
        obtain ⟨xs, rfl, hx⟩ := ih h₂
        exact ⟨e.sym :: xs, by simp, .succ he (decRenorm_sound hr) hx⟩

end Sys2Proof.Machine
end

