-- ==== Sys2Proof/Laws/Exec.lean ====
section
/-! SUPPORT. When the body of each command has a value, and what value: the inversion lemma of each. -/

namespace Sys2Proof.Machine

theorem not_eq_true_iff (b : Bool) : (!b) = true ↔ b = false := by cases b <;> simp

theorem require_bind_ok {β : Type} {c : Bool} {err : ErrCode} {pos sym : Nat} {f : Unit → Result β} {b : β} :
    (require c err pos sym >>= f) = .ok b ↔ c = true ∧ f () = .ok b := by
  cases c
  · exact ⟨(nomatch ·), fun h => nomatch h.1⟩
  · exact ⟨fun h => ⟨rfl, h⟩, fun h => h.2⟩

theorem ftCheck_bind_ok {β : Type} {ft : List FtEntry} {f : Unit → Result β} {b : β} :
    (ftCheck ft >>= f) = .ok b ↔ FtWellFormed ft ∧ f () = .ok b := by
  rw [← ftCheck_ok, bind_eq_ok]
  exact ⟨fun ⟨(), h⟩ => h, fun h => ⟨(), h⟩⟩

/-- BHT succeeds exactly on a well-formed table without a dropped push. -/
theorem bhtBody_ok {s t : State} :
    bhtBody s = .ok t ↔
      s.flag .ftOvf = false ∧ FtWellFormed s.ft ∧ t = withTree s (buildTree s.ft).1 (buildTree s.ft).2 := by
  simp only [bhtBody, require_bind_ok, ftCheck_bind_ok, not_eq_true_iff, pure, Except.pure, Except.ok.injEq,
    eq_comm (b := t)]

/-- HCT succeeds exactly when the tree is valid and its traversal fills the table. -/
theorem hctBody_ok {s t : State} :
    hctBody s = .ok t ↔
      s.flag .treeV = true ∧
        ∃ ct, codeTable s.tn s.root = some ct ∧ t = { s with ct := ct, status := putFlag s.status .ctV true } := by
  simp only [hctBody, require_bind_ok, and_congr_right_iff]
  intro _
  cases codeTable s.tn s.root with
  | none => simp [stuck]
  | some ct => simp [pure, Except.pure, eq_comm]

/-- HEN succeeds exactly when the table is valid, no push was dropped and the loop gives bits. -/
theorem henBody_ok {s t : State} :
    henBody s = .ok t ↔
      s.flag .ctV = true ∧ s.flag .symOvf = false ∧
        ∃ out, huffmanEncode s.ct s.params.maxBits 0 s.symIn [] = .ok out ∧
          t = { s with bitOut := out, sympos := s.symIn.length, bitpos := out.length } := by
  simp only [henBody, require_bind_ok]
  simp only [bind_eq_ok, not_eq_true_iff, pure, Except.pure, Except.ok.injEq,
    eq_comm (b := t)]

/-- HDE succeeds exactly when the tree is valid, no push was dropped and the walk ends at the root. -/
theorem hdeBody_ok {s t : State} :
    hdeBody s = .ok t ↔
      s.flag .treeV = true ∧ s.flag .bitOvf = false ∧
        ∃ out, huffmanDecode s.tn s.root s.params.maxN 0 s.bitIn s.root [] = .ok (s.root, out) ∧
          t = { s with symOut := out, node := s.root, bitpos := s.bitIn.length, sympos := out.length } := by
  simp only [hdeBody, require_bind_ok]
  rw [bind_eq_ok]
  simp only [require_bind_ok, not_eq_true_iff, pure, Except.pure, Except.ok.injEq, beq_iff_eq]
  constructor
  · rintro ⟨h1, h2, ⟨node, out⟩, h3, h4, h5⟩
    cases h4
    exact ⟨h1, h2, out, h3, h5.symm⟩
  · rintro ⟨h1, h2, out, h3, h4⟩
    exact ⟨h1, h2, (s.root, out), h3, rfl, h4.symm⟩

/-- BIM succeeds exactly on a well-formed table without a dropped push. -/
theorem bimBody_ok {s t : State} :
    bimBody s = .ok t ↔
      s.flag .ftOvf = false ∧ FtWellFormed s.ft ∧
        t = { s with
          im := (buildIntervals 0 s.ft).1, t := (buildIntervals 0 s.ft).2
          status := putFlag s.status .imV true } := by
  simp only [bimBody, require_bind_ok, ftCheck_bind_ok, not_eq_true_iff, pure, Except.pure, Except.ok.injEq,
    eq_comm (b := t)]

theorem precOk_iff (k t : Nat) : precOk k t = true ↔ 4 * t ≤ 2 ^ k := by simp [precOk]

/-- AEN succeeds exactly when its preconditions hold and the loop and the flush give bits. -/
theorem aenBody_ok {s t : State} :
    aenBody s = .ok t ↔
      s.flag .imV = true ∧ s.flag .symOvf = false ∧ s.precision ≤ s.params.kMax ∧ 4 * s.t ≤ 2 ^ s.precision ∧
        ∃ c out,
          encodeSymbols s.im s.t s.precision s.params.maxBits 0 s.symIn (encoderStart s.precision) = .ok c ∧
          flush s.params.maxBits (rangeOf s.precision) c s.symIn.length = .ok out ∧
          t = { s with
            bitOut := out, l := c.l.toNat, u := c.u.toNat, m := c.m
            sympos := s.symIn.length, bitpos := out.length } := by
  simp only [aenBody, require_bind_ok]
  simp only [bind_eq_ok, not_eq_true_iff, pure, Except.pure, Except.ok.injEq,
    decide_eq_true_eq, precOk_iff, exists_and_left, eq_comm (b := t)]

/-- ADE succeeds exactly when its preconditions hold and the loop gives symbols. -/
theorem adeBody_ok {s t : State} :
    adeBody s = .ok t ↔
      s.flag .imV = true ∧ s.flag .bitOvf = false ∧ s.precision ≤ s.params.kMax ∧
        s.messageLength ≤ s.params.maxN ∧ 4 * s.t ≤ 2 ^ s.precision ∧
        ∃ d out,
          decodeSymbols s.im s.t s.precision s.bitIn s.messageLength 0 (decoderStart s.bitIn s.precision) [] =
            .ok (d, out) ∧
          t = { s with
            symOut := out, l := d.l.toNat, u := d.u.toNat, code := d.code.toNat, m := 0
            bitpos := d.pos, sympos := s.messageLength } := by
  simp only [adeBody, require_bind_ok]
  simp only [bind_eq_ok, not_eq_true_iff, pure, Except.pure, Except.ok.injEq,
    decide_eq_true_eq, precOk_iff, Prod.exists, eq_comm (b := t)]

/-! ### Commands that never stop the machine -/

theorem ftCheckFrom_not_stuck (seen es : List FtEntry) (i : Nat) (r : Fault) :
    ftCheckFrom seen i es ≠ .error (.stuck r) := by
  induction es generalizing seen i with
  | nil => exact nofun
  | cons e es ih =>
    unfold ftCheckFrom
    split
    · exact nofun
    · split
      · exact nofun
      · exact ih _ _

theorem ftCheck_not_stuck (ft : List FtEntry) (r : Fault) : ftCheck ft ≠ .error (.stuck r) := by
  unfold ftCheck
  split
  · exact nofun
  · exact ftCheckFrom_not_stuck _ _ _ r

theorem huffmanEncode_not_stuck (ct : List CodeEntry) (maxBits i : Nat) (xs : List Symbol) (out : BitString)
    (r : Fault) : huffmanEncode ct maxBits i xs out ≠ .error (.stuck r) := by
  induction xs generalizing i out with
  | nil => exact nofun
  | cons x xs ih =>
    unfold huffmanEncode
    split
    · exact nofun
    · split
      · exact nofun
      · exact ih _ _

theorem hufStep_not_stuck (tn : List TreeNode) (root node : Nat) (b : Bit) (p : Nat) (r : Fault) :
    hufStep tn root node b p ≠ .error (.stuck r) := by
  unfold hufStep
  dsimp only
  repeat' split
  all_goals (intro h; cases h)

theorem huffmanDecode_not_stuck (tn : List TreeNode) (root maxN p : Nat) (bs : BitString) (node : Nat)
    (out : List Symbol) (r : Fault) : huffmanDecode tn root maxN p bs node out ≠ .error (.stuck r) := by
  induction bs generalizing p node out with
  | nil => exact nofun
  | cons b bs ih =>
    unfold huffmanDecode
    split
    · next h e =>
      intro k
      cases k
      exact hufStep_not_stuck _ _ _ _ _ _ e
    · exact ih _ _ _
    · split
      · exact nofun
      · exact ih _ _ _

end Sys2Proof.Machine
end

