-- ==== Sys2Proof/Laws/Memory.lean ====
section
/-! SUPPORT. The buffers: what a read of one entry gives after a push, and that every operation on them keeps
`Memory.wf`. -/

namespace Sys2Proof.Machine

/-- A read of one entry is a lookup in the list of the space's entries. -/
theorem readEntry_eq (s : State) (space : Space) (i : Nat) : s.readEntry space i = (entriesOf s space)[i]? := by
  cases space <;> simp [State.readEntry, entriesOf]

/-- An entry is read exactly below the length. -/
theorem readEntry_eq_none (s : State) (space : Space) (i : Nat) :
    s.readEntry space i = none ↔ (entriesOf s space).length ≤ i := by
  rw [readEntry_eq, List.getElem?_eq_none_iff]

/-- `Memory.wf` as the eight bounds. -/
theorem memory_wf_iff (s : State) :
    Memory.wf s = true ↔
      s.ft.length ≤ s.params.maxSyms ∧ s.tn.length ≤ s.params.maxNodes ∧ s.ct.length ≤ s.params.maxSyms ∧
      s.im.length ≤ s.params.maxSyms ∧ s.symIn.length ≤ s.params.maxN ∧ s.symOut.length ≤ s.params.maxN ∧
      s.bitIn.length ≤ s.params.maxBits ∧ s.bitOut.length ≤ s.params.maxBits := by
  simp only [Memory.wf, Bool.and_eq_true, decide_eq_true_eq, and_assoc]

theorem memory_wf_resetWith (p : Params) : Memory.wf (State.resetWith p) = true := by
  simp [memory_wf_iff, State.resetWith]

theorem memory_wf_reset : Memory.wf State.reset = true := memory_wf_resetWith _

/-! ### Read after write -/

/-- The entry a push to FT appends is read back at the old length. -/
theorem pushFt_read_new (e : FtEntry) (s : State) (h : s.ft.length < s.params.maxSyms) :
    (pushFt e s).readEntry .ft s.ft.length = some (.freq e) := by
  simp [pushFt_eq, State.readEntry, h]

/-- A push to FT leaves every earlier entry as it was. -/
theorem pushFt_read_old (e : FtEntry) (s : State) (i : Nat) (h : i < s.ft.length) :
    (pushFt e s).readEntry .ft i = s.readEntry .ft i := by
  rw [pushFt_eq]
  simp only [State.readEntry]
  split
  · rw [List.getElem?_append_left h]
  · rfl

theorem pushSym_read_new (x : Symbol) (s : State) (h : s.symIn.length < s.params.maxN) :
    (pushSym x s).readEntry .symIn s.symIn.length = some (.symbol x) := by
  simp [pushSym_eq, State.readEntry, h]

theorem pushSym_read_old (x : Symbol) (s : State) (i : Nat) (h : i < s.symIn.length) :
    (pushSym x s).readEntry .symIn i = s.readEntry .symIn i := by
  rw [pushSym_eq]
  split
  · simp only [State.readEntry]; rw [List.getElem?_append_left h]
  · rfl

theorem pushBit_read_new (b : Bit) (s : State) (h : s.bitIn.length < s.params.maxBits) :
    (pushBit b s).readEntry .bitIn s.bitIn.length = some (.bit b) := by
  simp [pushBit_eq, State.readEntry, h]

theorem pushBit_read_old (b : Bit) (s : State) (i : Nat) (h : i < s.bitIn.length) :
    (pushBit b s).readEntry .bitIn i = s.readEntry .bitIn i := by
  rw [pushBit_eq]
  split
  · simp only [State.readEntry]; rw [List.getElem?_append_left h]
  · rfl

/-- A push to FT leaves the four stream buffers as they were. -/
theorem pushFt_read_streams (e : FtEntry) (s : State) (i : Nat) :
    ∀ space ∈ [Space.symIn, .symOut, .bitIn, .bitOut], (pushFt e s).readEntry space i = s.readEntry space i := by
  rw [pushFt_eq]
  simp [State.readEntry]

/-- A push to SYM_IN leaves every other buffer as it was. -/
theorem pushSym_read_other (x : Symbol) (s : State) (space : Space) (i : Nat) (h : space ≠ .symIn) :
    (pushSym x s).readEntry space i = s.readEntry space i := by
  rw [pushSym_eq]
  split <;> cases space <;> first | rfl | exact absurd rfl h

/-- A push to BIT_IN leaves every other buffer as it was. -/
theorem pushBit_read_other (b : Bit) (s : State) (space : Space) (i : Nat) (h : space ≠ .bitIn) :
    (pushBit b s).readEntry space i = s.readEntry space i := by
  rw [pushBit_eq]
  split <;> cases space <;> first | rfl | exact absurd rfl h

/-! ### Every operation on the buffers keeps `Memory.wf` -/

theorem pushFt_wf (e : FtEntry) (s : State) (h : Memory.wf s = true) : Memory.wf (pushFt e s) = true := by
  rw [memory_wf_iff] at h ⊢
  rw [pushFt_eq]
  refine ⟨?_, Nat.zero_le _, Nat.zero_le _, Nat.zero_le _, h.2.2.2.2⟩
  show (if s.ft.length < s.params.maxSyms then s.ft ++ [e] else s.ft).length ≤ s.params.maxSyms
  split
  · next hlt => simpa using hlt
  · exact h.1

theorem pushSym_wf (x : Symbol) (s : State) (h : Memory.wf s = true) : Memory.wf (pushSym x s) = true := by
  rw [memory_wf_iff] at h ⊢
  rw [pushSym_eq]
  split
  · next hlt => exact ⟨h.1, h.2.1, h.2.2.1, h.2.2.2.1, by simpa using hlt, h.2.2.2.2.2⟩
  · exact h

theorem pushBit_wf (b : Bit) (s : State) (h : Memory.wf s = true) : Memory.wf (pushBit b s) = true := by
  rw [memory_wf_iff] at h ⊢
  rw [pushBit_eq]
  split
  · next hlt => exact ⟨h.1, h.2.1, h.2.2.1, h.2.2.2.1, h.2.2.2.2.1, h.2.2.2.2.2.1, by simpa using hlt, h.2.2.2.2.2.2.2⟩
  · exact h

theorem invalidate_wf (s : State) (h : Memory.wf s = true) : Memory.wf (invalidate s) = true := by
  rw [memory_wf_iff] at h ⊢
  exact ⟨h.1, Nat.zero_le _, Nat.zero_le _, Nat.zero_le _, h.2.2.2.2⟩

theorem report_wf (f : CmdFault) (s : State) (h : Memory.wf s = true) : Memory.wf (report f s) = true := h

theorem clearTarget_wf (s : State) (g : Target) (h : Memory.wf s = true) : Memory.wf (clearTarget s g) = true := by
  rw [memory_wf_iff] at h ⊢
  obtain ⟨h1, h2, h3, h4, h5, h6, h7, h8⟩ := h
  cases g <;> simp only [clearTarget] <;>
    exact ⟨h1, by first | exact h2 | exact Nat.zero_le _,
      by first | exact h3 | exact Nat.zero_le _, by first | exact h4 | exact Nat.zero_le _,
      h5, by first | exact h6 | exact Nat.zero_le _,
      h7, by first | exact h8 | exact Nat.zero_le _⟩

theorem clearTargets_wf (ws : List Target) (s : State) (h : Memory.wf s = true) :
    Memory.wf (clearTargets ws s) = true := by
  induction ws generalizing s with
  | nil => exact h
  | cons g ws ih => exact ih _ (clearTarget_wf s g h)

/-- Taking a fault only empties buffers. -/
theorem takeFault_wf (ws : List Target) (f : CmdFault) (s : State) (h : Memory.wf s = true) :
    Memory.wf (takeFault ws f s) = true := report_wf _ _ (clearTargets_wf ws s h)

end Sys2Proof.Machine
end

