-- ==== Sys2Proof/Laws/PerInstr.lean ====
section
/-! SUPPORT. Facts about every command as syntax, one lemma per constructor. -/

namespace Sys2Proof.Laws.EncodingFields

/-- The word of a command has 0000 in the field `zero` and its opcode, which no other command has, in the field
`opcode` (`30_encoding.md` R90, R91). -/
def Statement (i : Instr) : Prop :=
  zeroField (encode i) = 0 ∧ opcodeOf (opcodeField (encode i)) = some i

theorem bht : Statement .bht := ⟨rfl, rfl⟩
theorem hct : Statement .hct := ⟨rfl, rfl⟩
theorem hen : Statement .hen := ⟨rfl, rfl⟩
theorem hde : Statement .hde := ⟨rfl, rfl⟩
theorem bim : Statement .bim := ⟨rfl, rfl⟩
theorem aen : Statement .aen := ⟨rfl, rfl⟩
theorem ade : Statement .ade := ⟨rfl, rfl⟩
theorem clrft : Statement .clrft := ⟨rfl, rfl⟩
theorem clrsym : Statement .clrsym := ⟨rfl, rfl⟩
theorem clrbit : Statement .clrbit := ⟨rfl, rfl⟩

end Sys2Proof.Laws.EncodingFields
end

