-- ==== Sys2Proof/Laws/Step.lean ====
section
/-! SUPPORT. What one step can do: one lemma per host action, and the inversion of `step`. -/

namespace Sys2Proof.Machine

@[simp] theorem step_idle {s : State} (h : s.pending = []) : step s = .next s := by
  simp [step, h]

/-- A step performs the first pending action on the state without it. -/
@[simp] theorem step_cons (s : State) (a : HostAction) (rest : List HostAction) :
    step { s with pending := a :: rest } = perform a { s with pending := rest } := rfl

/-- Everything a step that goes on can have done. -/
theorem step_next {s t : State} (h : step s = .next t) :
    (s.pending = [] ∧ t = s) ∨
      ∃ a rest, s.pending = a :: rest ∧ perform a { s with pending := rest } = .next t := by
  unfold step at h
  split at h
  · next hp => exact .inl ⟨hp, (Host.Outcome.next.inj h).symm⟩
  · next a rest hp => exact .inr ⟨a, rest, hp, h⟩

/-- Everything an action that is answered can have done. -/
theorem perform_next {a : HostAction} {s t : State} (h : perform a s = .next t) :
    (∃ v i, a = .writeReg 0 v ∧ decode (BitVec.ofNat 8 v) = .ok i ∧
      exec i { s with cmd := BitVec.ofNat 8 v } = .next t) ∨
    (∃ v e, a = .writeReg 0 v ∧ decode (BitVec.ofNat 8 v) = .error e ∧
      t = illegalCommand { s with cmd := BitVec.ofNat 8 v }) ∨
    (∃ v : Nat, t = { s with k := BitVec.ofNat 8 v }) ∨
    (∃ v : Nat, t = { s with n := BitVec.ofNat 32 v }) ∨
    (∃ e : FtEntry, e.sym < 2 ^ s.params.symBits ∧ e.count < 2 ^ s.params.cntBits ∧ t = pushFt e s) ∨
    (∃ x, x < 2 ^ s.params.symBits ∧ t = pushSym x s) ∨
    (∃ b, t = pushBit b s) ∨
    (∃ r : Reply, t = { s with reply := some r }) ∨
    (a = .reset ∧ t = platformReset s) := by
  cases a with
  | writeReg no v =>
    simp only [perform, hostWrite] at h
    split at h
    · next hr =>
      have hno : no = 0 := by
        unfold regOfNumber at hr
        split at hr <;> first | rfl | cases hr
      subst hno
      simp only [runCommand] at h
      split at h
      · next i hd => exact .inl ⟨v, i, rfl, hd, h⟩
      · next e hd => exact .inr (.inl ⟨v, e, rfl, hd, (Host.Outcome.next.inj h).symm⟩)
    · exact .inr (.inr (.inl ⟨v, (Host.Outcome.next.inj h).symm⟩))
    · exact .inr (.inr (.inr (.inl ⟨v, (Host.Outcome.next.inj h).symm⟩)))
    · refine .inr (.inr (.inr (.inr (.inl ⟨ftOperand s.params v, ?_, ?_, (Host.Outcome.next.inj h).symm⟩))))
      · exact Nat.mod_lt _ (Nat.two_pow_pos _)
      · exact Nat.mod_lt _ (Nat.two_pow_pos _)
    · exact .inr (.inr (.inr (.inr (.inr (.inl
        ⟨symOperand s.params v, Nat.mod_lt _ (Nat.two_pow_pos _), (Host.Outcome.next.inj h).symm⟩)))))
    · exact .inr (.inr (.inr (.inr (.inr (.inr (.inl ⟨bitOperand v, (Host.Outcome.next.inj h).symm⟩))))))
    · cases h
    · cases h
  | readReg no =>
    simp only [perform, hostRead] at h
    split at h
    · split at h
      · exact .inr (.inr (.inr (.inr (.inr (.inr (.inr (.inl ⟨_, (Host.Outcome.next.inj h).symm⟩)))))))
      · cases h
    · cases h
  | memRead space i =>
    simp only [perform, memRead] at h
    split at h
    · exact .inr (.inr (.inr (.inr (.inr (.inr (.inr (.inl ⟨_, (Host.Outcome.next.inj h).symm⟩)))))))
    · cases h
  | memWrite space e =>
    simp only [perform, memWrite] at h
    split at h
    · split at h
      · next x =>
        split at h
        · next hx =>
          exact .inr (.inr (.inr (.inr (.inl ⟨x, hx.1, hx.2, (Host.Outcome.next.inj h).symm⟩))))
        · cases h
      · cases h
    · split at h
      · next x =>
        split at h
        · next hx => exact .inr (.inr (.inr (.inr (.inr (.inl ⟨x, hx, (Host.Outcome.next.inj h).symm⟩)))))
        · cases h
      · cases h
    · split at h
      · next b => exact .inr (.inr (.inr (.inr (.inr (.inr (.inl ⟨b, (Host.Outcome.next.inj h).symm⟩))))))
      · cases h
    all_goals cases h
  | reset =>
    exact .inr (.inr (.inr (.inr (.inr (.inr (.inr (.inr ⟨rfl, (Host.Outcome.next.inj h).symm⟩)))))))

end Sys2Proof.Machine
end

