-- ==== Sys2Proof/Tests/Slice0.lean ====
section
/-! SUPPORT. Tests. Every expected value is one of the vectors of `95_test_vectors.md` (named V<n>, S<n>, P<n>) or
read from the table of the rule that is named. The last part holds, for each statement with hypotheses, a concrete state
and operands that meet them all. -/

namespace Sys2Proof.Tests

open Sys2Proof.Machine

/-! ### Helpers -/

/-- Small parameters. -/
def small : Params := ⟨8, 4, 8, 8, 8, 24⟩

/-- The block after reset, with the small parameters. -/
def blank : State := State.resetWith small

/-- What `f` reads from the next state, if there is one. -/
def after {α : Type} (o : Host.Outcome State Fault Refusal) (f : State → α) : Option α :=
  match o with
  | .next s => some (f s)
  | _ => none

/-- The reason of a refusal, if it is one. -/
def refusal (o : Host.Outcome State Fault Refusal) : Option Refusal :=
  match o with
  | .refused r => some r
  | _ => none

/-- The next state, or `s` where there is none. -/
def nextOr (s : State) (o : Host.Outcome State Fault Refusal) : State := (after o id).getD s

/-- The step that performs `a` in `s`. -/
def perform1 (a : HostAction) (s : State) : Host.Outcome State Fault Refusal := step { s with pending := [a] }

/-- A bit string from its characters. -/
def bits (s : String) : BitString := s.toList.map (· == '1')

/-- The table a:2, b:1, c:1 of S1. -/
def abcTable : List FtEntry := [⟨97, 2⟩, ⟨98, 1⟩, ⟨99, 1⟩]

/-- The tree of S1. -/
def abcTree : List TreeNode :=
  [⟨.leaf, 97, 2, 0, 0⟩, ⟨.leaf, 98, 1, 0, 0⟩, ⟨.leaf, 99, 1, 0, 0⟩, ⟨.internal, 0, 2, 1, 2⟩, ⟨.internal, 0, 4, 0, 3⟩]

/-- The code table of S1. -/
def abcCodes : List CodeEntry := [⟨97, 1, bits "0"⟩, ⟨98, 2, bits "10"⟩, ⟨99, 2, bits "11"⟩]

/-- The model of V26. -/
def abcModel : List Interval := [⟨97, 0, 2⟩, ⟨98, 2, 3⟩, ⟨99, 3, 4⟩]

/-- S1's table with its tree, codes and model all valid, an input message, an input stream, K and N. -/
def abc (xs : List Symbol) (bs : BitString) (k : BitVec 8) (n : BitVec 32) : State :=
  { blank with
    ft := abcTable, tn := abcTree, root := 4, ct := abcCodes, im := abcModel, t := 4, status := 0x0007#16
    symIn := xs, bitIn := bs, k := k, n := n }

/-- The one-symbol table A:4 of V6, V11, V28, all valid, with an input stream. -/
def single (bs : BitString) : State :=
  { blank with
    ft := [⟨65, 4⟩], tn := [⟨.leaf, 65, 4, 0, 0⟩], root := 0, ct := [⟨65, 1, bits "0"⟩], im := [⟨65, 0, 4⟩], t := 4
    status := 0x0007#16, bitIn := bs }

/-- S1's table after BHT and without HCT: the tree is valid, the code table is not. -/
def abcTreeOnly (bs : BitString) : State :=
  { blank with ft := abcTable, tn := abcTree, root := 4, status := 0x0001#16, bitIn := bs }

/-! ### Well-formedness -/

theorem test_params_suggested_wf : Params.suggested.wf = true ∧ small.wf = true := by decide +kernel

/-- One parameter out of the range of `00_scope.md` R6 at a time. -/
theorem test_params_ill_formed :
    [{ small with symBits := 0 }, { small with maxSyms := 0 }, { small with maxSyms := 257 },
      { small with cntBits := 0 }, { small with kMax := 1 }, { small with kMax := 256 }, { small with maxN := 0 },
      { small with maxN := 2 ^ 32 }, { small with maxBits := 0 }].map Params.wf = List.replicate 9 false := by
  decide +kernel

/-- An action of each kind that `20_memory.md` R69 refuses, and an entry too wide for its space. -/
theorem test_actions_ill_formed :
    [HostAction.writeReg 1 0, .writeReg 6 0, .writeReg 22 0, .writeReg 26 0, .readReg 23, .readReg 25, .readReg 26,
      .memWrite .ft (.freq ⟨256, 1⟩), .memWrite .ft (.freq ⟨1, 256⟩), .memWrite .ft (.bit true),
      .memWrite .symIn (.symbol 256), .memWrite .bitIn (.symbol 1), .memWrite .tn (.node ⟨.leaf, 1, 1, 0, 0⟩),
      .memWrite .ct (.code ⟨1, 1, [false]⟩), .memWrite .im (.interval ⟨1, 0, 1⟩), .memWrite .symOut (.symbol 1),
      .memWrite .bitOut (.bit true)].map (HostAction.wf small) = List.replicate 17 false := by
  decide +kernel

theorem test_actions_well_formed :
    [HostAction.writeReg 0 999, .writeReg 4 1, .writeReg 5 1, .writeReg 23 1, .writeReg 24 1, .writeReg 25 1, .readReg 0,
      .readReg 22, .memRead .tn 3, .memWrite .ft (.freq ⟨255, 255⟩), .memWrite .symIn (.symbol 255),
      .memWrite .bitIn (.bit true), .reset].map (HostAction.wf small) = List.replicate 13 true := by
  decide +kernel

/-- No command has an operand that could be ill formed (`30_encoding.md` R92). -/
theorem test_commands_well_formed :
    [Instr.bht, .hct, .hen, .hde, .bim, .aen, .ade, .clrft, .clrsym, .clrbit].all Instr.wf = true := by decide

/-- A state whose SYM_IN is past its capacity is not well formed. -/
theorem test_memory_ill_formed :
    Memory.wf { blank with symIn := List.replicate 9 1 } = false ∧ Memory.wf State.reset = true := by decide +kernel

/-! ### Decoding: the ten words of `30_encoding.md` R91, bit by bit, bits 7:4 then bits 3:0 -/

theorem test_decode_bht : (decode (0b0000#4 ++ 0b0001#4)).toOption = some .bht := by decide
theorem test_decode_hct : (decode (0b0000#4 ++ 0b0010#4)).toOption = some .hct := by decide
theorem test_decode_hen : (decode (0b0000#4 ++ 0b0011#4)).toOption = some .hen := by decide
theorem test_decode_hde : (decode (0b0000#4 ++ 0b0100#4)).toOption = some .hde := by decide
theorem test_decode_bim : (decode (0b0000#4 ++ 0b0101#4)).toOption = some .bim := by decide
theorem test_decode_aen : (decode (0b0000#4 ++ 0b0110#4)).toOption = some .aen := by decide
theorem test_decode_ade : (decode (0b0000#4 ++ 0b0111#4)).toOption = some .ade := by decide
theorem test_decode_clrft : (decode (0b0000#4 ++ 0b1000#4)).toOption = some .clrft := by decide
theorem test_decode_clrsym : (decode (0b0000#4 ++ 0b1001#4)).toOption = some .clrsym := by decide
theorem test_decode_clrbit : (decode (0b0000#4 ++ 0b1010#4)).toOption = some .clrbit := by decide

/-- V54: the illegal values, each rejected by name. -/
theorem test_decode_rejects_by_name :
    (decode 0x00#8 matches .error (.noSuchOpcode 0x0#4)) ∧ (decode 0x0B#8 matches .error (.noSuchOpcode 0xB#4)) ∧
    (decode 0x0F#8 matches .error (.noSuchOpcode 0xF#4)) ∧ (decode 0x11#8 matches .error (.highBitsSet 0x1#4)) ∧
    (decode 0x16#8 matches .error (.highBitsSet 0x1#4)) ∧ (decode 0xFF#8 matches .error (.highBitsSet 0xF#4)) := by
  decide

/-- 246 of the 256 values are illegal (`30_encoding.md` R93). -/
theorem test_decode_count :
    ((List.range 256).filter fun c => (decode (BitVec.ofNat 8 c)).toOption.isNone).length = 246 := by decide +kernel

theorem test_decodeTableWord :
    decodeTableWord 8 0x07 = some .ade ∧ decodeTableWord 8 0x17 = none ∧ decodeTableWord 8 0 = none := by decide

/-- `LOADFT` of P1 in actions, and names of `30_encoding.md` R96. -/
theorem test_script_expansion :
    ScriptLine.expand blank (.loadSym [97]) = [.writeReg 0 0x09, .memWrite .symIn (.symbol 97)] ∧
    commandNamed "CLRBIT" = some .clrbit ∧ commandNamed "bht" = none ∧ quotedSymbol 'a' = 97 := by decide

/-! ### Host actions and the step -/

/-- The values of P1's `LOADFT`: register 23 takes `sym + count * 2^SYM_BITS`. -/
theorem test_push_ft :
    after (perform1 (.writeReg 23 0x0261) blank) (fun t => t.ft) = some [⟨0x61, 2⟩] := by decide

/-- V52, P5: a push to FT invalidates. -/
theorem test_push_ft_invalidates :
    after (perform1 (.writeReg 23 0x0264) (abc [] [] 0 0)) (fun t => (t.ft.length, t.tn, t.t, t.status)) =
      some (4, [], 0, 0) := by decide

/-- V18b: a push into a full SYM_IN is dropped. -/
theorem test_push_sym_full :
    after (perform1 (.writeReg 24 9) { blank with symIn := List.replicate 8 1 }) (fun t => (t.symIn.length, t.status)) =
      some (8, 0x0010#16) := by decide

/-- V54: 0x105 written to CMD runs BIM. -/
theorem test_cmd_takes_low_byte :
    after (perform1 (.writeReg 0 0x105) { blank with ft := abcTable }) (fun t => (t.cmd, t.im, t.status)) =
      some (0x05#8, abcModel, 0x0004#16) := by decide

/-- V54: 0x11 is illegal from a state with STATUS = 0x0004, and BHT is not run. -/
theorem test_cmd_illegal :
    after (perform1 (.writeReg 0 0x11) { blank with status := 0x0004#16, ft := abcTable })
      (fun t => (t.cmd, t.status, t.errpos, t.tn)) = some (0x11#8, 0x0504#16, 17, []) := by decide

/-- P3: HDE as the first command after reset reports NotReady. -/
theorem test_first_command :
    after (step (State.reset.withFetchWord 8 0x04)) (fun t => (t.cmd, t.status, t.errpos)) =
      some (0x04#8, 0x0600#16, 0) := by decide

/-- `20_memory.md` R67, R68: a register and an entry read. -/
theorem test_reads :
    after (perform1 (.readReg 16) (abc [] [] 0 0)) (fun t => t.reply) = some (some (.value 5)) ∧
    after (perform1 (.memRead .ct 1) (abc [] [] 0 0)) (fun t => t.reply) =
      some (some (.entry (.code ⟨98, 2, [true, false]⟩))) := by decide

/-! ### The commands -/

/-- S1. -/
theorem test_bht_S1 :
    after (exec .bht { blank with ft := abcTable }) (fun t => (t.tn, t.root, t.status)) =
      some (abcTree, 4, 0x0001#16) := by decide

/-- `10_state.md` R23: the third entry repeats a symbol; the older tree and codes are discarded (`60_exceptions.md` R236). -/
theorem test_bht_fault :
    after (exec .bht { abc [] [] 0 0 with ft := [⟨97, 1⟩, ⟨98, 1⟩, ⟨97, 2⟩] })
      (fun t => (t.tn, t.ct, t.status, t.errpos, t.errsym)) = some ([], [], 0x0104#16, 2, 97) := by decide

/-- S1. -/
theorem test_hct_S1 :
    after (exec .hct { abc [] [] 0 0 with ct := [], status := 0x0001#16 }) (fun t => (t.ct, t.status)) =
      some (abcCodes, 0x0003#16) := by decide

/-- V11: the placeholder code. -/
theorem test_hct_V11 :
    after (exec .hct { single [] with ct := [], status := 0x0001#16 }) (fun t => t.ct) =
      some [⟨65, 1, [false]⟩] := by decide

/-- V14b. -/
theorem test_hen_V14b :
    after (exec .hen (abc [99, 97, 98] [] 0 0)) (fun t => (t.bitOut, t.bitpos, t.sympos)) =
      some (bits "11010", 5, 3) := by decide

/-- V16. -/
theorem test_hen_V16 :
    after (exec .hen (abc [97, 98, 122] [] 0 0)) (fun t => (t.bitOut, t.status, t.errpos, t.errsym)) =
      some ([], 0x0407#16, 2, 122) := by decide

/-- V19. -/
theorem test_hde_V19 :
    after (exec .hde (abc [] (bits "001011") 0 0)) (fun t => (t.symOut, t.node, t.bitpos)) =
      some ([97, 97, 98, 99], 4, 6) := by decide

/-- V24 (and P4): bit `1` on the single leaf. -/
theorem test_hde_V24 :
    after (exec .hde (single (bits "0010"))) (fun t => (t.symOut, t.status, t.errpos)) =
      some ([], 0x0207#16, 2) := by decide

/-- V27. -/
theorem test_bim_V27 :
    after (exec .bim { blank with ft := [⟨98, 1⟩, ⟨97, 2⟩, ⟨99, 1⟩] }) (fun t => (t.im, t.t, t.status)) =
      some ([⟨98, 0, 1⟩, ⟨97, 1, 3⟩, ⟨99, 3, 4⟩], 4, 0x0004#16) := by decide

/-- `60_exceptions.md` R232: an empty table. -/
theorem test_bim_empty :
    after (exec .bim { blank with status := 0x0004#16, t := 4 }) (fun t => (t.t, t.status, t.errpos, t.errsym)) =
      some (0, 0x0100#16, 0, 0) := by decide

/-- V35: T is no power of two, E2 and E3, three pending bits at the flush. -/
theorem test_aen_V35 :
    after (exec .aen { abc [97, 99, 98] [] 4 0 with im := [⟨97, 0, 1⟩, ⟨98, 1, 2⟩, ⟨99, 2, 3⟩], t := 3 })
      (fun t => (t.bitOut, t.l, t.u, t.m, t.bitpos)) = some (bits "001111", 2, 11, 3, 6) := by decide +kernel

/-- V33: E2 flushes a pending bit, K = 5. -/
theorem test_aen_V33 :
    after (exec .aen { abc [98, 97, 98] [] 5 0 with im := [⟨97, 0, 1⟩, ⟨98, 1, 3⟩, ⟨99, 3, 4⟩] })
      (fun t => (t.bitOut, t.l, t.u, t.m)) = some (bits "010011", 0, 31, 1) := by decide +kernel

/-- V41d: the inverse of V35. -/
theorem test_ade_V41d :
    after (exec .ade { abc [] (bits "001111") 4 3 with im := [⟨97, 0, 1⟩, ⟨98, 1, 2⟩, ⟨99, 2, 3⟩], t := 3 })
      (fun t => (t.symOut, t.l, t.u, t.code, t.bitpos)) = some ([97, 99, 98], 2, 11, 4, 8) := by decide +kernel

/-- V47: N too large decodes on past the end, with E1, E2 and padding. -/
theorem test_ade_V47 :
    after (exec .ade (abc [] (bits "00101101") 4 6)) (fun t => (t.symOut, t.code, t.bitpos)) =
      some ([97, 97, 98, 99, 97, 98], 0, 13) := by decide +kernel

/-- V52. -/
theorem test_clrft_V52 :
    after (exec .clrft (abc [97] [] 4 0)) (fun t => (t.ft, t.tn, t.im, t.status, t.symIn)) =
      some ([], [], [], 0, [97]) := by decide

/-- V53: after V16's fault. -/
theorem test_clrsym_V53 :
    after (exec .clrsym { abc [97] [] 0 0 with status := 0x0413#16, errpos := 2, errsym := 122 })
      (fun t => (t.symIn, t.status, t.errpos, t.errsym)) = some ([], 0x0003#16, 0, 0) := by decide

/-- V53. -/
theorem test_clrbit_V53 :
    after (exec .clrbit { blank with bitIn := [true], status := 0x0020#16 }) (fun t => (t.bitIn, t.status)) =
      some ([], 0) := by decide

/-! ### The invariants hold of the states used as witnesses -/

theorem codes_abc : CodeInv abcTable abcTree 4 abcCodes :=
  ⟨rfl, (by decide : ∀ i < abcTable.length, codeEntryOk abcTable abcTree 4 abcCodes i = true)⟩

theorem inv_abc (xs : List Symbol) (bs : BitString) (k : BitVec 8) (n : BitVec 32) (hx : xs.length ≤ 8)
    (hb : bs.length ≤ 24) : Inv (abc xs bs k n) where
  params_wf := (by decide +kernel : small.wf = true)
  capacity := by simp [Memory.wf, abc, blank, State.resetWith, small, Params.maxNodes, abcTable, abcTree, abcCodes, abcModel, hx, hb]
  no_tree := fun h => absurd h (by decide : ¬ getFlag 0x0007#16 .treeV = false)
  no_codes := fun h => absurd h (by decide : ¬ getFlag 0x0007#16 .ctV = false)
  no_model := fun h => absurd h (by decide : ¬ getFlag 0x0007#16 .imV = false)
  tree := fun _ => ⟨rfl, rfl, (by decide : ∀ j < abcTree.length, abcTable.length ≤ j → innerNodeOk abcTree j = true),
    (by decide : ∀ i < abcTree.length - 1, (childIndices abcTree).count i = 1), rfl, rfl⟩
  codes := fun _ => codes_abc
  model := fun _ => ⟨rfl, (by decide : ∀ i < abcTable.length, intervalOk abcTable abcModel i = true), rfl,
    (by decide : ∀ i < abcTable.length - 1, abcModel[i + 1]?.map Interval.low = abcModel[i]?.map Interval.high), rfl⟩
  table := fun _ => ⟨(by decide : getFlag 0x0007#16 .ftOvf = false), (by decide : FtWellFormed abcTable)⟩
  reserved := (by decide : reservedBits 0x0007#16 = 0)

theorem inv_abcTreeOnly (bs : BitString) (hb : bs.length ≤ 24) : Inv (abcTreeOnly bs) where
  params_wf := (by decide +kernel : small.wf = true)
  capacity := by
    simp [Memory.wf, abcTreeOnly, blank, State.resetWith, small, Params.maxNodes, abcTable, abcTree, hb]
  no_tree := fun h => absurd h (by decide : ¬ getFlag 0x0001#16 .treeV = false)
  no_codes := fun _ => rfl
  no_model := fun _ => ⟨rfl, rfl⟩
  tree := fun _ => (inv_abc [] [] 0 0 (by decide) (by decide)).tree rfl
  codes := fun h => absurd h (by decide : ¬ getFlag 0x0001#16 .ctV = true)
  model := fun h => absurd h (by decide : ¬ getFlag 0x0001#16 .imV = true)
  table := fun _ => ⟨(by decide : getFlag 0x0001#16 .ftOvf = false), (by decide : FtWellFormed abcTable)⟩
  reserved := (by decide : reservedBits 0x0001#16 = 0)

theorem inv_single (bs : BitString) (hb : bs.length ≤ 24) : Inv (single bs) where
  params_wf := (by decide +kernel : small.wf = true)
  capacity := by simp [Memory.wf, single, blank, State.resetWith, small, Params.maxNodes, hb]
  no_tree := fun h => absurd h (by decide : ¬ getFlag 0x0007#16 .treeV = false)
  no_codes := fun h => absurd h (by decide : ¬ getFlag 0x0007#16 .ctV = false)
  no_model := fun h => absurd h (by decide : ¬ getFlag 0x0007#16 .imV = false)
  tree := fun _ => ⟨rfl, rfl,
    (by decide : ∀ j < 1, 1 ≤ j → innerNodeOk [⟨.leaf, 65, 4, 0, 0⟩] j = true),
    (by decide : ∀ i < 1 - 1, (childIndices [⟨.leaf, 65, 4, 0, 0⟩]).count i = 1), rfl, rfl⟩
  codes := fun _ => ⟨rfl,
    (by decide : ∀ i < 1, codeEntryOk [⟨65, 4⟩] [⟨.leaf, 65, 4, 0, 0⟩] 0 [⟨65, 1, [false]⟩] i = true)⟩
  model := fun _ => ⟨rfl, (by decide : ∀ i < 1, intervalOk [⟨65, 4⟩] [⟨65, 0, 4⟩] i = true), rfl,
    (by decide : ∀ i < 1 - 1, ([⟨65, 0, 4⟩] : List Interval)[i + 1]?.map Interval.low =
      ([⟨65, 0, 4⟩] : List Interval)[i]?.map Interval.high), rfl⟩
  table := fun _ => ⟨(by decide : getFlag 0x0007#16 .ftOvf = false), (by decide : FtWellFormed [⟨65, 4⟩])⟩
  reserved := (by decide : reservedBits 0x0007#16 = 0)

theorem report_abc : ReportInv (abc [97] [true] 4 1) where
  reserved := rfl
  code_range := by decide
  success_zero := fun _ => ⟨rfl, rfl⟩
  symbol_only := fun h => absurd rfl h

/-- A report of an unknown symbol, from V16. -/
theorem report_fault : ReportInv { abc [97] [] 4 1 with status := 0x0407#16, errpos := 2, errsym := 122 } where
  reserved := rfl
  code_range := by decide
  success_zero := fun h => absurd h (by decide)
  symbol_only := fun _ => .inr rfl

theorem capacity_abc : CapacityInv (abc [97] [true] 4 1) where
  buffers := by decide
  code_len := by decide

theorem widths_abc : WidthsFit (abc [97] [true] 4 1) where
  registers := by
    intro r v h
    cases r <;> simp only [State.regValue, Option.some.injEq, reduceCtorEq] at h <;> subst h <;> decide +kernel
  entries := ⟨by decide, by decide, by decide, by decide, by decide, by decide⟩

/-! ### A state and operands that meet the hypotheses of each statement

`witness_<Name>` is about `Obligations.<Name>`; a clause with its own hypotheses has its own values, at the ends of its
range. `(abc …)` and `(single …)` meet `Inv` by `inv_abc` and `inv_single`. -/

theorem witness_DecodeInvertsEncode : decode 0x0A#8 = .ok .clrbit := by rfl

theorem witness_StepRunsTheDecodedCommand :
    decode (BitVec.ofNat 8 1) = .ok .bht ∧ decode (BitVec.ofNat 8 0x10A) = .ok .clrbit := ⟨rfl, rfl⟩

theorem witness_IllegalCommandChangesOnlyTheReport :
    ∀ v ∈ [0, 0x0B, 0x10, 0xFF, 0x100, 0x10B], v % 256 = 0 ∨ 0x0B ≤ v % 256 := by decide

/-- Both clauses at the largest entry, below the capacity of FT and at it. -/
theorem witness_FtPushAppendsOrDropsAndInvalidates :
    (0xFFFF % 2 ^ small.symBits = 255 ∧ 0xFFFF / 2 ^ small.symBits % 2 ^ small.cntBits = 255) ∧
    255 < 2 ^ small.symBits ∧ 255 < 2 ^ small.cntBits ∧
    (abc [] [] 0 0).ft.length < small.maxSyms ∧ ¬ ({ blank with ft := abcTable ++ abcTable }).ft.length < small.maxSyms := by
  decide

theorem witness_SymPushAppendsOrDrops :
    255 < 2 ^ small.symBits ∧ blank.symIn.length < small.maxN ∧
    ¬ ({ blank with symIn := List.replicate 8 1 }).symIn.length < small.maxN := by decide

theorem witness_BitPushAppendsOrDrops :
    (7 % 2 = if true then 1 else 0) ∧ (6 % 2 = if false then 1 else 0) ∧
    HostAction.memWrite .bitIn (.bit true) ∈ [HostAction.writeReg 25 7, HostAction.memWrite .bitIn (.bit true)] := by
  decide

theorem witness_RegisterReadsReturnTheValueAndChangeNothing : 0 ≤ 22 ∧ 22 ≤ 22 ∧ 22 < 23 ∧ 22 < 26 := by decide

/-- The clauses of `20_memory.md` R69 at the ends of their ranges. -/
theorem witness_AccessesOfRule69AreRefused :
    (∀ no ∈ [1, 3, 6, 22], (1 ≤ no ∧ no ≤ 3) ∨ (6 ≤ no ∧ no ≤ 22)) ∧ (∀ no ∈ [23, 25], 23 ≤ no ∧ no ≤ 25) ∧ 25 < 26 ∧
    (entriesOf (abc [] [] 0 0) .ft).length ≤ 3 ∧ Space.bitOut ∈ [Space.tn, .ct, .im, .symOut, .bitOut] ∧
    [refusal (perform1 (.writeReg 22 0) blank), refusal (perform1 (.readReg 23) blank),
      refusal (perform1 (.readReg 26) blank), refusal (perform1 (.memRead .ft 3) (abc [] [] 0 0)),
      refusal (perform1 (.memWrite .tn (.bit true)) blank)] =
      [some (.writeReadOnly 22), some (.readPort 23), some (.noSuchRegister 26), some (.readPastEnd .ft 3),
        some (.noWritePort .tn)] := by
  decide

theorem witness_RefusedExactlyWhenNotWellFormed :
    (HostAction.writeReg 1 0).wf small = false ∧ (HostAction.memRead .ft 2).wf small = true ∧
    2 < (entriesOf (abc [] [] 0 0) .ft).length ∧ (HostAction.writeReg 0 0).wf small = true := by decide

theorem witness_IdleWithoutPendingActions : (abc [97] [true] 4 1).pending = [] := rfl

/-- The hypotheses of `BhtBuildsTheTreeOfAWellFormedTable` and `BimBuildsTheCumulativeIntervals`. -/
theorem witness_BhtBuildsTheTreeOfAWellFormedTable :
    (abc [] [] 0 0).flag .ftOvf = false ∧ FtWellFormed (abc [] [] 0 0).ft := by decide

theorem witness_BimBuildsTheCumulativeIntervals :
    (single []).flag .ftOvf = false ∧ FtWellFormed (single []).ft := by decide

theorem witness_BhtMergesTheTwoLeastKeys :
    (abc [] [] 0 0).flag .ftOvf = false ∧ FtWellFormed (abc [] [] 0 0).ft ∧
    exec .bht (abc [] [] 0 0) = .next (nextOr blank (exec .bht (abc [] [] 0 0))) := ⟨by decide, by decide, rfl⟩

/-- The empty table, a zero count at index 0, a repeated symbol at the last index. -/
theorem witness_TableFaultsReportTheFirstOffendingEntry :
    blank.flag .ftOvf = false ∧ blank.ft = [] ∧
    (([⟨97, 0⟩, ⟨98, 1⟩] : List FtEntry)[0]? = some ⟨97, 0⟩ ∧ offends [⟨97, 0⟩, ⟨98, 1⟩] 0 = true ∧
      ∀ j < 0, offends [⟨97, 0⟩, ⟨98, 1⟩] j = false) ∧
    (([⟨97, 1⟩, ⟨98, 1⟩, ⟨97, 1⟩] : List FtEntry)[2]? = some ⟨97, 1⟩ ∧
      offends [⟨97, 1⟩, ⟨98, 1⟩, ⟨97, 1⟩] 2 = true ∧
      ∀ j < 2, offends [⟨97, 1⟩, ⟨98, 1⟩, ⟨97, 1⟩] j = false) := by decide

theorem witness_HctGivesEachLeafItsPath : Inv (abc [] [] 0 0) ∧ (abc [] [] 0 0).flag .treeV = true :=
  ⟨inv_abc _ _ _ _ (by decide) (by decide), rfl⟩

/-- Entries 1 and 2, whose codes share their first bit, and the one entry of a table of one symbol. -/
theorem witness_ValidCodesArePrefixFree :
    (Inv (abc [] [] 0 0) ∧ (abc [] [] 0 0).flag .ctV = true ∧ (abc [] [] 0 0).ct[1]? = some ⟨98, 2, bits "10"⟩ ∧
      (abc [] [] 0 0).ct[2]? = some ⟨99, 2, bits "11"⟩) ∧
    (Inv (single []) ∧ (single []).flag .ctV = true ∧ (⟨65, 1, bits "0"⟩ : CodeEntry) ∈ (single []).ct) :=
  ⟨⟨inv_abc _ _ _ _ (by decide) (by decide), rfl, rfl, rfl⟩, ⟨inv_single _ (by decide), rfl, by decide⟩⟩

/-- A table of three symbols and a table of one. -/
theorem witness_CodeLengthsAreBounded :
    (Inv (abc [] [] 0 0) ∧ (abc [] [] 0 0).flag .ctV = true ∧ (⟨99, 2, bits "11"⟩ : CodeEntry) ∈ (abc [] [] 0 0).ct ∧
      2 ≤ (abc [] [] 0 0).ft.length) ∧
    (Inv (single []) ∧ (single []).flag .ctV = true ∧ (⟨65, 1, bits "0"⟩ : CodeEntry) ∈ (single []).ct ∧
      (single []).ft.length = 1) :=
  ⟨⟨inv_abc _ _ _ _ (by decide) (by decide), rfl, by decide, by decide⟩,
    ⟨inv_single _ (by decide), rfl, by decide, by decide⟩⟩

/-- Three symbols, and one. -/
theorem witness_CodesAreComplete :
    (Inv (abc [] [] 0 0) ∧ (abc [] [] 0 0).flag .ctV = true ∧ 2 ≤ (abc [] [] 0 0).ft.length) ∧
    (Inv (single []) ∧ (single []).flag .ctV = true ∧ (single []).ft.length = 1) :=
  ⟨⟨inv_abc _ _ _ _ (by decide) (by decide), rfl, by decide⟩, ⟨inv_single _ (by decide), rfl, rfl⟩⟩

/-- S1's table, and any code of three strings none of which is a prefix of another. -/
theorem witness_HuffmanCodesAreOptimal :
    ∃ t u, exec .bht (abc [] [] 0 0) = .next t ∧ t.err = ErrCode.success.code ∧ exec .hct t = .next u ∧
      2 ≤ (abc [] [] 0 0).ft.length ∧ [bits "00", bits "01", bits "1"].length = (abc [] [] 0 0).ft.length ∧
      (∀ i < 3, ∀ j < 3, i ≠ j →
        ¬ ([bits "00", bits "01", bits "1"].getD i []).isPrefixOf ([bits "00", bits "01", bits "1"].getD j []) = true) :=
  ⟨nextOr blank (exec .bht (abc [] [] 0 0)), nextOr blank (exec .hct (nextOr blank (exec .bht (abc [] [] 0 0)))),
    rfl, rfl, rfl, by decide, by decide, by decide⟩

/-- The message `cab`, whose codes have five bits. -/
theorem witness_HenConcatenatesTheCodes :
    let s := abc [99, 97, 98] [] 0 0
    let cs : List CodeEntry := [⟨99, 2, bits "11"⟩, ⟨97, 1, bits "0"⟩, ⟨98, 2, bits "10"⟩]
    s.flag .ctV = true ∧ s.flag .symOvf = false ∧ (∀ c ∈ s.ct, c.len = c.bits.length) ∧
    s.symIn.map (fun x => s.ct.find? fun e => e.sym == x) = cs.map some ∧
    (cs.map CodeEntry.len).sum ≤ s.params.maxBits := by decide

/-- V16 (an unknown symbol) and V17 (MAX_BITS = 5). -/
theorem witness_HenFaultsAtTheFirstBadSymbol :
    (let s := abc [97, 98, 122] [] 0 0
     let cs : List CodeEntry := [⟨97, 1, bits "0"⟩, ⟨98, 2, bits "10"⟩]
     s.flag .ctV = true ∧ s.flag .symOvf = false ∧ (∀ c ∈ s.ct, c.len = c.bits.length) ∧
     s.symIn = [97, 98] ++ 122 :: [] ∧ [97, 98].map (fun y => s.ct.find? fun e => e.sym == y) = cs.map some ∧
     (cs.map CodeEntry.len).sum ≤ s.params.maxBits ∧ ∀ e ∈ s.ct, e.sym ≠ 122) ∧
    (let s := { abc [98, 99, 98] [] 0 0 with params := { small with maxBits := 5 } }
     let cs : List CodeEntry := [⟨98, 2, bits "10"⟩, ⟨99, 2, bits "11"⟩]
     s.flag .ctV = true ∧ s.flag .symOvf = false ∧ (∀ c ∈ s.ct, c.len = c.bits.length) ∧
     s.symIn = [98, 99] ++ 98 :: [] ∧ [98, 99].map (fun y => s.ct.find? fun e => e.sym == y) = cs.map some ∧
     (cs.map CodeEntry.len).sum ≤ s.params.maxBits ∧
     (s.ct.find? fun e => e.sym == 98) = some ⟨98, 2, bits "10"⟩ ∧
     s.params.maxBits < (cs.map CodeEntry.len).sum + 2) := by decide

/-- V23b, with and without a valid CT. -/
theorem witness_HdeDecodesConcatenatedCodes :
    let cs : List CodeEntry := [⟨99, 2, bits "11"⟩, ⟨98, 2, bits "10"⟩, ⟨98, 2, bits "10"⟩]
    ∀ s ∈ [abc [] (bits "111010") 0 0, abcTreeOnly (bits "111010")],
      Inv s ∧ s.flag .treeV = true ∧ s.flag .bitOvf = false ∧ CodeInv s.ft s.tn s.root abcCodes ∧
      (∀ c ∈ cs, c ∈ abcCodes) ∧ cs.length ≤ s.params.maxN ∧ s.bitIn = cs.flatMap CodeEntry.bits := by
  intro cs s hs
  simp only [List.mem_cons, List.not_mem_nil, or_false] at hs
  rcases hs with rfl | rfl
  · exact ⟨inv_abc _ _ _ _ (by decide) (by decide), rfl, rfl, codes_abc, by decide, by decide, rfl⟩
  · exact ⟨inv_abcTreeOnly _ (by decide), rfl, rfl, codes_abc, by decide, by decide, rfl⟩

/-- V20: `00101` ends at node 3. -/
theorem witness_HdeFaultsWhenTheStreamEndsMidCode :
    let s := abcTreeOnly (bits "00101")
    let cs : List CodeEntry := [⟨97, 1, bits "0"⟩, ⟨97, 1, bits "0"⟩, ⟨98, 2, bits "10"⟩]
    Inv s ∧ s.flag .treeV = true ∧ s.flag .bitOvf = false ∧ CodeInv s.ft s.tn s.root abcCodes ∧
    (∀ c ∈ cs, c ∈ abcCodes) ∧ cs.length ≤ s.params.maxN ∧ bits "1" ≠ [] ∧ follow s.tn s.root (bits "1") = some 3 ∧
    s.ft.length ≤ 3 ∧ s.bitIn = cs.flatMap CodeEntry.bits ++ bits "1" :=
  ⟨inv_abcTreeOnly _ (by decide), rfl, rfl, codes_abc, by decide, by decide, by decide, rfl, by decide, rfl⟩

/-- MAX_N = 8: eight symbols `a`, then `b`. -/
theorem witness_HdeFaultsAtTheSymbolThatDoesNotFit :
    let s := abcTreeOnly (bits "0000000010")
    let cs : List CodeEntry := List.replicate 8 ⟨97, 1, bits "0"⟩
    Inv s ∧ s.flag .treeV = true ∧ s.flag .bitOvf = false ∧ CodeInv s.ft s.tn s.root abcCodes ∧
    (∀ x ∈ cs, x ∈ abcCodes) ∧ (⟨98, 2, bits "10"⟩ : CodeEntry) ∈ abcCodes ∧ cs.length = s.params.maxN ∧
    s.bitIn = cs.flatMap CodeEntry.bits ++ bits "10" ++ [] :=
  ⟨inv_abcTreeOnly _ (by decide), rfl, rfl, codes_abc, by decide, by decide, rfl, rfl⟩

/-- V24: `0000` and `0010`. -/
theorem witness_HdeOnASingleLeaf :
    (∀ bs ∈ [bits "0000", bits "0010"], bs.length ≤ 24) ∧ Inv (single (bits "0000")) ∧ Inv (single (bits "0010")) ∧
    (single []).flag .treeV = true ∧ (single []).flag .bitOvf = false ∧ (single []).ft = [⟨65, 4⟩] ∧ 4 ≤ small.maxN ∧
    bits "0000" = List.replicate 4 false ∧ bits "0010" = List.replicate 2 false ++ true :: [false] :=
  ⟨by decide, inv_single _ (by decide), inv_single _ (by decide), rfl, rfl, rfl, by decide, rfl, rfl⟩

/-- V14, then V19. -/
theorem witness_HuffmanRoundTrip :
    let s := abc [97, 97, 98, 99] [] 0 0
    ∃ s', let d := abc [] (bits "001011") 0 0
    Inv s ∧ s.flag .ctV = true ∧ exec .hen s = .next s' ∧ s'.err = ErrCode.success.code ∧ d.params = s.params ∧
    d.tn = s.tn ∧ d.root = s.root ∧ d.flag .treeV = true ∧ d.flag .bitOvf = false ∧ d.bitIn = s'.bitOut :=
  ⟨nextOr blank (exec .hen (abc [97, 97, 98, 99] [] 0 0)), inv_abc _ _ _ _ (by decide) (by decide), rfl, rfl, rfl, rfl,
    rfl, rfl, rfl, rfl, rfl⟩

theorem witness_HdeThenHenReproducesTheBits :
    let s := abc [] (bits "001011") 0 0
    ∃ s', let h := abc [97, 97, 98, 99] [] 0 0
    Inv s ∧ s.flag .ctV = true ∧ exec .hde s = .next s' ∧ s'.err = ErrCode.success.code ∧ h.params = s.params ∧
    h.ct = s.ct ∧ h.flag .ctV = true ∧ h.flag .symOvf = false ∧ h.symIn = s'.symOut :=
  ⟨nextOr blank (exec .hde (abc [] (bits "001011") 0 0)), inv_abc _ _ _ _ (by decide) (by decide), rfl, rfl, rfl, rfl,
    rfl, rfl, rfl, rfl⟩

/-- Cumulative values inside and past the total. -/
theorem witness_IntervalsPartitionTheTotal :
    Inv (abc [] [] 0 0) ∧ (abc [] [] 0 0).flag .imV = true ∧ (⟨99, 3, 4⟩ : Interval) ∈ (abc [] [] 0 0).im ∧
    0 < (abc [] [] 0 0).t ∧ 3 < (abc [] [] 0 0).t ∧ (abc [] [] 0 0).t ≤ 4 :=
  ⟨inv_abc _ _ _ _ (by decide) (by decide), rfl, by decide, by decide, by decide, by decide⟩

/-- K at the boundary 2^K = 4T, the bound 4 * 4 + 2 = 18 within MAX_BITS = 24. -/
theorem witness_AenCompletesWithinItsBounds :
    let s := abc [97, 97, 98, 99] [] 4 0
    Inv s ∧ s.flag .imV = true ∧ s.flag .symOvf = false ∧ s.k.toNat ≤ s.params.kMax ∧ 4 * s.t ≤ 2 ^ s.k.toNat ∧
    (∀ x ∈ s.symIn, ∃ e ∈ s.im, e.sym = x) ∧ s.symIn.length * s.k.toNat + 2 ≤ s.params.maxBits :=
  ⟨inv_abc _ _ _ _ (by decide) (by decide), rfl, rfl, by decide, by decide, by decide, by decide⟩

theorem witness_AenOnTheEmptyMessage :
    let s := abc [] [] 4 0
    s.flag .imV = true ∧ s.flag .symOvf = false ∧ s.k.toNat ≤ s.params.kMax ∧ 1 ≤ s.t ∧ 4 * s.t ≤ 2 ^ s.k.toNat ∧
    s.symIn = [] ∧ 2 ≤ s.params.maxBits := by decide

/-- The coder after the message `xs` on the model of V26 at K = 4, from the loop of AEN. -/
theorem encodes_abc (xs : List Symbol) (c : Encoder)
    (h : encodeSymbols abcModel 4 4 24 0 xs (encoderStart 4) = .ok c) :
    Encodes abcModel (4 : Nat) (2 ^ 4) xs ⟨0, 2 ^ 4 - 1, 0, []⟩ c := encodeSymbols_sound h

/-- V39: `abz` at K = 4. -/
theorem witness_AenFaultsAtTheFirstUnknownSymbol :
    let s := abc [97, 98, 122] [] 4 0
    Inv s ∧ s.flag .imV = true ∧ s.flag .symOvf = false ∧ s.k.toNat ≤ s.params.kMax ∧ 4 * s.t ≤ 2 ^ s.k.toNat ∧
    s.symIn = [97, 98] ++ 122 :: [] ∧ (∀ y ∈ [97, 98], ∃ e ∈ s.im, e.sym = y) ∧ (∀ e ∈ s.im, e.sym ≠ 122) ∧
    ∀ c, Encodes s.im s.t (2 ^ s.k.toNat) [97, 98] ⟨0, 2 ^ s.k.toNat - 1, 0, []⟩ c → c.out.length ≤ s.params.maxBits :=
  ⟨inv_abc _ _ _ _ (by decide) (by decide), rfl, rfl, by decide, by decide, rfl, by decide, by decide,
    fun _ h => h.unique (encodes_abc [97, 98] ⟨0, 15, 0, bits "010"⟩ rfl) ▸ (by decide : (bits "010").length ≤ 24)⟩

/-- The message `abc` of V39 (P6) at the capacities 2 (within the codes of `b`) and 5 (within the flush). -/
theorem witness_OutputOverflowsAt :
    OutputOverflowsAt abcModel (4 : Nat) (2 ^ 4) 2 [97, 98, 99] 1 ∧
    OutputOverflowsAt abcModel (4 : Nat) (2 ^ 4) 5 [97, 98, 99] 3 :=
  ⟨.inl ⟨[97], [99], 98, ⟨0, 15, 0, bits "0"⟩, ⟨0, 15, 0, bits "010"⟩, rfl, rfl, encodes_abc [97] _ rfl, by decide,
      encodeSymbols_sound (k := 4) (maxBits := 24) (i := 1) rfl, by decide⟩,
    .inr ⟨⟨0, 15, 0, bits "01011"⟩, rfl, encodes_abc [97, 98, 99] _ rfl, by decide, by decide⟩⟩

/-- The first clause, from P6: MAX_BITS = 5. -/
theorem witness_AenFaultsWhenItsOutputDoesNotFit_positions :
    let s := { abc [97, 98, 99] [] 4 0 with params := { small with maxBits := 5 } }
    Inv s ∧ s.flag .imV = true ∧ s.flag .symOvf = false ∧ s.k.toNat ≤ s.params.kMax ∧ 4 * s.t ≤ 2 ^ s.k.toNat ∧
    OutputOverflowsAt s.im s.t (2 ^ s.k.toNat) s.params.maxBits s.symIn 3 :=
  have h := inv_abc [97, 98, 99] [] 4 0 (by decide) (by decide)
  ⟨⟨by decide +kernel, by decide, h.3, h.4, h.5, h.6, h.7, h.8, h.9, h.10⟩, rfl, rfl, by decide, by decide,
    witness_OutputOverflowsAt.2⟩

/-- V30: eight bits, so a capacity of 8 is enough and one of 7 is not. -/
theorem witness_AenFaultsWhenItsOutputDoesNotFit :
    ∃ t, exec .aen (abc [97, 97, 98, 99] [] 4 0) = .next t ∧ t.err = ErrCode.success.code ∧ t.bitOut.length ≤ 8 ∧
      7 < t.bitOut.length :=
  ⟨nextOr blank (exec .aen (abc [97, 97, 98, 99] [] 4 0)), rfl, rfl, by decide, by decide⟩

/-- N at MAX_N, K at the boundary. -/
theorem witness_AdeDecodesEveryStream :
    let s := abc [] (bits "110") 4 8
    Inv s ∧ s.flag .imV = true ∧ s.flag .bitOvf = false ∧ s.k.toNat ≤ s.params.kMax ∧ s.n.toNat ≤ s.params.maxN ∧
    4 * s.t ≤ 2 ^ s.k.toNat :=
  ⟨inv_abc _ _ _ _ (by decide) (by decide), rfl, rfl, by decide, by decide, by decide⟩

/-- V46: N = 0 and BIT_IN = `01`. -/
theorem witness_AdeWithNoSymbolsShowsTheWindow :
    let s := abc [] (bits "01") 4 0
    s.flag .imV = true ∧ s.flag .bitOvf = false ∧ s.k.toNat ≤ s.params.kMax ∧ s.n = 0 ∧ 4 * s.t ≤ 2 ^ s.k.toNat := by
  decide

theorem witness_AdeReadsZerosPastTheEnd :
    ∃ t, exec .ade (abc [] (bits "01") 4 2) = .next t :=
  ⟨nextOr blank (exec .ade (abc [] (bits "01") 4 2)), rfl⟩

/-- V47 with N = 2 in place of 4. -/
theorem witness_AdeWithSmallerNGivesAPrefix :
    ∃ t, exec .ade (abc [] (bits "00101101") 4 4) = .next t ∧ t.err = ErrCode.success.code ∧
      (2#32).toNat ≤ (abc [] (bits "00101101") 4 4).n.toNat :=
  ⟨nextOr blank (exec .ade (abc [] (bits "00101101") 4 4)), rfl, rfl, by decide⟩

/-- V30, then V40, with two bits after AEN's output. -/
theorem witness_ArithmeticRoundTrip :
    let s := abc [97, 97, 98, 99] [] 4 0
    ∃ s', let d := abc [] (bits "0010110111") 4 4
    Inv s ∧ s.flag .imV = true ∧ exec .aen s = .next s' ∧ s'.err = ErrCode.success.code ∧ d.params = s.params ∧
    d.im = s.im ∧ d.t = s.t ∧ d.k = s.k ∧ d.n.toNat = s.symIn.length ∧ d.flag .imV = true ∧ d.flag .bitOvf = false ∧
    d.bitIn = s'.bitOut ++ bits "11" :=
  ⟨nextOr blank (exec .aen (abc [97, 97, 98, 99] [] 4 0)), inv_abc _ _ _ _ (by decide) (by decide), rfl, rfl, rfl, rfl,
    rfl, rfl, rfl, rfl, rfl, rfl, rfl⟩

/-- After reset no structure is valid. -/
theorem witness_MissingStructureIsNotReady :
    blank.flag .treeV = false ∧ blank.flag .ctV = false ∧ blank.flag .imV = false := by decide

theorem witness_DroppedPushIsCapacityExceeded :
    let s := { abc [] [] 0 0 with status := 0x003F#16 }
    s.flag .ftOvf = true ∧ s.flag .symOvf = true ∧ s.flag .bitOvf = true ∧ s.flag .ctV = true ∧ s.flag .imV = true ∧
    s.flag .treeV = true := by decide

/-- With K_MAX = 8, MAX_N = 8, T = 4: K = 9; K = 3; N = 9; N = 8 with K = 3. -/
theorem witness_PrecisionAndLengthLimits :
    (abc [] [] 0 0).flag .imV = true ∧ (abc [] [] 0 0).flag .symOvf = false ∧ (abc [] [] 0 0).flag .bitOvf = false ∧
    small.kMax < (abc [] [] 9 0).k.toNat ∧
    ((abc [] [] 3 8).k.toNat ≤ small.kMax ∧ 2 ^ (abc [] [] 3 8).k.toNat < 4 * (abc [] [] 3 8).t) ∧
    ((abc [] [] 8 9).k.toNat ≤ small.kMax ∧ small.maxN < (abc [] [] 8 9).n.toNat) ∧
    (abc [] [] 3 8).n.toNat ≤ small.maxN := by decide

/-- V16's fault, for `FaultsLeaveTheTableOfRule236`. -/
theorem witness_FaultsLeaveTheTableOfRule236 :
    ∃ t, exec .hen (abc [97, 98, 122] [] 0 0) = .next t ∧ t.err ≠ ErrCode.success.code :=
  ⟨nextOr blank (exec .hen (abc [97, 98, 122] [] 0 0)), rfl, by decide⟩

/-- V52, for `CommandsWriteOnlyTheirWriteSet`. -/
theorem witness_CommandsWriteOnlyTheirWriteSet :
    ∃ t, exec .clrft (abc [97] [] 4 0) = .next t ∧ t.err = ErrCode.success.code :=
  ⟨nextOr blank (exec .clrft (abc [97] [] 4 0)), rfl, by decide⟩

theorem witness_CommandsAreIdempotent : ∃ t, exec .hct (abc [] [] 0 0) = .next t :=
  ⟨nextOr blank (exec .hct (abc [] [] 0 0)), rfl⟩

/-- The step that runs HEN on the state `report_fault` is about. -/
theorem witness_StepKeepsTheReportWellFormed :
    let s := { abc [97] [] 4 1 with
      status := 0x0407#16, errpos := 2, errsym := 122, pending := [HostAction.writeReg 0 0x03] }
    ReportInv s ∧ ∃ t, step s = .next t :=
  ⟨⟨report_fault.1, report_fault.2, report_fault.3, report_fault.4⟩,
    nextOr blank (perform1 (.writeReg 0 0x03) { abc [97] [] 4 1 with status := 0x0407#16, errpos := 2, errsym := 122 }),
    rfl⟩

theorem witness_StepKeepsCapacities :
    let s := { abc [97] [true] 4 1 with pending := [HostAction.writeReg 0 0x06] }
    CapacityInv s ∧ ∃ t, step s = .next t :=
  ⟨⟨capacity_abc.1, capacity_abc.2⟩, nextOr blank (perform1 (.writeReg 0 0x06) (abc [97] [true] 4 1)), rfl⟩

/-- The step that runs ADE, for `StepKeepsTheGlobalInvariant` and `StepKeepsTheWidths`. -/
theorem witness_StepKeepsTheWidths :
    let s := abc [97] [true] 4 1
    Inv { s with pending := [HostAction.writeReg 0 0x07] } ∧
    WidthsFit { s with pending := [HostAction.writeReg 0 0x07] } ∧ s.params.maxSyms ≤ 2 ^ 32 ∧
    ∃ t, step { s with pending := [HostAction.writeReg 0 0x07] } = .next t :=
  have h := inv_abc [97] [true] 4 1 (by decide) (by decide)
  ⟨⟨h.1, h.2, h.3, h.4, h.5, h.6, h.7, h.8, h.9, h.10⟩,
    ⟨fun r v hv => widths_abc.1 r v (by cases r <;> exact hv),
      ⟨widths_abc.2.1, widths_abc.2.2, widths_abc.2.3, widths_abc.2.4, widths_abc.2.5, widths_abc.2.6⟩⟩,
    by decide, nextOr blank (perform1 (.writeReg 0 0x07) (abc [97] [true] 4 1)), rfl⟩

theorem witness_StepKeepsTheGlobalInvariant :
    Inv { abc [97] [true] 4 1 with pending := [HostAction.writeReg 0 0x07] } ∧
    ∃ t, step { abc [97] [true] 4 1 with pending := [HostAction.writeReg 0 0x07] } = .next t :=
  ⟨witness_StepKeepsTheWidths.1, witness_StepKeepsTheWidths.2.2.2⟩

theorem witness_ResetMeetsTheInvariants : small.wf = true ∧ Params.suggested.wf = true := test_params_suggested_wf.symm

theorem witness_InvariantStatesNeverStop : Inv (abc [97] [true] 4 1) := inv_abc _ _ _ _ (by decide) (by decide)

/-- Four entries of MAX_SYMS = 4, at the largest symbol and count. -/
theorem witness_LoadftFillsTheTableInOrder :
    ([(97, 2), (98, 1), (99, 1), (255, 255)] : List (Nat × Nat)).length ≤ blank.params.maxSyms ∧
    ∀ e ∈ ([(97, 2), (98, 1), (99, 1), (255, 255)] : List (Nat × Nat)),
      e.1 < 2 ^ blank.params.symBits ∧ e.2 < 2 ^ blank.params.cntBits := by decide

theorem witness_CopybitsCarriesBitOutToBitIn :
    ({ blank with bitOut := bits "001011" }).bitOut.length ≤ small.maxBits := by decide

end Sys2Proof.Tests
end

section
/-! PROOFS. The scope of the block (`00_scope.md`): the step when the host asks for nothing. -/

namespace Sys2Proof.Proofs

open Sys2Proof.Machine

/-- Settles O15: the idle step of the model's step law, in every state. -/
theorem idleWithoutPendingActions : Obligations.IdleWithoutPendingActions := by
  intro s hidle
  exact step_idle hidle

end Sys2Proof.Proofs
end

section
/-! PROOFS. The tree that BHT builds is the tree of `10_state.md` R26 (`40_huffman_tree_builder.md` R110 to R113). The
loop keeps `MergeInv`: the nodes that are no child yet are exactly the indices in the priority structure. -/

namespace Sys2Proof.Machine

/-! ### Reading the tree-node buffer -/

theorem freqAt_append {tn : List TreeNode} {v : Nat} (h : v < tn.length) (xs : List TreeNode) :
    freqAt (tn ++ xs) v = freqAt tn v := by
  simp only [freqAt, List.getElem?_append_left h]

theorem innerNodeOk_iff {tn : List TreeNode} {j : Nat} :
    innerNodeOk tn j = true ↔
      ∃ nd, tn[j]? = some nd ∧ nd.kind = .internal ∧ nd.sym = 0 ∧ nd.left < j ∧ nd.right < j ∧
        nd.left ≠ nd.right ∧ nd.freq = freqAt tn nd.left + freqAt tn nd.right := by
  unfold innerNodeOk
  cases tn[j]? with
  | none => simp
  | some nd => simp [and_assoc]

/-- A node appended later does not change what is said of an earlier node. -/
theorem innerNodeOk_append {tn : List TreeNode} {j : Nat} (hj : j < tn.length) (h : innerNodeOk tn j = true)
    (xs : List TreeNode) : innerNodeOk (tn ++ xs) j = true := by
  obtain ⟨nd, hnd, hkind, hsym, hl, hr, hne, hfreq⟩ := innerNodeOk_iff.1 h
  refine innerNodeOk_iff.2 ⟨nd, ?_, hkind, hsym, hl, hr, hne, ?_⟩
  · rw [List.getElem?_append_left hj, hnd]
  · rw [freqAt_append (hl.trans hj), freqAt_append (hr.trans hj), hfreq]

/-! ### The children named by the internal nodes -/

theorem childIndices_append (tn xs : List TreeNode) :
    childIndices (tn ++ xs) = childIndices tn ++ childIndices xs := List.flatMap_append

@[simp] theorem childIndices_leaves (ft : List FtEntry) : childIndices (ft.map leafOf) = [] := by
  induction ft with
  | nil => rfl
  | cons e es ih => exact ih

@[simp] theorem childIndices_mergedNode (tn : List TreeNode) (a b : Nat) :
    childIndices [mergedNode tn a b] = [a, b] := rfl

/-! ### Extraction from the priority structure -/

theorem leastIndex_mem (tn : List TreeNode) (v : Nat) (vs : List Nat) : leastIndex tn v vs ∈ v :: vs := by
  induction vs generalizing v with
  | nil => exact List.mem_singleton.2 rfl
  | cons w vs ih =>
    have hmem := ih (if keyBefore tn w v then w else v)
    change leastIndex tn (if keyBefore tn w v then w else v) vs ∈ v :: w :: vs
    grind

/-- `ExtractMin` takes one index off. -/
theorem extractMin_perm {pq pq' : List Nat} {tn : List TreeNode} {a : Nat} (h : extractMin pq tn = some (a, pq')) :
    pq.Perm (a :: pq') := by
  cases pq with
  | nil => cases h
  | cons v vs =>
    cases h
    exact List.perm_cons_erase (leastIndex_mem tn v vs)

theorem extractMin_none {pq : List Nat} {tn : List TreeNode} (h : extractMin pq tn = none) : pq = [] := by
  cases pq with
  | nil => rfl
  | cons v vs => cases h

/-! ### The invariant of the merge loop -/

/-- What holds at each turn of the loop of R110. -/
structure MergeInv (ft : List FtEntry) (tn : List TreeNode) (pq : List Nat) : Prop where
  leaves : tn.take ft.length = ft.map leafOf
  inner : ∀ j < tn.length, ft.length ≤ j → innerNodeOk tn j = true
  /-- each node is a child of one internal node or waits in the priority structure, and not both -/
  nodes : (childIndices tn ++ pq).Perm (List.range tn.length)
  size : tn.length + pq.length = 2 * ft.length
  /-- the node made last is the one that entered last -/
  newest : pq.getLast? = some (tn.length - 1)
  total : (pq.map (freqAt tn)).sum = totalCount ft

theorem freqAt_leaves (ft : List FtEntry) :
    (List.range ft.length).map (freqAt (ft.map leafOf)) = ft.map FtEntry.count := by
  refine List.ext_getElem (by simp) fun i hi _ => ?_
  have hi : i < ft.length := by simpa using hi
  simp [freqAt, leafOf, hi]

theorem mergeInv_start {ft : List FtEntry} (h : ft ≠ []) :
    MergeInv ft (ft.map leafOf) (List.range ft.length) where
  leaves := List.take_of_length_le (by simp)
  inner := fun j hj hn => absurd hj (by simpa using hn)
  nodes := by simp
  size := by simp [Nat.two_mul]
  newest := by
    obtain ⟨n, hn⟩ := Nat.exists_eq_succ_of_ne_zero (mt List.length_eq_zero_iff.1 h)
    simp [hn, List.range_succ]
  total := by rw [freqAt_leaves]; rfl

/-- One merge keeps the invariant. -/
theorem mergeInv_merge {ft : List FtEntry} {tn : List TreeNode} {pq pq' : List Nat} {a b : Nat}
    (h : MergeInv ft tn pq) (hpq : pq.Perm (a :: b :: pq')) :
    MergeInv ft (tn ++ [mergedNode tn a b]) (pq' ++ [tn.length]) := by
  have hnodes : (childIndices tn ++ a :: b :: pq').Perm (List.range tn.length) :=
    (hpq.append_left _).symm.trans h.nodes
  have hlt : ∀ v ∈ a :: b :: pq', v < tn.length := fun v hv =>
    List.mem_range.1 (hnodes.subset (List.mem_append_right _ hv))
  have hne : a ≠ b := by
    have hnd := (hnodes.nodup_iff.2 List.nodup_range).of_append_right
    rintro rfl
    exact (List.nodup_cons.1 hnd).1 List.mem_cons_self
  have ha : a < tn.length := hlt a (by simp)
  have hb : b < tn.length := hlt b (by simp)
  have hn : ft.length ≤ tn.length := by
    have := congrArg List.length h.leaves
    simp only [List.length_take, List.length_map] at this
    omega
  constructor
  case leaves => rw [List.take_append_of_le_length hn, h.leaves]
  case inner =>
    intro j hj hnj
    rcases Nat.lt_or_ge j tn.length with hlt' | hge
    · exact innerNodeOk_append hlt' (h.inner j hlt' hnj) _
    · obtain rfl : j = tn.length := by simp at hj; omega
      refine innerNodeOk_iff.2 ⟨mergedNode tn a b, by simp, rfl, rfl, ha, hb, hne, ?_⟩
      rw [mergedNode, freqAt_append ha, freqAt_append hb]
  case nodes =>
    rw [childIndices_append, childIndices_mergedNode, List.length_append, List.length_singleton, List.range_succ,
      ← List.append_assoc, List.append_assoc (childIndices tn)]
    exact hnodes.append_right _
  case size =>
    have hlen := hpq.length_eq
    have hsize := h.size
    simp only [List.length_append, List.length_cons, List.length_nil] at hlen ⊢
    omega
  case newest => simp
  case total =>
    have hold : ∀ v ∈ pq', freqAt (tn ++ [mergedNode tn a b]) v = freqAt tn v := fun v hv =>
      freqAt_append (hlt v (by simp [hv])) _
    have hnew : freqAt (tn ++ [mergedNode tn a b]) tn.length = freqAt tn a + freqAt tn b := by
      simp [freqAt, mergedNode]
    have hsum := (hpq.map (freqAt tn)).sum_eq
    rw [h.total] at hsum
    simp only [List.map_append, List.map_congr_left hold, List.sum_append, List.map_cons, List.map_nil, List.sum_cons,
      List.sum_nil, hnew] at hsum ⊢
    omega

/-- With as many turns as there are indices to merge, the loop ends with one index. -/
theorem mergeInv_mergeLoop {ft : List FtEntry} {fuel : Nat} {tn : List TreeNode} {pq : List Nat}
    (h : MergeInv ft tn pq) (hlen : pq.length = fuel + 1) :
    MergeInv ft (mergeLoop fuel tn pq).1 (mergeLoop fuel tn pq).2 ∧ (mergeLoop fuel tn pq).2.length = 1 := by
  induction fuel generalizing tn pq with
  | zero => exact ⟨h, hlen⟩
  | succ fuel ih =>
    unfold mergeLoop
    split
    · next he => simp [extractMin_none he] at hlen
    · next a pq' ha =>
      have hpa := extractMin_perm ha
      split
      · next he => simp [extractMin_none he, hpa.length_eq] at hlen
      · next b pq'' hb =>
        have hpq := hpa.trans ((extractMin_perm hb).cons a)
        refine ih (mergeInv_merge h hpq) ?_
        have := hpq.length_eq
        simp only [List.length_append, List.length_cons, List.length_nil] at this ⊢
        omega

/-- The loop has ended: one index is left, and it is the root of the tree. -/
theorem MergeInv.treeInv {ft : List FtEntry} {tn : List TreeNode} {root : Nat} (h : MergeInv ft tn [root]) :
    TreeInv ft tn root := by
  obtain ⟨hleaves, hinner, hnodes, hsize, hnewest, htotal⟩ := h
  have hroot : root = tn.length - 1 := by simpa using hnewest
  have hpos : root < tn.length := List.mem_range.1 (hnodes.subset (by simp))
  refine ⟨hsize, hleaves, hinner, fun i hi => ?_, by omega, by simpa using htotal⟩
  have hcount := hnodes.count_eq i
  rwa [List.count_append, List.count_eq_one_of_mem List.nodup_range (List.mem_range.2 (by omega)),
    List.count_singleton, if_neg (by simp; omega)] at hcount

/-- BHT builds the tree of R26 from every non-empty table. -/
theorem treeInv_buildTree {ft : List FtEntry} (h : ft ≠ []) : TreeInv ft (buildTree ft).1 (buildTree ft).2 := by
  have hpos : 0 < ft.length := List.length_pos_iff.2 h
  obtain ⟨hinv, hlen⟩ := mergeInv_mergeLoop (fuel := ft.length - 1) (mergeInv_start h) (by simp; omega)
  obtain ⟨root, hroot⟩ := List.length_eq_one_iff.1 hlen
  simp only [buildTree, hroot, List.headD_cons]
  rw [hroot] at hinv
  exact hinv.treeInv

end Sys2Proof.Machine
end

section
/-! PROOFS. The codes that HCT derives from a tree of `10_state.md` R26 are those of R27
(`41_huffman_code_table_encoder.md` R130 to R132), and what a valid code table keeps to (R134). -/

namespace Sys2Proof.Machine

/-! ### Nodes of a tree of R26 -/

section Tree

variable {ft : List FtEntry} {tn : List TreeNode} {root : Nat} (h : TreeInv ft tn root)
include h

/-- The nodes below the table's length are its leaves, in order. -/
theorem TreeInv.getElem?_leaf {i : Nat} (hi : i < ft.length) : tn[i]? = ft[i]?.map leafOf := by
  rw [← List.getElem?_take_of_lt hi, h.leaves, List.getElem?_map]
  rfl

theorem TreeInv.getElem?_inner {j : Nat} (hj : j < tn.length) (hn : ft.length ≤ j) :
    ∃ nd, tn[j]? = some nd ∧ nd.kind = .internal ∧ nd.sym = 0 ∧ nd.left < j ∧ nd.right < j ∧
      nd.left ≠ nd.right ∧ nd.freq = freqAt tn nd.left + freqAt tn nd.right :=
  innerNodeOk_iff.1 (h.inner j hj hn)

/-- An internal node stands past the leaves, and its children before it. -/
theorem TreeInv.children_lt {v : Nat} {nd : TreeNode} (hv : tn[v]? = some nd) (hk : nd.kind = .internal) :
    ft.length ≤ v ∧ nd.left < v ∧ nd.right < v := by
  have hlt : v < tn.length := (List.getElem?_eq_some_iff.1 hv).1
  rcases Nat.lt_or_ge v ft.length with hleaf | hinner
  · rw [h.getElem?_leaf hleaf, List.getElem?_eq_getElem hleaf] at hv
    cases hv
    cases hk
  · obtain ⟨nd', hnd', -, -, hl, hr, -⟩ := h.getElem?_inner hlt hinner
    cases hv.symm.trans hnd'
    exact ⟨hinner, hl, hr⟩

end Tree

/-! ### Paths -/

@[simp] theorem follow_nil (tn : List TreeNode) (v : Nat) : follow tn v [] = some v := by
  unfold follow
  rfl

/-- A path goes on from an internal node to the child of its first bit. -/
theorem follow_cons {tn : List TreeNode} {v w : Nat} {b : Bit} {p : BitString} :
    follow tn v (b :: p) = some w ↔
      ∃ nd, tn[v]? = some nd ∧ nd.kind = .internal ∧ follow tn (if b then nd.right else nd.left) p = some w := by
  conv_lhs => unfold follow
  cases tn[v]? with
  | none => simp
  | some nd => cases hk : nd.kind <;> simp [hk]

/-- A path to an internal node extended by one bit. -/
theorem follow_append_singleton {tn : List TreeNode} {v w : Nat} {p : BitString} {nd : TreeNode}
    (hp : follow tn v p = some w) (hw : tn[w]? = some nd) (hk : nd.kind = .internal) (b : Bit) :
    follow tn v (p ++ [b]) = some (if b then nd.right else nd.left) := by
  induction p generalizing v with
  | nil =>
    obtain rfl : v = w := by simpa using hp
    exact follow_cons.2 ⟨nd, hw, hk, follow_nil _ _⟩
  | cons c p ih =>
    obtain ⟨nd', hv, hk', hp'⟩ := follow_cons.1 hp
    exact follow_cons.2 ⟨nd', hv, hk', ih hp'⟩

/-- Each bit of a path leaves an internal node for one of lower index, so a path has at most as many bits as there are
internal nodes up to its start. -/
theorem follow_length_le {ft : List FtEntry} {tn : List TreeNode} {root : Nat} (h : TreeInv ft tn root) {v w : Nat}
    {p : BitString} (hp : follow tn v p = some w) : p.length ≤ v + 1 - ft.length := by
  induction p generalizing v with
  | nil => exact Nat.zero_le _
  | cons b p ih =>
    obtain ⟨nd, hv, hk, hp'⟩ := follow_cons.1 hp
    obtain ⟨hn, hl, hr⟩ := h.children_lt hv hk
    have hchild : (if b then nd.right else nd.left) < v := by split <;> assumption
    have := ih hp'
    rw [List.length_cons]
    omega

/-! ### The traversal -/

/-- `c` is the entry of leaf `i`: its symbol and the code of a path to it from the root. -/
def LeafCode (tn : List TreeNode) (root i : Nat) (c : CodeEntry) : Prop :=
  ∃ nd p, tn[i]? = some nd ∧ nd.kind = .leaf ∧ follow tn root p = some i ∧
    c = ⟨nd.sym, (codeOfPath p).length, codeOfPath p⟩

/-- The entries filled so far are those of their leaves. -/
def LeafCodesSoFar (tn : List TreeNode) (root : Nat) (ct : List (Option CodeEntry)) : Prop :=
  ∀ i c, ct[i]? = some (some c) → LeafCode tn root i c

theorem leafCodesSoFar_replicate (tn : List TreeNode) (root n : Nat) :
    LeafCodesSoFar tn root (List.replicate n none) := by
  intro i c hc
  rw [List.getElem?_replicate] at hc
  split at hc <;> cases hc

theorem leafCodesSoFar_set {tn : List TreeNode} {root v : Nat} {ct : List (Option CodeEntry)} {c : CodeEntry}
    (h : LeafCodesSoFar tn root ct) (hv : LeafCode tn root v c) : LeafCodesSoFar tn root (ct.set v (some c)) := by
  intro i d hd
  rw [List.getElem?_set] at hd
  split at hd
  · next hvi =>
    split at hd
    · cases hd
      exact hvi ▸ hv
    · cases hd
  · exact h i d hd

/-- The traversal keeps the number of entries and fills each with the code of its leaf, when each index on its stack
stands with a path to it. -/
theorem traverse_sound {tn : List TreeNode} {root fuel : Nat} {stack : List (Nat × BitString)}
    {ct ct' : List (Option CodeEntry)} (hstack : ∀ e ∈ stack, follow tn root e.2 = some e.1)
    (hct : LeafCodesSoFar tn root ct) (h : traverse tn fuel stack ct = some ct') :
    ct'.length = ct.length ∧ LeafCodesSoFar tn root ct' := by
  induction fuel generalizing stack ct with
  | zero =>
    cases stack with
    | nil => simp only [traverse, Option.some.injEq] at h; exact h ▸ ⟨rfl, hct⟩
    | cons => simp [traverse] at h
  | succ fuel ih =>
    cases stack with
    | nil => simp only [traverse, Option.some.injEq] at h; exact h ▸ ⟨rfl, hct⟩
    | cons e stack =>
      obtain ⟨v, p⟩ := e
      have hp : follow tn root p = some v := hstack (v, p) (by simp)
      have hrest : ∀ e ∈ stack, follow tn root e.2 = some e.1 := fun e he => hstack e (by simp [he])
      unfold traverse at h
      split at h
      · cases h
      · next nd hnd =>
        split at h
        · next hk =>
          split at h
          · obtain ⟨hlen, hcodes⟩ := ih hrest (leafCodesSoFar_set hct ⟨nd, p, hnd, hk, hp, rfl⟩) h
            exact ⟨hlen.trans List.length_set, hcodes⟩
          · cases h
        · next hk =>
          refine ih (fun e he => ?_) hct h
          rcases List.mem_cons.1 he with rfl | he
          · exact follow_append_singleton hp hnd hk false
          rcases List.mem_cons.1 he with rfl | he
          · exact follow_append_singleton hp hnd hk true
          · exact hrest e he

theorem filled_eq_some {l : List (Option CodeEntry)} {ct : List CodeEntry} (h : filled l = some ct) :
    l = ct.map some := by
  induction l generalizing ct with
  | nil => cases h; rfl
  | cons x l ih =>
    cases x with
    | none => cases h
    | some e =>
      obtain ⟨es, hes, rfl⟩ := Option.map_eq_some_iff.1 h
      rw [ih hes, List.map_cons]

/-- What the table of HCT holds, whatever the node buffer. -/
theorem codeTable_sound {tn : List TreeNode} {root : Nat} {ct : List CodeEntry} (h : codeTable tn root = some ct) :
    ct.length = (tn.length + 1) / 2 ∧ ∀ i c, ct[i]? = some c → LeafCode tn root i c := by
  obtain ⟨l, hl, hfilled⟩ := Option.bind_eq_some_iff.1 h
  obtain rfl := filled_eq_some hfilled
  obtain ⟨hlen, hcodes⟩ := traverse_sound (root := root) (by simp) (leafCodesSoFar_replicate _ _ _) hl
  exact ⟨by simpa using hlen, fun i c hc => hcodes i c (by simp [hc])⟩

/-! ### The code table of a tree of R26 -/

theorem codeEntryOk_iff {ft : List FtEntry} {tn : List TreeNode} {root i : Nat} {ct : List CodeEntry} :
    codeEntryOk ft tn root ct i = true ↔
      ∃ f c, ft[i]? = some f ∧ ct[i]? = some c ∧ c.sym = f.sym ∧ c.len = c.bits.length ∧
        if ft.length = 1 then c.bits = [false] else follow tn root c.bits = some i := by
  unfold codeEntryOk
  cases ft[i]? with
  | none => simp
  | some f =>
    cases ct[i]? with
    | none => simp
    | some c => split <;> simp_all [and_assoc]

/-- In a table of one symbol the root is the leaf, and the only path to it is empty. -/
theorem TreeInv.path_eq_nil_iff {ft : List FtEntry} {tn : List TreeNode} {root i : Nat} {p : BitString}
    (h : TreeInv ft tn root) (hi : i < ft.length) (hp : follow tn root p = some i) : p = [] ↔ ft.length = 1 := by
  have hsize := h.size
  have hroot := h.root_eq
  constructor
  · rintro rfl
    have : root = i := by simpa using hp
    omega
  · intro hone
    have := follow_length_le h hp
    exact List.length_eq_zero_iff.1 (by omega)

/-- HCT gives the codes of R27. -/
theorem codeInv_codeTable {ft : List FtEntry} {tn : List TreeNode} {root : Nat} {ct : List CodeEntry}
    (htree : TreeInv ft tn root) (h : codeTable tn root = some ct) : CodeInv ft tn root ct := by
  obtain ⟨hlen, hcodes⟩ := codeTable_sound h
  have hsize : ct.length = ft.length := by
    have := htree.size
    omega
  refine ⟨hsize, fun i hi => ?_⟩
  have hc : ct[i]? = some ct[i] := List.getElem?_eq_getElem (by omega)
  obtain ⟨nd, p, hnd, -, hp, hentry⟩ := hcodes i _ hc
  have hf : ft[i]? = some ft[i] := List.getElem?_eq_getElem hi
  rw [htree.getElem?_leaf hi, hf] at hnd
  cases hnd
  refine codeEntryOk_iff.2 ⟨_, _, hf, hc, ?_, ?_, ?_⟩
  · rw [hentry]; rfl
  · rw [hentry]
  · have hpath := htree.path_eq_nil_iff hi hp
    rw [hentry]
    split
    · next hone => rw [hpath.2 hone]; rfl
    · next hmany =>
      have hne : p ≠ [] := mt hpath.1 hmany
      simpa [codeOfPath, hne] using hp

/-- The bounds of R134 for a valid code table, and each entry's symbol, which is the table's. -/
theorem CodeInv.entry_bounds {ft : List FtEntry} {tn : List TreeNode} {root : Nat} {ct : List CodeEntry}
    (htree : TreeInv ft tn root) (h : CodeInv ft tn root ct) {c : CodeEntry} (hc : c ∈ ct) :
    c.bits.length = c.len ∧ 1 ≤ c.len ∧ c.len ≤ max 1 (ft.length - 1) ∧ ∃ f ∈ ft, c.sym = f.sym := by
  obtain ⟨i, hi, hci⟩ := List.mem_iff_getElem.1 hc
  have hin : i < ft.length := h.size ▸ hi
  obtain ⟨f, c', hf, hc', hsym, hlen, hcode⟩ := codeEntryOk_iff.1 (h.entries i hin)
  obtain rfl : c' = c := by rw [List.getElem?_eq_getElem hi, hci] at hc'; exact (Option.some.inj hc').symm
  have hbits : 1 ≤ c'.bits.length ∧ c'.bits.length ≤ max 1 (ft.length - 1) := by
    split at hcode
    · simp [hcode]
    · next hmany =>
      have hne : c'.bits ≠ [] := mt (htree.path_eq_nil_iff hin hcode).1 hmany
      have hle := follow_length_le htree hcode
      have hsize := htree.size
      have hroot := htree.root_eq
      exact ⟨List.length_pos_iff.2 hne, by omega⟩
  exact ⟨hlen.symm, by omega, by omega, f, List.mem_of_getElem? hf, hsym⟩

end Sys2Proof.Machine
end

section
/-! PROOFS. The Interval Model that BIM builds is the model of `10_state.md` R28 (`43_interval_model.md` R165), and a valid
model holds the cumulative sums of its table. -/

namespace Sys2Proof.Machine

/-! ### The sum of the counts -/

@[simp] theorem totalCount_nil : totalCount [] = 0 := rfl

@[simp] theorem totalCount_cons (e : FtEntry) (es : List FtEntry) :
    totalCount (e :: es) = e.count + totalCount es := List.sum_cons

theorem totalCount_append (xs ys : List FtEntry) : totalCount (xs ++ ys) = totalCount xs + totalCount ys := by
  simp [totalCount]

theorem totalCount_take_succ {ft : List FtEntry} {i : Nat} {f : FtEntry} (hf : ft[i]? = some f) :
    totalCount (ft.take (i + 1)) = totalCount (ft.take i) + f.count := by
  simp [List.take_add_one, hf, totalCount_append]

theorem totalCount_take_le (ft : List FtEntry) (i : Nat) : totalCount (ft.take i) ≤ totalCount ft := by
  conv_rhs => rw [← List.take_append_drop i ft, totalCount_append]
  exact Nat.le_add_right _ _

/-- The total of a table whose counts are below `b`. -/
theorem totalCount_lt {ft : List FtEntry} {b : Nat} (hne : ft ≠ []) (h : ∀ e ∈ ft, e.count < b) :
    totalCount ft < ft.length * b := by
  induction ft with
  | nil => exact absurd rfl hne
  | cons e es ih =>
    have he : e.count < b := h e (by simp)
    rw [totalCount_cons, List.length_cons, Nat.succ_mul]
    cases es with
    | nil => simpa using he
    | cons d ds =>
      have := ih (by simp) fun x hx => h x (by simp [hx])
      omega

/-! ### The loop of R165 -/

theorem buildIntervals_cons (acc : Nat) (e : FtEntry) (es : List FtEntry) :
    buildIntervals acc (e :: es) =
      (⟨e.sym, acc, acc + e.count⟩ :: (buildIntervals (acc + e.count) es).1,
        (buildIntervals (acc + e.count) es).2) := rfl

@[simp] theorem buildIntervals_length (acc : Nat) (ft : List FtEntry) :
    (buildIntervals acc ft).1.length = ft.length := by
  induction ft generalizing acc with
  | nil => rfl
  | cons e es ih => simp [buildIntervals_cons, ih]

@[simp] theorem buildIntervals_total (acc : Nat) (ft : List FtEntry) :
    (buildIntervals acc ft).2 = acc + totalCount ft := by
  induction ft generalizing acc with
  | nil => rfl
  | cons e es ih => simp [buildIntervals_cons, ih, Nat.add_assoc]

/-- The interval of an entry starts at the sum of the counts before it. -/
theorem buildIntervals_getElem? {acc : Nat} {ft : List FtEntry} {i : Nat} {f : FtEntry} (hf : ft[i]? = some f) :
    (buildIntervals acc ft).1[i]? =
      some ⟨f.sym, acc + totalCount (ft.take i), acc + totalCount (ft.take i) + f.count⟩ := by
  induction ft generalizing acc i with
  | nil => simp at hf
  | cons e es ih =>
    cases i with
    | zero =>
      cases hf
      simp [buildIntervals_cons]
    | succ i =>
      rw [buildIntervals_cons, List.getElem?_cons_succ, ih (by simpa using hf)]
      simp [Nat.add_assoc]

theorem intervalOk_iff {ft : List FtEntry} {im : List Interval} {i : Nat} :
    intervalOk ft im i = true ↔
      ∃ f e, ft[i]? = some f ∧ im[i]? = some e ∧ e.sym = f.sym ∧ e.high = e.low + f.count := by
  unfold intervalOk
  cases ft[i]? with
  | none => simp
  | some f =>
    cases im[i]? with
    | none => simp
    | some e => simp

/-- BIM builds the model of R28 from every non-empty table. -/
theorem intervalInv_buildIntervals {ft : List FtEntry} (hne : ft ≠ []) :
    IntervalInv ft (buildIntervals 0 ft).1 (buildIntervals 0 ft).2 := by
  have hpos : 0 < ft.length := List.length_pos_iff.2 hne
  have hget : ∀ i (hi : i < ft.length), (buildIntervals 0 ft).1[i]? = some
      ⟨ft[i].sym, 0 + totalCount (ft.take i), 0 + totalCount (ft.take i) + ft[i].count⟩ := fun i hi =>
    buildIntervals_getElem? (List.getElem?_eq_getElem hi)
  have hsucc : ∀ i (hi : i < ft.length), totalCount (ft.take (i + 1)) = totalCount (ft.take i) + ft[i].count :=
    fun i hi => totalCount_take_succ (List.getElem?_eq_getElem hi)
  refine ⟨buildIntervals_length 0 ft, fun i hi => ?_, ?_, fun i hi => ?_, ?_⟩
  · exact intervalOk_iff.2 ⟨_, _, List.getElem?_eq_getElem hi, hget i hi, rfl, rfl⟩
  · simp [List.head?_eq_getElem?, hget 0 hpos]
  · simp [hget (i + 1) (by omega), hget i (by omega), hsucc i (by omega)]
  · have hlast := hsucc (ft.length - 1) (by omega)
    rw [Nat.sub_add_cancel hpos, List.take_length] at hlast
    simp [List.getLast?_eq_getElem?, hget (ft.length - 1) (by omega), hlast]

/-! ### What a valid model holds -/

section Model

variable {ft : List FtEntry} {im : List Interval} {t : Nat} (h : IntervalInv ft im t)
include h

/-- A valid model is the one of R165: each interval starts at the sum of the counts before it. -/
theorem IntervalInv.getElem? {i : Nat} {f : FtEntry} (hf : ft[i]? = some f) :
    im[i]? = some ⟨f.sym, totalCount (ft.take i), totalCount (ft.take i) + f.count⟩ := by
  induction i generalizing f with
  | zero =>
    have hlt : 0 < ft.length := (List.getElem?_eq_some_iff.1 hf).1
    obtain ⟨f', e, hf', he, hsym, hhigh⟩ := intervalOk_iff.1 (h.rows 0 hlt)
    cases hf.symm.trans hf'
    have hfirst : e.low = 0 := by simpa [List.head?_eq_getElem?, he] using h.first
    rw [he, List.take_zero, totalCount_nil, ← hsym, ← hfirst, ← hhigh]
  | succ i ih =>
    have hlt : i + 1 < ft.length := (List.getElem?_eq_some_iff.1 hf).1
    obtain ⟨f', e, hf', he, hsym, hhigh⟩ := intervalOk_iff.1 (h.rows (i + 1) hlt)
    cases hf.symm.trans hf'
    have hprev : ft[i]? = some ft[i] := List.getElem?_eq_getElem (by omega)
    have hlow : e.low = totalCount (ft.take i) + ft[i].count := by
      simpa [ih hprev, he] using h.chain i (by omega)
    rw [he, totalCount_take_succ hprev, ← hsym, ← hlow, ← hhigh]

theorem IntervalInv.total_eq (hne : ft ≠ []) : t = totalCount ft := by
  have hpos : 0 < ft.length := List.length_pos_iff.2 hne
  have hlast : ft[ft.length - 1]? = some ft[ft.length - 1] := List.getElem?_eq_getElem (by omega)
  have hsum := totalCount_take_succ hlast
  rw [Nat.sub_add_cancel hpos, List.take_length] at hsum
  have htotal := h.total
  rw [List.getLast?_eq_getElem?, h.size, h.getElem? hlast] at htotal
  simpa [hsum] using htotal.symm

/-- The ranges of a valid model are non-empty and end at or before T (`43_interval_model.md` R167), and their symbols are
the table's. -/
theorem IntervalInv.bounds (hft : FtWellFormed ft) {e : Interval} (he : e ∈ im) :
    e.low < e.high ∧ e.high ≤ t ∧ ∃ f ∈ ft, e.sym = f.sym := by
  obtain ⟨hne, hcount, -⟩ := hft
  obtain ⟨i, hei⟩ := List.mem_iff_getElem?.1 he
  have hi : i < ft.length := h.size ▸ (List.getElem?_eq_some_iff.1 hei).1
  have hf : ft[i]? = some ft[i] := List.getElem?_eq_getElem hi
  have hmem : ft[i] ∈ ft := List.getElem_mem _
  obtain rfl := Option.some.inj (hei.symm.trans (h.getElem? hf))
  have hle := totalCount_take_le ft (i + 1)
  rw [totalCount_take_succ hf, ← h.total_eq hne] at hle
  exact ⟨Nat.lt_add_of_pos_right (hcount _ hmem), hle, _, hmem, rfl⟩

end Model

end Sys2Proof.Machine
end

section
/-! PROOFS. What a step can do to the state, packaged once: a property that every command, push and reset keeps is kept by
every step. -/

namespace Sys2Proof.Machine

/-! ### Commands as body and end -/

/-- The body of each command, which `exec` concludes. -/
def commandBody (i : Instr) (s : State) : Result State :=
  match i with
  | .bht => bhtBody s
  | .hct => hctBody s
  | .hen => henBody s
  | .hde => hdeBody s
  | .bim => bimBody s
  | .aen => aenBody s
  | .ade => adeBody s
  | .clrft => .ok (invalidate { s with ft := [], status := putFlag s.status .ftOvf false })
  | .clrsym => .ok { s with symIn := [], status := putFlag s.status .symOvf false }
  | .clrbit => .ok { s with bitIn := [], status := putFlag s.status .bitOvf false }

theorem exec_eq_conclude (i : Instr) (s : State) : exec i s = conclude i s (commandBody i s) := by
  cases i <;> rfl

/-! ### The package -/

/-- `P` survives everything that a step is made of. -/
structure KeptBySteps (P : State → Prop) : Prop where
  /-- the fields that only the host's actions write -/
  hostFields : ∀ (s : State) (pending : List HostAction) (reply : Option Reply) (cmd : CmdWord) (k : BitVec 8)
    (n : BitVec 32), P s → P { s with pending := pending, reply := reply, cmd := cmd, k := k, n := n }
  success : ∀ (i : Instr) (s u : State), P s → commandBody i s = .ok u → P (succeed u)
  fault : ∀ (i : Instr) (s : State) (f : CmdFault), P s → commandBody i s = .error (.raise f) →
    P (takeFault (writeSet i) f s)
  illegal : ∀ s : State, P s → P (illegalCommand s)
  ftPush : ∀ (e : FtEntry) (s : State), e.sym < 2 ^ s.params.symBits → e.count < 2 ^ s.params.cntBits → P s →
    P (pushFt e s)
  symPush : ∀ (x : Symbol) (s : State), x < 2 ^ s.params.symBits → P s → P (pushSym x s)
  bitPush : ∀ (b : Bit) (s : State), P s → P (pushBit b s)
  reset : ∀ s : State, P s → P (platformReset s)

theorem KeptBySteps.exec {P : State → Prop} (h : KeptBySteps P) {i : Instr} {s t : State} (hs : P s)
    (hexec : exec i s = .next t) : P t := by
  rw [exec_eq_conclude] at hexec
  rcases conclude_next hexec with ⟨u, hu, rfl⟩ | ⟨f, hf, rfl⟩
  · exact h.success i s u hs hu
  · exact h.fault i s f hs hf

theorem KeptBySteps.perform {P : State → Prop} (h : KeptBySteps P) {a : HostAction} {s t : State} (hs : P s)
    (hperform : perform a s = .next t) : P t := by
  rcases perform_next hperform with ⟨v, i, -, -, hexec⟩ | ⟨v, e, -, -, rfl⟩ | ⟨v, rfl⟩ | ⟨v, rfl⟩ |
    ⟨e, hsym, hcount, rfl⟩ | ⟨x, hx, rfl⟩ | ⟨b, rfl⟩ | ⟨r, rfl⟩ | ⟨-, rfl⟩
  · exact h.exec (h.hostFields s _ _ _ _ _ hs) hexec
  · exact h.illegal _ (h.hostFields s _ _ _ _ _ hs)
  · exact h.hostFields s _ _ _ _ _ hs
  · exact h.hostFields s _ _ _ _ _ hs
  · exact h.ftPush e s hsym hcount hs
  · exact h.symPush x s hx hs
  · exact h.bitPush b s hs
  · exact h.hostFields s _ _ _ _ _ hs
  · exact h.reset s hs

/-- Every step keeps such a property. -/
theorem KeptBySteps.step {P : State → Prop} (h : KeptBySteps P) {s t : State} (hs : P s)
    (hstep : step s = .next t) : P t := by
  rcases step_next hstep with ⟨-, rfl⟩ | ⟨a, rest, -, hperform⟩
  · exact hs
  · exact h.perform (h.hostFields s rest _ _ _ _ hs) hperform

/-! ### The flags after each shared operation -/

@[simp] theorem flag_report (f : CmdFault) (s : State) (g : Flag) : (report f s).flag g = s.flag g := by
  simp [State.flag]

@[simp] theorem flag_succeed (s : State) (g : Flag) : (succeed s).flag g = s.flag g := flag_report _ s g

@[simp] theorem flag_setFlag (s : State) (f g : Flag) (b : Bool) :
    (s.setFlag f b).flag g = if g = f then b else s.flag g := by
  simp [State.flag]

theorem flag_invalidate (s : State) (g : Flag) :
    (invalidate s).flag g = if g = .imV ∨ g = .ctV ∨ g = .treeV then false else s.flag g := by
  cases g <;> simp [State.flag]

/-! ### The parameters and the reserved bits -/

/-- A command's body leaves the parameters and the reserved bits of STATUS. -/
theorem commandBody_params_reserved {i : Instr} {s u : State} (h : commandBody i s = .ok u) :
    u.params = s.params ∧ reservedBits u.status = reservedBits s.status := by
  cases i
  case bht => obtain ⟨-, -, rfl⟩ := bhtBody_ok.1 h; simp
  case hct => obtain ⟨-, ct, -, rfl⟩ := hctBody_ok.1 h; simp
  case hen => obtain ⟨-, -, out, -, rfl⟩ := henBody_ok.1 h; simp
  case hde => obtain ⟨-, -, out, -, rfl⟩ := hdeBody_ok.1 h; simp
  case bim => obtain ⟨-, -, rfl⟩ := bimBody_ok.1 h; simp
  case aen => obtain ⟨-, -, -, -, c, out, -, -, rfl⟩ := aenBody_ok.1 h; simp
  case ade => obtain ⟨-, -, -, -, -, d, out, -, rfl⟩ := adeBody_ok.1 h; simp
  case clrft => cases h; simp
  case clrsym => cases h; simp
  case clrbit => cases h; simp

@[simp] theorem clearTarget_params (s : State) (g : Target) : (clearTarget s g).params = s.params := by
  cases g <;> rfl

@[simp] theorem clearTarget_reserved (s : State) (g : Target) :
    reservedBits (clearTarget s g).status = reservedBits s.status := by
  cases g <;> simp [clearTarget]

@[simp] theorem takeFault_params (ws : List Target) (f : CmdFault) (s : State) :
    (takeFault ws f s).params = s.params := by
  rw [takeFault, report_params, clearTargets]
  induction ws generalizing s with
  | nil => rfl
  | cons g ws ih => exact (ih _).trans (clearTarget_params s g)

@[simp] theorem takeFault_reserved (ws : List Target) (f : CmdFault) (s : State) :
    reservedBits (takeFault ws f s).status = reservedBits s.status := by
  rw [takeFault, report_status, reservedBits_putErr, clearTargets]
  induction ws generalizing s with
  | nil => rfl
  | cons g ws ih => exact (ih _).trans (clearTarget_reserved s g)

theorem pushFt_params (e : FtEntry) (s : State) : (pushFt e s).params = s.params := by rw [pushFt_eq]

theorem pushFt_reserved (e : FtEntry) (s : State) : reservedBits (pushFt e s).status = reservedBits s.status := by
  unfold pushFt
  split <;> simp

theorem pushSym_params (x : Symbol) (s : State) : (pushSym x s).params = s.params := by
  unfold pushSym
  split <;> rfl

theorem pushSym_reserved (x : Symbol) (s : State) : reservedBits (pushSym x s).status = reservedBits s.status := by
  unfold pushSym
  split <;> simp

theorem pushBit_params (b : Bit) (s : State) : (pushBit b s).params = s.params := by
  unfold pushBit
  split <;> rfl

theorem pushBit_reserved (b : Bit) (s : State) : reservedBits (pushBit b s).status = reservedBits s.status := by
  unfold pushBit
  split <;> simp

end Sys2Proof.Machine
end

section
/-! PROOFS. No step takes a buffer past its capacity (`10_state.md` R51 (a)). -/

namespace Sys2Proof.Machine

/-! ### The lengths the loops give -/

theorem lookupCode_mem {ct : List CodeEntry} {x : Symbol} {e : CodeEntry} (h : lookupCode ct x = some e) : e ∈ ct :=
  List.mem_of_find?_eq_some h

/-- The loop of HEN stays within the capacity. -/
theorem huffmanEncode_length {ct : List CodeEntry} {maxBits i : Nat} {xs : List Symbol} {out out' : BitString}
    (hct : ∀ c ∈ ct, c.bits.length = c.len) (hout : out.length ≤ maxBits)
    (h : huffmanEncode ct maxBits i xs out = .ok out') : out'.length ≤ maxBits := by
  induction xs generalizing i out with
  | nil => cases h; exact hout
  | cons x xs ih =>
    unfold huffmanEncode at h
    split at h
    · cases h
    · next e he =>
      split at h
      · cases h
      · refine ih ?_ h
        rw [List.length_append, hct e (lookupCode_mem he)]
        omega

/-- The loop of HDE stays within the capacity. -/
theorem huffmanDecode_length {tn : List TreeNode} {root maxN p : Nat} {bs : BitString} {node node' : Nat}
    {out out' : List Symbol} (hout : out.length ≤ maxN)
    (h : huffmanDecode tn root maxN p bs node out = .ok (node', out')) : out'.length ≤ maxN := by
  induction bs generalizing p node out with
  | nil => cases h; exact hout
  | cons b bs ih =>
    unfold huffmanDecode at h
    split at h
    · cases h
    · exact ih hout h
    · split at h
      · cases h
      · exact ih (by simp; omega) h

/-- The loop of ADE gives one symbol a turn. -/
theorem decodeSymbols_length {im : List Interval} {t k : Nat} {bits : BitString} {n i : Nat} {d d' : Decoder}
    {acc out : List Symbol} (h : decodeSymbols im t k bits n i d acc = .ok (d', out)) :
    out.length = acc.length + n := by
  induction n generalizing i d acc with
  | zero => cases h; rfl
  | succ n ih =>
    obtain ⟨r, -, hrest⟩ := bind_eq_ok.1 h
    rw [ih hrest, List.length_append, List.length_singleton]
    omega

/-! ### The capacities -/

/-- The eight bounds, with the lengths of the codes. -/
theorem capacityInv_iff (s : State) :
    CapacityInv s ↔
      (s.ft.length ≤ s.params.maxSyms ∧ s.tn.length ≤ s.params.maxNodes ∧ s.ct.length ≤ s.params.maxSyms ∧
        s.im.length ≤ s.params.maxSyms ∧ s.symIn.length ≤ s.params.maxN ∧ s.symOut.length ≤ s.params.maxN ∧
        s.bitIn.length ≤ s.params.maxBits ∧ s.bitOut.length ≤ s.params.maxBits) ∧
      ∀ c ∈ s.ct, c.bits.length = c.len := by
  rw [← memory_wf_iff]
  exact ⟨fun ⟨hb, hc⟩ => ⟨hb, hc⟩, fun ⟨hb, hc⟩ => ⟨hb, hc⟩⟩

/-- A command that has a value leaves every buffer within its capacity. -/
theorem commandBody_capacity {i : Instr} {s u : State} (hs : CapacityInv s) (h : commandBody i s = .ok u) :
    CapacityInv u := by
  obtain ⟨⟨hft, htn, hct, him, hsymIn, hsymOut, hbitIn, hbitOut⟩, hcode⟩ := (capacityInv_iff s).1 hs
  rw [capacityInv_iff]
  cases i
  case bht =>
    obtain ⟨-, ⟨hne, -⟩, rfl⟩ := bhtBody_ok.1 h
    have hsize := (treeInv_buildTree hne).size
    have htree : (buildTree s.ft).1.length ≤ s.params.maxNodes := by unfold Params.maxNodes; omega
    exact ⟨⟨hft, htree, Nat.zero_le _, him, hsymIn, hsymOut, hbitIn, hbitOut⟩, nofun⟩
  case hct =>
    obtain ⟨-, ct, htable, rfl⟩ := hctBody_ok.1 h
    obtain ⟨hlen, hleaf⟩ := codeTable_sound htable
    have hle : ct.length ≤ s.params.maxSyms := by unfold Params.maxNodes at htn; omega
    refine ⟨⟨hft, htn, hle, him, hsymIn, hsymOut, hbitIn, hbitOut⟩, fun c hc => ?_⟩
    obtain ⟨j, hj⟩ := List.mem_iff_getElem?.1 hc
    obtain ⟨nd, p, -, -, -, rfl⟩ := hleaf j c hj
    rfl
  case hen =>
    obtain ⟨-, -, out, hout, rfl⟩ := henBody_ok.1 h
    have hle := huffmanEncode_length hcode (Nat.zero_le _) hout
    exact ⟨⟨hft, htn, hct, him, hsymIn, hsymOut, hbitIn, hle⟩, hcode⟩
  case hde =>
    obtain ⟨-, -, out, hout, rfl⟩ := hdeBody_ok.1 h
    have hle := huffmanDecode_length (Nat.zero_le _) hout
    exact ⟨⟨hft, htn, hct, him, hsymIn, hle, hbitIn, hbitOut⟩, hcode⟩
  case bim =>
    obtain ⟨-, -, rfl⟩ := bimBody_ok.1 h
    have hle : (buildIntervals 0 s.ft).1.length ≤ s.params.maxSyms := by rwa [buildIntervals_length]
    exact ⟨⟨hft, htn, hct, hle, hsymIn, hsymOut, hbitIn, hbitOut⟩, hcode⟩
  case aen =>
    obtain ⟨-, -, -, -, c, out, -, hflush, rfl⟩ := aenBody_ok.1 h
    exact ⟨⟨hft, htn, hct, him, hsymIn, hsymOut, hbitIn, (flush_length hflush).2⟩, hcode⟩
  case ade =>
    obtain ⟨-, -, -, hn, -, d, out, hout, rfl⟩ := adeBody_ok.1 h
    have hle : out.length ≤ s.params.maxN := by rw [decodeSymbols_length hout]; simpa using hn
    exact ⟨⟨hft, htn, hct, him, hsymIn, hle, hbitIn, hbitOut⟩, hcode⟩
  case clrft =>
    cases h
    exact ⟨⟨Nat.zero_le _, Nat.zero_le _, Nat.zero_le _, Nat.zero_le _, hsymIn, hsymOut, hbitIn, hbitOut⟩, nofun⟩
  case clrsym =>
    cases h
    exact ⟨⟨hft, htn, hct, him, Nat.zero_le _, hsymOut, hbitIn, hbitOut⟩, hcode⟩
  case clrbit =>
    cases h
    exact ⟨⟨hft, htn, hct, him, hsymIn, hsymOut, Nat.zero_le _, hbitOut⟩, hcode⟩

/-- A fault leaves CT or empties it. -/
theorem takeFault_ct_subset (ws : List Target) (f : CmdFault) (s : State) : (takeFault ws f s).ct ⊆ s.ct := by
  rw [takeFault, report_ct, clearTargets]
  induction ws generalizing s with
  | nil => exact List.Subset.refl _
  | cons g ws ih =>
    have hclear : (clearTarget s g).ct ⊆ s.ct := by cases g <;> simp [clearTarget]
    exact List.Subset.trans (ih _) hclear

theorem takeFault_capacity {s : State} (hs : CapacityInv s) (ws : List Target) (f : CmdFault) :
    CapacityInv (takeFault ws f s) where
  buffers := takeFault_wf ws f s hs.buffers
  code_len := fun c hc => hs.code_len c (takeFault_ct_subset ws f s hc)

theorem capacityInv_resetWith (p : Params) : CapacityInv (State.resetWith p) where
  buffers := memory_wf_resetWith p
  code_len := nofun

theorem capacityInv_kept : KeptBySteps CapacityInv where
  hostFields := fun _ _ _ _ _ _ hs => ⟨hs.buffers, hs.code_len⟩
  success := fun _ _ u hs h =>
    have hu := commandBody_capacity hs h
    ⟨report_wf _ u hu.buffers, hu.code_len⟩
  fault := fun i _ f hs _ => takeFault_capacity hs (writeSet i) f
  illegal := fun _ hs => takeFault_capacity hs [] _
  ftPush := fun e s _ _ hs => ⟨pushFt_wf e s hs.buffers, by rw [pushFt_eq]; exact nofun⟩
  symPush := fun x s _ hs => ⟨pushSym_wf x s hs.buffers, by rw [pushSym_eq]; split <;> exact hs.code_len⟩
  bitPush := fun b s hs => ⟨pushBit_wf b s hs.buffers, by rw [pushBit_eq]; split <;> exact hs.code_len⟩
  reset := fun s _ => ⟨memory_wf_resetWith s.params, nofun⟩

end Sys2Proof.Machine

namespace Sys2Proof.Proofs

open Sys2Proof.Machine

/-- Settles O53: every loop stops or faults before it would pass a capacity, and a fault only empties buffers. -/
theorem stepKeepsCapacities : Obligations.StepKeepsCapacities :=
  fun _ _ hs hstep => capacityInv_kept.step hs hstep

end Sys2Proof.Proofs
end

section
/-! PROOFS. Every step keeps the global invariant of `10_state.md` R51. The fields that R51 relates are read off a state as a
`Derived`; BHT, HCT and BIM put the structures of R26, R27 and R28 there, faults and Invalidate discard them, and all else
leaves them. -/

namespace Sys2Proof.Machine

/-! ### The derived structures of a state -/

/-- The table, the structures derived from it, and the flags that say which are valid. -/
structure Derived where
  ft : List FtEntry
  tn : List TreeNode
  root : Nat
  ct : List CodeEntry
  im : List Interval
  t : Nat
  treeV : Bool
  ctV : Bool
  imV : Bool
  ftOvf : Bool

def State.derived (s : State) : Derived where
  ft := s.ft
  tn := s.tn
  root := s.root
  ct := s.ct
  im := s.im
  t := s.t
  treeV := s.flag .treeV
  ctV := s.flag .ctV
  imV := s.flag .imV
  ftOvf := s.flag .ftOvf

/-- R51 (b) to (f). -/
structure Derived.Ok (d : Derived) : Prop where
  no_tree : d.treeV = false → d.tn = [] ∧ d.root = 0 ∧ d.ctV = false
  no_codes : d.ctV = false → d.ct = []
  no_model : d.imV = false → d.im = [] ∧ d.t = 0
  tree : d.treeV = true → TreeInv d.ft d.tn d.root
  codes : d.ctV = true → CodeInv d.ft d.tn d.root d.ct
  model : d.imV = true → IntervalInv d.ft d.im d.t
  table : d.treeV = true ∨ d.ctV = true ∨ d.imV = true → d.ftOvf = false ∧ FtWellFormed d.ft

/-- The tree and its codes discarded. -/
def Derived.noTree (d : Derived) : Derived :=
  { d with tn := [], root := 0, ct := [], treeV := false, ctV := false }

/-- The codes discarded. -/
def Derived.noCodes (d : Derived) : Derived := { d with ct := [], ctV := false }

/-- The model discarded. -/
def Derived.noModel (d : Derived) : Derived := { d with im := [], t := 0, imV := false }

namespace Derived.Ok

variable {d : Derived} (h : d.Ok)
include h

/-- A valid code table is that of a valid tree (R51 (b)). -/
theorem treeV_of_ctV (hc : d.ctV = true) : d.treeV = true := by
  by_contra hn
  have := (h.no_tree (by simpa using hn)).2.2
  simp [hc] at this

theorem noTree : d.noTree.Ok where
  no_tree := fun _ => ⟨rfl, rfl, rfl⟩
  no_codes := fun _ => rfl
  no_model := h.no_model
  tree := nofun
  codes := nofun
  model := h.model
  table
    | .inr (.inr hm) => h.table (.inr (.inr hm))

theorem noCodes : d.noCodes.Ok where
  no_tree := fun hn =>
    have ⟨htn, hroot, _⟩ := h.no_tree hn
    ⟨htn, hroot, rfl⟩
  no_codes := fun _ => rfl
  no_model := h.no_model
  tree := h.tree
  codes := nofun
  model := h.model
  table
    | .inl ht => h.table (.inl ht)
    | .inr (.inr hm) => h.table (.inr (.inr hm))

theorem noModel : d.noModel.Ok where
  no_tree := h.no_tree
  no_codes := h.no_codes
  no_model := fun _ => ⟨rfl, rfl⟩
  tree := h.tree
  codes := h.codes
  model := nofun
  table
    | .inl ht => h.table (.inl ht)
    | .inr (.inl hc) => h.table (.inr (.inl hc))

/-- A new tree discards the codes of the old one. -/
theorem withTree {tn : List TreeNode} {root : Nat} (hovf : d.ftOvf = false) (hft : FtWellFormed d.ft)
    (htree : TreeInv d.ft tn root) :
    { d with tn := tn, root := root, ct := [], treeV := true, ctV := false : Derived }.Ok where
  no_tree := nofun
  no_codes := fun _ => rfl
  no_model := h.no_model
  tree := fun _ => htree
  codes := nofun
  model := h.model
  table := fun _ => ⟨hovf, hft⟩

theorem withCodes {ct : List CodeEntry} (htree : d.treeV = true) (hct : CodeInv d.ft d.tn d.root ct) :
    { d with ct := ct, ctV := true : Derived }.Ok where
  no_tree := fun hn => Bool.noConfusion (htree.symm.trans hn)
  no_codes := nofun
  no_model := h.no_model
  tree := h.tree
  codes := fun _ => hct
  model := h.model
  table := fun _ => h.table (.inl htree)

theorem withModel {im : List Interval} {t : Nat} (hovf : d.ftOvf = false) (hft : FtWellFormed d.ft)
    (him : IntervalInv d.ft im t) : { d with im := im, t := t, imV := true : Derived }.Ok where
  no_tree := h.no_tree
  no_codes := h.no_codes
  no_model := nofun
  tree := h.tree
  codes := h.codes
  model := fun _ => him
  table := fun _ => ⟨hovf, hft⟩

end Derived.Ok

/-- With nothing derived, any table will do: the table may be written then. -/
theorem derived_ok_of_discarded (ft : List FtEntry) (ovf : Bool) :
    (⟨ft, [], 0, [], [], 0, false, false, false, ovf⟩ : Derived).Ok where
  no_tree := fun _ => ⟨rfl, rfl, rfl⟩
  no_codes := fun _ => rfl
  no_model := fun _ => ⟨rfl, rfl⟩
  tree := nofun
  codes := nofun
  model := nofun
  table := by simp

/-! ### The invariant in parts -/

theorem Inv.derived_ok {s : State} (h : Inv s) : s.derived.Ok where
  no_tree := h.no_tree
  no_codes := h.no_codes
  no_model := h.no_model
  tree := h.tree
  codes := h.codes
  model := h.model
  table := fun hv => h.table (by simpa [State.derived, or_assoc] using hv)

theorem Inv.treeV_of_ctV {s : State} (h : Inv s) (hc : s.flag .ctV = true) : s.flag .treeV = true :=
  h.derived_ok.treeV_of_ctV hc

/-- The codes of a state that meets R51 have the length their entries state. -/
theorem Inv.capacityInv {s : State} (h : Inv s) : CapacityInv s where
  buffers := h.capacity
  code_len := by
    cases hc : s.flag .ctV with
    | false => rw [h.no_codes hc]; exact nofun
    | true => exact fun c hmem => ((h.codes hc).entry_bounds (h.tree (h.treeV_of_ctV hc)) hmem).1

theorem inv_iff (s : State) :
    Inv s ↔ s.params.wf = true ∧ CapacityInv s ∧ s.derived.Ok ∧ reservedBits s.status = 0 := by
  refine ⟨fun h => ⟨h.params_wf, h.capacityInv, h.derived_ok, h.reserved⟩, fun ⟨hparams, hcap, hok, hres⟩ => ?_⟩
  constructor
  case params_wf => exact hparams
  case capacity => exact hcap.buffers
  case no_tree => exact hok.no_tree
  case no_codes => exact hok.no_codes
  case no_model => exact hok.no_model
  case tree => exact hok.tree
  case codes => exact hok.codes
  case model => exact hok.model
  case table => exact fun hv => hok.table (by simpa [State.derived, or_assoc] using hv)
  case reserved => exact hres

/-! ### What each operation does to the derived structures -/

@[simp] theorem derived_report (f : CmdFault) (s : State) : (report f s).derived = s.derived := by
  simp [State.derived]

@[simp] theorem derived_succeed (s : State) : (succeed s).derived = s.derived := derived_report _ s

theorem derived_withTree (s : State) (tn : List TreeNode) (root : Nat) :
    (withTree s tn root).derived =
      { s.derived with tn := tn, root := root, ct := [], treeV := true, ctV := false } := by
  simp [State.derived, State.flag]

theorem derived_withCodes (s : State) (ct : List CodeEntry) :
    State.derived { s with ct := ct, status := putFlag s.status .ctV true } =
      { s.derived with ct := ct, ctV := true } := by
  simp [State.derived, State.flag]

theorem derived_withModel (s : State) (im : List Interval) (t : Nat) :
    State.derived { s with im := im, t := t, status := putFlag s.status .imV true } =
      { s.derived with im := im, t := t, imV := true } := by
  simp [State.derived, State.flag]

theorem derived_clearTargets_bht (s : State) : (clearTargets (writeSet .bht) s).derived = s.derived.noTree := by
  rw [clearTargets_bht]
  simp [State.derived, State.flag, Derived.noTree]

theorem derived_clearTargets_hct (s : State) : (clearTargets (writeSet .hct) s).derived = s.derived.noCodes := by
  rw [clearTargets_hct]
  simp [State.derived, State.flag, Derived.noCodes]

theorem derived_clearTargets_bim (s : State) : (clearTargets (writeSet .bim) s).derived = s.derived.noModel := by
  rw [clearTargets_bim]
  simp [State.derived, State.flag, Derived.noModel]

theorem derived_invalidate (s : State) :
    (invalidate s).derived = ⟨s.ft, [], 0, [], [], 0, false, false, false, s.flag .ftOvf⟩ := by
  simp [State.derived, flag_invalidate]

theorem derived_resetWith (p : Params) :
    (State.resetWith p).derived = ⟨[], [], 0, [], [], 0, false, false, false, false⟩ := by
  simp [State.derived, State.resetWith, State.flag, getFlag]

theorem derived_pushSym (x : Symbol) (s : State) : (pushSym x s).derived = s.derived := by
  unfold pushSym
  split
  · rfl
  · simp [State.derived]

theorem derived_pushBit (b : Bit) (s : State) : (pushBit b s).derived = s.derived := by
  unfold pushBit
  split
  · rfl
  · simp [State.derived]

/-! ### The clauses of R51 through commands -/

/-- A command that has a value leaves derived structures that agree with the table and the flags. -/
theorem commandBody_derived_ok {i : Instr} {s u : State} (hs : s.derived.Ok) (h : commandBody i s = .ok u) :
    u.derived.Ok := by
  cases i
  case bht =>
    obtain ⟨hovf, hft, rfl⟩ := bhtBody_ok.1 h
    rw [derived_withTree]
    exact hs.withTree hovf hft (treeInv_buildTree hft.1)
  case hct =>
    obtain ⟨htree, ct, hct, rfl⟩ := hctBody_ok.1 h
    rw [derived_withCodes]
    exact hs.withCodes htree (codeInv_codeTable (hs.tree htree) hct)
  case bim =>
    obtain ⟨hovf, hft, rfl⟩ := bimBody_ok.1 h
    rw [derived_withModel]
    exact hs.withModel hovf hft (intervalInv_buildIntervals hft.1)
  case hen => obtain ⟨-, -, out, -, rfl⟩ := henBody_ok.1 h; exact hs
  case hde => obtain ⟨-, -, out, -, rfl⟩ := hdeBody_ok.1 h; exact hs
  case aen => obtain ⟨-, -, -, -, c, out, -, -, rfl⟩ := aenBody_ok.1 h; exact hs
  case ade => obtain ⟨-, -, -, -, -, d, out, -, rfl⟩ := adeBody_ok.1 h; exact hs
  case clrft =>
    cases h
    rw [derived_invalidate]
    exact derived_ok_of_discarded _ _
  case clrsym => cases h; simpa [State.derived, State.flag] using hs
  case clrbit => cases h; simpa [State.derived, State.flag] using hs

/-- A fault discards the derived structures of the command's write-set, and no other. -/
theorem takeFault_derived_ok {s : State} (hs : s.derived.Ok) (i : Instr) (f : CmdFault) :
    (takeFault (writeSet i) f s).derived.Ok := by
  rw [takeFault, derived_report]
  cases i
  case bht => rw [derived_clearTargets_bht]; exact hs.noTree
  case hct => rw [derived_clearTargets_hct]; exact hs.noCodes
  case bim => rw [derived_clearTargets_bim]; exact hs.noModel
  case hen => rw [clearTargets_hen]; exact hs
  case hde => rw [clearTargets_hde]; exact hs
  case aen => rw [clearTargets_aen]; exact hs
  case ade => rw [clearTargets_ade]; exact hs
  case clrft => exact hs
  case clrsym => exact hs
  case clrbit => exact hs

theorem inv_resetWith {p : Params} (hp : p.wf = true) : Inv (State.resetWith p) := by
  refine (inv_iff _).2 ⟨hp, capacityInv_resetWith p, ?_, by simp [State.resetWith, reservedBits]⟩
  rw [derived_resetWith]
  exact derived_ok_of_discarded _ _

theorem inv_kept : KeptBySteps Inv where
  hostFields := by
    intro s pending reply cmd k n hs
    obtain ⟨hparams, hcap, hok, hres⟩ := (inv_iff s).1 hs
    exact (inv_iff _).2 ⟨hparams, capacityInv_kept.hostFields s _ _ _ _ _ hcap, hok, hres⟩
  success := by
    intro i s u hs h
    obtain ⟨hparams, hcap, hok, hres⟩ := (inv_iff s).1 hs
    obtain ⟨hp, hr⟩ := commandBody_params_reserved h
    refine (inv_iff _).2 ⟨?_, capacityInv_kept.success i s u hcap h, ?_, ?_⟩
    · rwa [succeed_params, hp]
    · rw [derived_succeed]
      exact commandBody_derived_ok hok h
    · rwa [succeed_status, reservedBits_putErr, hr]
  fault := by
    intro i s f hs h
    obtain ⟨hparams, hcap, hok, hres⟩ := (inv_iff s).1 hs
    refine (inv_iff _).2 ⟨?_, capacityInv_kept.fault i s f hcap h, takeFault_derived_ok hok i f, ?_⟩
    · rwa [takeFault_params]
    · rwa [takeFault_reserved]
  illegal := by
    intro s hs
    obtain ⟨hparams, hcap, hok, hres⟩ := (inv_iff s).1 hs
    exact (inv_iff _).2 ⟨hparams, capacityInv_kept.illegal s hcap, by rwa [illegalCommand, takeFault, derived_report],
      by simpa using hres⟩
  ftPush := by
    intro e s hsym hcount hs
    obtain ⟨hparams, hcap, -, hres⟩ := (inv_iff s).1 hs
    refine (inv_iff _).2 ⟨?_, capacityInv_kept.ftPush e s hsym hcount hcap, ?_, ?_⟩
    · rwa [pushFt_params]
    · rw [pushFt, derived_invalidate]
      exact derived_ok_of_discarded _ _
    · rwa [pushFt_reserved]
  symPush := by
    intro x s hx hs
    obtain ⟨hparams, hcap, hok, hres⟩ := (inv_iff s).1 hs
    refine (inv_iff _).2 ⟨?_, capacityInv_kept.symPush x s hx hcap, ?_, ?_⟩
    · rwa [pushSym_params]
    · rwa [derived_pushSym]
    · rwa [pushSym_reserved]
  bitPush := by
    intro b s hs
    obtain ⟨hparams, hcap, hok, hres⟩ := (inv_iff s).1 hs
    refine (inv_iff _).2 ⟨?_, capacityInv_kept.bitPush b s hcap, ?_, ?_⟩
    · rwa [pushBit_params]
    · rwa [derived_pushBit]
    · rwa [pushBit_reserved]
  reset := fun s hs => by
    obtain ⟨hparams, hcap, hok, hres⟩ := (inv_iff _).1 (inv_resetWith hs.params_wf)
    exact (inv_iff _).2 ⟨hparams, capacityInv_kept.reset s hs.capacityInv, hok, hres⟩

end Sys2Proof.Machine

namespace Sys2Proof.Proofs

open Sys2Proof.Machine

/-- Settles O54: BHT, HCT and BIM give the structures of R26, R27 and R28 for the present table, a push to FT and a fault
discard what no longer agrees with it, and nothing else touches them. -/
theorem stepKeepsTheGlobalInvariant : Obligations.StepKeepsTheGlobalInvariant :=
  fun _ _ hs hstep => inv_kept.step hs hstep

end Sys2Proof.Proofs
end

section
/-! PROOFS. What each command may report: the faults of `60_exceptions.md` R231, with a position inside what the command
reads and a symbol of the table or of the message. -/

namespace Sys2Proof.Machine

/-! ### The faults of a result -/

/-- Whatever fault `r` raises meets `P`. -/
def Raises {α : Type} (P : CmdFault → Prop) (r : Result α) : Prop := ∀ f, r = .error (.raise f) → P f

theorem raises_ok {α : Type} {P : CmdFault → Prop} (a : α) : Raises P (.ok a : Result α) := nofun

theorem raises_stuck {α : Type} {P : CmdFault → Prop} (r : Fault) : Raises P (stuck r : Result α) := nofun

theorem raises_raise {α : Type} {P : CmdFault → Prop} {err : ErrCode} {pos sym : Nat} (h : P ⟨err, pos, sym⟩) :
    Raises P (raise err pos sym : Result α) := by
  intro f hf
  cases hf
  exact h

theorem raises_require {P : CmdFault → Prop} {c : Bool} {err : ErrCode} {pos sym : Nat} (h : P ⟨err, pos, sym⟩) :
    Raises P (require c err pos sym) := by
  cases c
  · exact raises_raise h
  · exact raises_ok ()

theorem Raises.bind {α β : Type} {P : CmdFault → Prop} {x : Result α} {f : α → Result β} (hx : Raises P x)
    (hf : ∀ a, Raises P (f a)) : Raises P (x >>= f) := by
  intro e he
  rcases bind_eq_error.1 he with h | ⟨a, -, h⟩
  · exact hx e h
  · exact hf a e h

theorem Raises.mono {α : Type} {P Q : CmdFault → Prop} {r : Result α} (h : Raises P r) (hPQ : ∀ f, P f → Q f) :
    Raises Q r := fun f hf => hPQ f (h f hf)

/-! ### The loops -/

/-- An entry of the table is InvalidInput at its index, with its symbol (`10_state.md` R23). -/
theorem ftCheckFrom_raises (seen es : List FtEntry) (i : Nat) :
    Raises (fun f => f.err = .invalidInput ∧ f.pos < i + es.length ∧ f.sym ∈ es.map FtEntry.sym)
      (ftCheckFrom seen i es) := by
  induction es generalizing seen i with
  | nil => exact raises_ok ()
  | cons e es ih =>
    unfold ftCheckFrom
    split
    · exact raises_raise ⟨rfl, by simp, by simp⟩
    · split
      · exact raises_raise ⟨rfl, by simp, by simp⟩
      · refine (ih _ _).mono fun f ⟨herr, hpos, hsym⟩ => ⟨herr, ?_, List.mem_cons_of_mem _ hsym⟩
        simp only [List.length_cons]
        omega

theorem ftCheck_raises (ft : List FtEntry) :
    Raises (fun f => f.err = .invalidInput ∧
      (f.pos = 0 ∧ f.sym = 0 ∨ f.pos < ft.length ∧ f.sym ∈ ft.map FtEntry.sym)) (ftCheck ft) := by
  unfold ftCheck
  split
  · exact raises_raise ⟨rfl, .inl ⟨rfl, rfl⟩⟩
  · exact (ftCheckFrom_raises [] ft 0).mono fun f ⟨herr, hpos, hsym⟩ => ⟨herr, .inr ⟨by simpa using hpos, hsym⟩⟩

/-- A fault of an encoder's loop over `xs` from index `i` on: a symbol without an entry, or output that does not fit. -/
def EncodeFault (i : Nat) (xs : List Symbol) (f : CmdFault) : Prop :=
  (f.err = .unknownSymbol ∧ f.sym ∈ xs ∨ f.err = .capacityExceeded ∧ f.sym = 0) ∧ f.pos < i + xs.length

theorem EncodeFault.cons {i : Nat} {x : Symbol} {xs : List Symbol} {f : CmdFault} (h : EncodeFault (i + 1) xs f) :
    EncodeFault i (x :: xs) f := by
  obtain ⟨hkind, hpos⟩ := h
  refine ⟨hkind.imp_left fun ⟨herr, hsym⟩ => ⟨herr, List.mem_cons_of_mem _ hsym⟩, ?_⟩
  rw [List.length_cons]
  omega

theorem encodeFault_unknown (i : Nat) (x : Symbol) (xs : List Symbol) :
    EncodeFault i (x :: xs) ⟨.unknownSymbol, i, x⟩ := ⟨.inl ⟨rfl, List.mem_cons_self⟩, by simp⟩

theorem encodeFault_capacity (i : Nat) (x : Symbol) (xs : List Symbol) :
    EncodeFault i (x :: xs) ⟨.capacityExceeded, i, 0⟩ := ⟨.inr ⟨rfl, rfl⟩, by simp⟩

theorem huffmanEncode_raises (ct : List CodeEntry) (maxBits i : Nat) (xs : List Symbol) (out : BitString) :
    Raises (EncodeFault i xs) (huffmanEncode ct maxBits i xs out) := by
  induction xs generalizing i out with
  | nil => exact raises_ok out
  | cons x xs ih =>
    unfold huffmanEncode
    split
    · exact raises_raise (encodeFault_unknown i x xs)
    · split
      · exact raises_raise (encodeFault_capacity i x xs)
      · exact (ih _ _).mono fun _ => EncodeFault.cons

theorem emit_raises (maxBits : Nat) (out : BitString) (b : Bit) (m i : Nat) :
    Raises (· = ⟨.capacityExceeded, i, 0⟩) (emit maxBits out b m i) := by
  unfold emit
  split
  · exact raises_raise rfl
  · exact raises_ok _

theorem encRenorm_raises (maxBits : Nat) (r : Int) (i fuel : Nat) (c : Encoder) :
    Raises (· = ⟨.capacityExceeded, i, 0⟩) (encRenorm maxBits r i fuel c) := by
  induction fuel generalizing c with
  | zero => exact raises_stuck _
  | succ fuel ih =>
    unfold encRenorm
    split
    · exact ((emit_raises _ _ _ _ _).bind fun _ => raises_ok _).bind ih
    · exact ((emit_raises _ _ _ _ _).bind fun _ => raises_ok _).bind ih
    · exact ih _
    · exact raises_ok c

theorem encodeSymbol_raises (im : List Interval) (t k maxBits i : Nat) (x : Symbol) (xs : List Symbol) (c : Encoder) :
    Raises (EncodeFault i (x :: xs)) (encodeSymbol im t k maxBits i x c) := by
  unfold encodeSymbol
  split
  · exact raises_raise (encodeFault_unknown i x xs)
  · split
    · exact raises_stuck _
    · refine (encRenorm_raises _ _ _ _ _).mono ?_
      rintro _ rfl
      exact encodeFault_capacity i x xs

theorem encodeSymbols_raises (im : List Interval) (t k maxBits i : Nat) (xs : List Symbol) (c : Encoder) :
    Raises (EncodeFault i xs) (encodeSymbols im t k maxBits i xs c) := by
  induction xs generalizing i c with
  | nil => exact raises_ok c
  | cons x xs ih =>
    exact (encodeSymbol_raises im t k maxBits i x xs c).bind fun c' => (ih (i + 1) c').mono fun _ => EncodeFault.cons

theorem flush_raises (maxBits : Nat) (r : Int) (c : Encoder) (pos : Nat) :
    Raises (· = ⟨.capacityExceeded, pos, 0⟩) (flush maxBits r c pos) := by
  unfold flush
  split
  · exact raises_raise rfl
  · split <;> exact raises_ok _

/-- A fault of a decoder's loop below position `hi`: no symbol is reported. -/
def DecodeFault (hi : Nat) (f : CmdFault) : Prop :=
  (f.err = .malformedStream ∨ f.err = .capacityExceeded) ∧ f.sym = 0 ∧ f.pos < hi

theorem hufStep_raises (tn : List TreeNode) (root node : Nat) (b : Bit) (p : Nat) :
    Raises (· = ⟨.malformedStream, p, 0⟩) (hufStep tn root node b p) := by
  unfold hufStep
  split
  · exact raises_raise rfl
  · split
    · dsimp only
      split
      · exact raises_raise rfl
      · split <;> exact raises_ok _
    · split
      · exact raises_raise rfl
      · split
        · exact raises_raise rfl
        · exact raises_ok _

theorem huffmanDecode_raises (tn : List TreeNode) (root maxN p : Nat) (bs : BitString) (node : Nat)
    (out : List Symbol) : Raises (DecodeFault (p + bs.length)) (huffmanDecode tn root maxN p bs node out) := by
  induction bs generalizing p node out with
  | nil => exact raises_ok _
  | cons b bs ih =>
    have hlen : p + 1 + bs.length = p + (b :: bs).length := by rw [List.length_cons]; omega
    have hp : p < p + (b :: bs).length := by simp
    unfold huffmanDecode
    split
    · next e he =>
      rintro f hf
      cases hf
      obtain rfl := hufStep_raises _ _ _ _ _ f he
      exact ⟨.inl rfl, rfl, hp⟩
    · exact hlen ▸ ih _ _ _
    · split
      · exact raises_raise ⟨.inr rfl, rfl, hp⟩
      · exact hlen ▸ ih _ _ _

theorem decRenorm_raises (bits : BitString) (r : Int) (fuel : Nat) (d : Decoder) :
    Raises (fun _ => False) (decRenorm bits r fuel d) := by
  induction fuel generalizing d with
  | zero => exact raises_stuck _
  | succ fuel ih =>
    unfold decRenorm
    split
    · exact ih _
    · exact raises_ok d

theorem decodeSymbol_raises (im : List Interval) (t k : Nat) (bits : BitString) (i : Nat) (d : Decoder) :
    Raises (· = ⟨.malformedStream, i, 0⟩) (decodeSymbol im t k bits i d) := by
  unfold decodeSymbol
  split
  · exact raises_raise rfl
  · split
    · exact raises_stuck _
    · exact ((decRenorm_raises _ _ _ _).mono fun _ => False.elim).bind fun _ => raises_ok _

theorem decodeSymbols_raises (im : List Interval) (t k : Nat) (bits : BitString) (n i : Nat) (d : Decoder)
    (out : List Symbol) : Raises (DecodeFault (i + n)) (decodeSymbols im t k bits n i d out) := by
  induction n generalizing i d out with
  | zero => exact raises_ok _
  | succ n ih =>
    refine Raises.bind ((decodeSymbol_raises im t k bits i d).mono ?_) fun r => ?_
    · rintro _ rfl
      exact ⟨.inl rfl, rfl, by simp⟩
    · have hlen : i + 1 + n = i + (n + 1) := by omega
      exact hlen ▸ ih _ _ _

/-! ### The commands -/

/-- What command `i` may report of the state `s` it started in. -/
structure Reportable (i : Instr) (s : State) (f : CmdFault) : Prop where
  err : f.err ∈ mayRaise i
  /-- only InvalidInput and UnknownSymbol report a symbol (R231) -/
  sym_only : f.sym ≠ 0 → f.err = .invalidInput ∨ f.err = .unknownSymbol
  sym : f.sym = 0 ∨ f.sym ∈ s.ft.map FtEntry.sym ∨ f.sym ∈ s.symIn
  /-- an index of FT, or at most a length or an operand of the command -/
  pos : f.pos < s.ft.length ∨ f.pos ≤ s.symIn.length ∨ f.pos ≤ s.bitIn.length ∨ f.pos ≤ s.precision ∨
    f.pos ≤ s.messageLength

/-- A fault without a symbol, at a position up to an operand of the command. -/
theorem reportable_of_no_sym {i : Instr} {s : State} {err : ErrCode} {pos : Nat} (herr : err ∈ mayRaise i)
    (hpos : pos ≤ s.symIn.length ∨ pos ≤ s.bitIn.length ∨ pos ≤ s.precision ∨ pos ≤ s.messageLength) :
    Reportable i s ⟨err, pos, 0⟩ where
  err := herr
  sym_only := fun h => absurd rfl h
  sym := .inl rfl
  pos := .inr hpos

/-- A fault of a test that reports position 0. -/
theorem reportable_at_zero {i : Instr} {s : State} {err : ErrCode} (herr : err ∈ mayRaise i) :
    Reportable i s ⟨err, 0, 0⟩ := reportable_of_no_sym herr (.inl (Nat.zero_le _))

theorem ftCheck_reportable {i : Instr} (hi : ErrCode.invalidInput ∈ mayRaise i) (s : State) :
    Raises (Reportable i s) (ftCheck s.ft) := by
  rintro f hf
  obtain ⟨herr, ⟨hpos, hsym⟩ | ⟨hpos, hsym⟩⟩ := ftCheck_raises s.ft f hf
  · exact ⟨herr ▸ hi, fun _ => .inl herr, .inl hsym, .inr (.inl (hpos ▸ Nat.zero_le _))⟩
  · exact ⟨herr ▸ hi, fun _ => .inl herr, .inr (.inl hsym), .inl hpos⟩

theorem EncodeFault.reportable {i : Instr} {s : State} {f : CmdFault} (h : EncodeFault 0 s.symIn f)
    (hu : ErrCode.unknownSymbol ∈ mayRaise i) (hc : ErrCode.capacityExceeded ∈ mayRaise i) : Reportable i s f := by
  obtain ⟨hkind, hpos⟩ := h
  have hpos : f.pos ≤ s.symIn.length := by omega
  rcases hkind with ⟨herr, hsym⟩ | ⟨herr, hsym⟩
  · exact ⟨herr ▸ hu, fun _ => .inr herr, .inr (.inr hsym), .inr (.inl hpos)⟩
  · exact ⟨herr ▸ hc, fun hne => absurd hsym hne, .inl hsym, .inr (.inl hpos)⟩

theorem DecodeFault.reportable {i : Instr} {s : State} {f : CmdFault} {hi : Nat} (h : DecodeFault hi f)
    (hhi : hi ≤ s.bitIn.length ∨ hi ≤ s.messageLength) (hm : ErrCode.malformedStream ∈ mayRaise i)
    (hc : ErrCode.capacityExceeded ∈ mayRaise i) : Reportable i s f := by
  obtain ⟨hkind, hsym, hpos⟩ := h
  refine ⟨?_, fun hne => absurd hsym hne, .inl hsym, ?_⟩
  · rcases hkind with herr | herr
    · exact herr ▸ hm
    · exact herr ▸ hc
  · omega

/-- Each command reports only what its rules let it report (R231, R239, R240). -/
theorem commandBody_raises (i : Instr) (s : State) : Raises (Reportable i s) (commandBody i s) := by
  cases i
  case bht =>
    refine (raises_require (reportable_at_zero (by decide))).bind fun _ => ?_
    exact (ftCheck_reportable (by decide) s).bind fun _ => raises_ok _
  case hct =>
    refine (raises_require (reportable_at_zero (by decide))).bind fun _ => ?_
    split
    · exact raises_ok _
    · exact raises_stuck _
  case hen =>
    refine (raises_require (reportable_at_zero (by decide))).bind fun _ => ?_
    refine (raises_require (reportable_at_zero (by decide))).bind fun _ => ?_
    refine Raises.bind ?_ fun _ => raises_ok _
    exact (huffmanEncode_raises _ _ _ _ _).mono fun f hf => hf.reportable (by decide) (by decide)
  case hde =>
    refine (raises_require (reportable_at_zero (by decide))).bind fun _ => ?_
    refine (raises_require (reportable_at_zero (by decide))).bind fun _ => ?_
    refine Raises.bind ?_ fun _ => ?_
    · exact (huffmanDecode_raises _ _ _ _ _ _ _).mono fun f hf =>
        hf.reportable (.inl (Nat.zero_add _).le) (by decide) (by decide)
    · exact (raises_require (reportable_of_no_sym (by decide) (.inr (.inl le_rfl)))).bind fun _ => raises_ok _
  case bim =>
    refine (raises_require (reportable_at_zero (by decide))).bind fun _ => ?_
    exact (ftCheck_reportable (by decide) s).bind fun _ => raises_ok _
  case aen =>
    have hk : ∀ err ∈ mayRaise .aen, Reportable .aen s ⟨err, s.precision, 0⟩ := fun err herr =>
      reportable_of_no_sym herr (.inr (.inr (.inl le_rfl)))
    refine (raises_require (reportable_at_zero (by decide))).bind fun _ => ?_
    refine (raises_require (reportable_at_zero (by decide))).bind fun _ => ?_
    refine (raises_require (hk _ (by decide))).bind fun _ => ?_
    refine (raises_require (hk _ (by decide))).bind fun _ => ?_
    refine Raises.bind ?_ fun c => Raises.bind ?_ fun _ => raises_ok _
    · exact (encodeSymbols_raises _ _ _ _ _ _ _).mono fun f hf => hf.reportable (by decide) (by decide)
    · refine (flush_raises _ _ _ _).mono ?_
      rintro _ rfl
      exact reportable_of_no_sym (by decide) (.inl le_rfl)
  case ade =>
    have hk : ∀ err ∈ mayRaise .ade, Reportable .ade s ⟨err, s.precision, 0⟩ := fun err herr =>
      reportable_of_no_sym herr (.inr (.inr (.inl le_rfl)))
    refine (raises_require (reportable_at_zero (by decide))).bind fun _ => ?_
    refine (raises_require (reportable_at_zero (by decide))).bind fun _ => ?_
    refine (raises_require (hk _ (by decide))).bind fun _ => ?_
    refine (raises_require (reportable_of_no_sym (by decide) (.inr (.inr (.inr le_rfl))))).bind fun _ => ?_
    refine (raises_require (hk _ (by decide))).bind fun _ => ?_
    refine Raises.bind ?_ fun _ => raises_ok _
    exact (decodeSymbols_raises _ _ _ _ _ _ _ _).mono fun f hf =>
      hf.reportable (.inr (Nat.zero_add _).le) (by decide) (by decide)
  case clrft => exact raises_ok _
  case clrsym => exact raises_ok _
  case clrbit => exact raises_ok _

end Sys2Proof.Machine
end

section
/-! PROOFS. Every step keeps the report well formed (`10_state.md` R36, `60_exceptions.md` R231, R241). -/

namespace Sys2Proof.Machine

theorem ErrCode.code_toNat_le (e : ErrCode) : e.code.toNat ≤ 7 := by cases e <;> decide

theorem ErrCode.code_eq_success_iff {e : ErrCode} : e.code = ErrCode.success.code ↔ e = .success := by
  cases e <;> decide

/-- A report is well formed when a success has position and symbol 0 and the symbol goes with its code. -/
theorem reportInv_report {s : State} {f : CmdFault} (hres : reservedBits s.status = 0)
    (hzero : f.err = .success → f.pos = 0 ∧ f.sym = 0)
    (hsym : f.sym ≠ 0 → f.err = .invalidInput ∨ f.err = .unknownSymbol) : ReportInv (report f s) := by
  have herr : (report f s).err = f.err.code := by simp [State.err]
  constructor
  case reserved => rwa [report_status, reservedBits_putErr]
  case code_range => rw [herr]; exact f.err.code_toNat_le
  case success_zero => rw [herr, ErrCode.code_eq_success_iff]; exact hzero
  case symbol_only => rw [herr]; exact fun h => (hsym h).imp (congrArg _) (congrArg _)

/-- A write of a flag leaves the report. -/
theorem ReportInv.of_unreported {s t : State} (h : ReportInv s)
    (hres : reservedBits t.status = reservedBits s.status) (herr : t.err = s.err)
    (hpos : t.errpos = s.errpos) (hsym : t.errsym = s.errsym) : ReportInv t := by
  obtain ⟨hreserved, hrange, hzero, honly⟩ := h
  exact ⟨hres ▸ hreserved, herr ▸ hrange, by rwa [herr, hpos, hsym], by rwa [herr, hsym]⟩

theorem success_not_mem_mayRaise (i : Instr) : ErrCode.success ∉ mayRaise i := by cases i <;> decide

theorem clearTargets_reserved (ws : List Target) (s : State) :
    reservedBits (clearTargets ws s).status = reservedBits s.status := by
  have := takeFault_reserved ws ⟨.success, 0, 0⟩ s
  rwa [takeFault, report_status, reservedBits_putErr] at this

theorem reportInv_resetWith (p : Params) : ReportInv (State.resetWith p) where
  reserved := by simp [State.resetWith, reservedBits]
  code_range := by simp [State.resetWith, State.err, getErr]
  success_zero := fun _ => ⟨rfl, rfl⟩
  symbol_only := fun h => absurd rfl h

theorem reportInv_kept : KeptBySteps ReportInv where
  hostFields := fun s _ _ _ _ _ hs => hs.of_unreported rfl rfl rfl rfl
  success := by
    intro i s u hs h
    refine reportInv_report ?_ (fun _ => ⟨rfl, rfl⟩) fun h => absurd rfl h
    rw [(commandBody_params_reserved h).2, hs.reserved]
  fault := by
    intro i s f hs h
    have hf := commandBody_raises i s f h
    refine reportInv_report ?_ (fun herr => ?_) hf.sym_only
    · rw [clearTargets_reserved, hs.reserved]
    · exact absurd (herr ▸ hf.err) (success_not_mem_mayRaise i)
  illegal := fun s hs => reportInv_report hs.reserved nofun fun h => absurd rfl h
  ftPush := by
    intro e s _ _ hs
    refine hs.of_unreported (pushFt_reserved e s) ?_ ?_ ?_ <;> unfold pushFt <;> split <;> simp [State.err]
  symPush := by
    intro x s _ hs
    refine hs.of_unreported (pushSym_reserved x s) ?_ ?_ ?_ <;> unfold pushSym <;> split <;> simp [State.err]
  bitPush := by
    intro b s hs
    refine hs.of_unreported (pushBit_reserved b s) ?_ ?_ ?_ <;> unfold pushBit <;> split <;> simp [State.err]
  reset := fun s _ => (reportInv_resetWith s.params).of_unreported rfl rfl rfl rfl

end Sys2Proof.Machine

namespace Sys2Proof.Proofs

open Sys2Proof.Machine

/-- Settles O52: a command ends in one report, of a success with zeros or of a fault that its rules let it raise; no other
action writes ERR, ERRPOS or ERRSYM but to reset them. -/
theorem stepKeepsTheReportWellFormed : Obligations.StepKeepsTheReportWellFormed :=
  fun _ _ hs hstep => reportInv_kept.step hs hstep

end Sys2Proof.Proofs
end

section
/-! PROOFS. The bounds of the working values of AEN and ADE: the interval and the window stay below `R = 2^K`
(`44_arithmetic_encoder_interval_renorm.md` R188, `45_arithmetic_decoder_inverse_renorm.md` R208), and one symbol takes at
most K steps (R190). -/

namespace Sys2Proof.Machine

/-! ### The interval -/

/-- The ranges of a model with the total `t` are non-empty and end at or before it (`43_interval_model.md` R167). -/
def RangesWithin (im : List Interval) (t : Int) : Prop := ∀ e ∈ im, e.low < e.high ∧ (e.high : Int) ≤ t

/-- Narrowing a non-empty interval to such a range leaves both bounds below `r`. -/
theorem narrow_lt {l u t r : Int} {low high : Nat} (hle : l ≤ u) (hu : u < r) (hlow : low < high)
    (hhigh : (high : Int) ≤ t) :
    l + (u - l + 1) * low / t < r ∧ l + (u - l + 1) * high / t - 1 < r := by
  have ht : 0 < t := by omega
  have hw : 0 < u - l + 1 := by omega
  have hl : (u - l + 1) * low / t < u - l + 1 :=
    Int.ediv_lt_of_lt_mul ht (Int.mul_lt_mul_of_pos_left (by omega) hw)
  have hh : (u - l + 1) * high / t ≤ u - l + 1 :=
    Int.ediv_le_of_le_mul ht (Int.mul_le_mul_of_nonneg_left hhigh hw.le)
  omega

/-- Renormalization ends with an interval about the middle, below `r`. -/
theorem EncRenorms.bounds {r : Int} {c c' : Encoder} (h : EncRenorms r c c') (hl : c.l < r) (hu : c.u < r) :
    c'.l ≤ c'.u ∧ c'.u < r := by
  induction h with
  | done hl' hu' _ => omega
  | e1 _ _ ih => exact ih (by dsimp only; omega) (by dsimp only; omega)
  | e2 _ _ _ ih => exact ih (by dsimp only; omega) (by dsimp only; omega)
  | e3 _ _ _ _ _ ih => exact ih (by dsimp only; omega) (by dsimp only; omega)

theorem Encodes.bounds {im : List Interval} {t r : Int} {xs : List Symbol} {c c' : Encoder} (him : RangesWithin im t)
    (h : Encodes im t r xs c c') (hl : c.l ≤ c.u) (hu : c.u < r) : c'.l ≤ c'.u ∧ c'.u < r := by
  induction h with
  | nil => exact ⟨hl, hu⟩
  | cons he hr _ ih =>
    obtain ⟨hlow, hhigh⟩ := him _ (List.mem_of_find?_eq_some he)
    obtain ⟨hl', hu'⟩ := narrow_lt hl hu hlow hhigh
    obtain ⟨hl'', hu''⟩ := hr.bounds hl' hu'
    exact ih hl'' hu''

/-- The same for the decoder, whose window stays below `r` with the interval. It takes off halves and quarters of `r`
before it doubles, so they have to be exact. -/
theorem DecRenorms.bounds {r : Int} {bits : BitString} {d d' : Decoder} (h : DecRenorms r bits d d') (hr : 0 < r)
    (hr4 : 4 ∣ r) (hl : d.l < r) (hu : d.u < r) (hc : d.code < r) : d'.l ≤ d'.u ∧ d'.u < r ∧ d'.code < r := by
  induction h with
  | done hl' hu' _ => omega
  | e1 _ _ ih => exact ih (by dsimp only [shiftedBy]; omega) (by dsimp only [shiftedBy]; omega) (Int.emod_lt_of_pos _ hr)
  | e2 _ _ _ ih => exact ih (by dsimp only [shiftedBy]; omega) (by dsimp only [shiftedBy]; omega) (Int.emod_lt_of_pos _ hr)
  | e3 _ _ _ _ _ ih =>
    exact ih (by dsimp only [shiftedBy]; omega) (by dsimp only [shiftedBy]; omega) (Int.emod_lt_of_pos _ hr)

theorem Decodes.bounds {im : List Interval} {t r : Int} {bits : BitString} {n : Nat} {d d' : Decoder}
    {out : List Symbol} (him : RangesWithin im t) (h : Decodes im t r bits n d out d') (hr : 0 < r) (hr4 : 4 ∣ r)
    (hl : d.l ≤ d.u) (hu : d.u < r) (hc : d.code < r) : d'.l ≤ d'.u ∧ d'.u < r ∧ d'.code < r := by
  induction h with
  | zero => exact ⟨hl, hu, hc⟩
  | succ he hd _ ih =>
    obtain ⟨hlow, hhigh⟩ := him _ (List.mem_of_find?_eq_some he)
    obtain ⟨hl', hu'⟩ := narrow_lt hl hu hlow hhigh
    obtain ⟨hl'', hu'', hc''⟩ := hd.bounds hr hr4 hl' hu' hc
    exact ih hl'' hu'' hc''

/-- ADE emits symbols of the model only. -/
theorem Decodes.sym_mem {im : List Interval} {t r : Int} {bits : BitString} {n : Nat} {d d' : Decoder}
    {out : List Symbol} (h : Decodes im t r bits n d out d') : ∀ x ∈ out, ∃ e ∈ im, e.sym = x := by
  induction h with
  | zero => exact nofun
  | succ he _ _ ih =>
    intro x hx
    rcases List.mem_cons.1 hx with rfl | hx
    · exact ⟨_, List.mem_of_find?_eq_some he, rfl⟩
    · exact ih x hx

/-! ### The window at the start -/

/-- The sum of R201 over the first `j` bits leaves room for the bits that are still to come. -/
theorem windowPrefix_le (bits : BitString) {k j : Nat} (hj : j ≤ k) :
    ((List.range j).map fun p => bitValue (nextBit bits p) * 2 ^ (k - 1 - p)).sum + 2 ^ (k - j) ≤ 2 ^ k := by
  induction j with
  | zero => simp
  | succ j ih =>
    have hbit : bitValue (nextBit bits j) ≤ 1 := by unfold bitValue; split <;> omega
    have hmul := Nat.mul_le_mul_right (2 ^ (k - 1 - j)) hbit
    have hpow : 2 ^ (k - j) = 2 * 2 ^ (k - 1 - j) := by
      rw [← Nat.pow_succ', show k - j = (k - 1 - j) + 1 by omega]
    have := ih (by omega)
    rw [List.range_succ, List.map_append, List.sum_append, List.map_singleton, List.sum_singleton,
      show k - (j + 1) = k - 1 - j by omega]
    omega

theorem initWindow_lt (bits : BitString) (k : Nat) : initWindow bits k < 2 ^ k := by
  have := windowPrefix_le bits (le_refl k)
  rw [Nat.sub_self, Nat.pow_zero] at this
  exact this

/-! ### The number of steps -/

/-- Each turn of the loop adds at most one pending bit, and the last adds none. -/
theorem encRenorm_pending {maxBits : Nat} {r : Int} {i fuel : Nat} {c c' : Encoder}
    (h : encRenorm maxBits r i fuel c = .ok c') : c'.m + 1 ≤ c.m + fuel := by
  induction fuel generalizing c with
  | zero => cases h
  | succ fuel ih =>
    unfold encRenorm at h
    split at h
    · obtain ⟨c₁, h₁, h₂⟩ := bind_eq_ok.1 h
      obtain ⟨out, -, hp⟩ := bind_eq_ok.1 h₁
      cases hp
      have := ih h₂
      dsimp only at this
      omega
    · obtain ⟨c₁, h₁, h₂⟩ := bind_eq_ok.1 h
      obtain ⟨out, -, hp⟩ := bind_eq_ok.1 h₁
      cases hp
      have := ih h₂
      dsimp only at this
      omega
    · have := ih h
      dsimp only [encodeE3] at this
      omega
    · cases h
      omega

/-- One symbol adds at most K pending bits. -/
theorem encodeSymbol_pending {im : List Interval} {t k maxBits i : Nat} {x : Symbol} {c c' : Encoder}
    (h : encodeSymbol im t k maxBits i x c = .ok c') : c'.m ≤ c.m + k := by
  unfold encodeSymbol at h
  split at h
  · cases h
  · split at h
    · cases h
    · have := encRenorm_pending h
      dsimp only at this
      omega

theorem encodeSymbols_pending {im : List Interval} {t k maxBits i : Nat} {xs : List Symbol} {c c' : Encoder}
    (h : encodeSymbols im t k maxBits i xs c = .ok c') : c'.m ≤ c.m + xs.length * k := by
  induction xs generalizing i c with
  | nil => cases h; exact Nat.le_add_right _ _
  | cons x xs ih =>
    obtain ⟨c₁, h₁, h₂⟩ := bind_eq_ok.1 h
    have hone := encodeSymbol_pending h₁
    have hrest := ih h₂
    rw [List.length_cons, Nat.succ_mul]
    omega

theorem decRenorm_pos {bits : BitString} {r : Int} {fuel : Nat} {d d' : Decoder}
    (h : decRenorm bits r fuel d = .ok d') : d'.pos + 1 ≤ d.pos + fuel := by
  induction fuel generalizing d with
  | zero => cases h
  | succ fuel ih =>
    unfold decRenorm at h
    split at h
    · next e _ =>
      have := ih h
      rw [(decodeShift_bounds bits r e d).2.2] at this
      omega
    · cases h
      omega

/-- One symbol reads at most K bits. -/
theorem decodeSymbol_pos {im : List Interval} {t k : Nat} {bits : BitString} {i : Nat} {d : Decoder}
    {r : Symbol × Decoder} (h : decodeSymbol im t k bits i d = .ok r) : r.2.pos ≤ d.pos + k := by
  unfold decodeSymbol at h
  split at h
  · cases h
  · split at h
    · cases h
    · obtain ⟨d₁, h₁, hp⟩ := bind_eq_ok.1 h
      cases hp
      have := decRenorm_pos h₁
      dsimp only at this ⊢
      omega

theorem decodeSymbols_pos {im : List Interval} {t k : Nat} {bits : BitString} {n i : Nat} {d d' : Decoder}
    {acc out : List Symbol} (h : decodeSymbols im t k bits n i d acc = .ok (d', out)) : d'.pos ≤ d.pos + n * k := by
  induction n generalizing i d acc with
  | zero => cases h; exact Nat.le_add_right _ _
  | succ n ih =>
    obtain ⟨r, h₁, h₂⟩ := bind_eq_ok.1 h
    have hone := decodeSymbol_pos h₁
    have hrest := ih h₂
    rw [Nat.succ_mul]
    omega

/-! ### The commands -/

/-- What AEN leaves in L, U and M. -/
theorem aen_bounds {im : List Interval} {t k maxBits : Nat} {xs : List Symbol} {c : Encoder}
    (him : RangesWithin im t) (h : encodeSymbols im t k maxBits 0 xs (encoderStart k) = .ok c) :
    c.l.toNat < 2 ^ k ∧ c.u.toNat < 2 ^ k ∧ c.m ≤ xs.length * k := by
  have hpos := rangeOf_pos k
  obtain ⟨hl, hu⟩ := (encodeSymbols_sound h).bounds him (by dsimp only [encoderStart]; omega)
    (by dsimp only [encoderStart]; omega)
  have hm := encodeSymbols_pending h
  have hpow := Nat.two_pow_pos k
  unfold rangeOf at hu
  refine ⟨by omega, by omega, by simpa [encoderStart] using hm⟩

/-- What ADE leaves in L, U, CODE and BITPOS. -/
theorem ade_bounds {im : List Interval} {t k n : Nat} {bits : BitString} {d : Decoder} {out : List Symbol}
    (him : RangesWithin im t) (hk : 2 ≤ k) (h : decodeSymbols im t k bits n 0 (decoderStart bits k) [] = .ok (d, out)) :
    d.l.toNat < 2 ^ k ∧ d.u.toNat < 2 ^ k ∧ d.code.toNat < 2 ^ k ∧ d.pos ≤ k + n * k ∧
      ∀ x ∈ out, ∃ e ∈ im, e.sym = x := by
  have hpos := rangeOf_pos k
  obtain ⟨xs, rfl, hdec⟩ := decodeSymbols_sound h
  have hstart : (decoderStart bits k).code < rangeOf k := by
    have := initWindow_lt bits k
    dsimp only [decoderStart, rangeOf]
    omega
  obtain ⟨hl, hu, hc⟩ := hdec.bounds him hpos ⟨_, (rangeOf_quarters hk).1⟩ (by dsimp only [decoderStart]; omega)
    (by dsimp only [decoderStart]; omega) hstart
  have hpow := Nat.two_pow_pos k
  unfold rangeOf at hu hc
  exact ⟨by omega, by omega, by omega, decodeSymbols_pos h, by simpa using hdec.sym_mem⟩

end Sys2Proof.Machine
end

section
/-! PROOFS. Every step keeps every register and every field within its width (`10_state.md` R34, `00_scope.md` R7). What the
invariant of R51 fixes follows from the table's widths; the rest, `StoredFit`, is kept command by command. -/

namespace Sys2Proof.Machine

/-! ### The frequencies of a tree -/

theorem mem_childIndices {tn : List TreeNode} {i : Nat} (h : i ∈ childIndices tn) :
    ∃ nd ∈ tn, nd.kind = .internal ∧ (i = nd.left ∨ i = nd.right) := by
  obtain ⟨nd, hnd, hi⟩ := List.mem_flatMap.1 h
  split at hi
  · cases hi
  · next hk => exact ⟨nd, hnd, hk, by simpa using hi⟩

section Tree

variable {ft : List FtEntry} {tn : List TreeNode} {root : Nat} (h : TreeInv ft tn root)
include h

/-- Every node but the root has a parent of higher index, and no lower frequency. -/
theorem TreeInv.exists_parent {i : Nat} (hi : i < root) : ∃ j < tn.length, i < j ∧ freqAt tn i ≤ freqAt tn j := by
  have hcount := h.child i (by have := h.root_eq; omega)
  obtain ⟨nd, hnd, hk, hside⟩ := mem_childIndices (List.one_le_count_iff.1 hcount.ge)
  obtain ⟨j, hj⟩ := List.mem_iff_getElem?.1 hnd
  have hlt : j < tn.length := (List.getElem?_eq_some_iff.1 hj).1
  obtain ⟨nd', hnd', -, -, hl, hr, -, hfreq⟩ := h.getElem?_inner hlt (h.children_lt hj hk).1
  cases hj.symm.trans hnd'
  have hj' : freqAt tn j = nd.freq := by simp [freqAt, hj]
  refine ⟨j, hlt, ?_, ?_⟩
  · rcases hside with rfl | rfl <;> assumption
  · rcases hside with rfl | rfl <;> omega

/-- No node has a higher frequency than the root, which has the total. -/
theorem TreeInv.freqAt_le {i : Nat} (hi : i < tn.length) : freqAt tn i ≤ totalCount ft := by
  induction hd : tn.length - i using Nat.strong_induction_on generalizing i with
  | _ d ih =>
    by_cases hroot : i = root
    · rw [hroot, h.total]
    · obtain ⟨j, hj, hij, hle⟩ := h.exists_parent (i := i) (by have := h.root_eq; omega)
      exact hle.trans (ih (tn.length - j) (by omega) hj rfl)

/-- What a node of a tree of R26 holds: a symbol of the table or 0, and indices of nodes. -/
theorem TreeInv.node_bounds {nd : TreeNode} (hnd : nd ∈ tn) :
    (nd.sym = 0 ∨ ∃ f ∈ ft, nd.sym = f.sym) ∧ nd.freq ≤ totalCount ft ∧ nd.left < tn.length ∧
      nd.right < tn.length := by
  obtain ⟨i, hi⟩ := List.mem_iff_getElem?.1 hnd
  have hlt : i < tn.length := (List.getElem?_eq_some_iff.1 hi).1
  have hfreq : nd.freq ≤ totalCount ft := by simpa [freqAt, hi] using h.freqAt_le hlt
  rcases Nat.lt_or_ge i ft.length with hleaf | hinner
  · have hf := h.getElem?_leaf hleaf
    rw [hi, List.getElem?_eq_getElem hleaf] at hf
    obtain rfl := Option.some.inj hf
    exact ⟨.inr ⟨_, List.getElem_mem _, rfl⟩, hfreq, Nat.zero_lt_of_lt hlt, Nat.zero_lt_of_lt hlt⟩
  · obtain ⟨nd', hnd', -, hsym, hl, hr, -⟩ := h.getElem?_inner hlt hinner
    cases hi.symm.trans hnd'
    exact ⟨.inl hsym, hfreq, hl.trans hlt, hr.trans hlt⟩

end Tree

/-! ### The parameters -/

/-- The constraints of R6 that the widths rest on. -/
theorem params_wf_bounds {p : Params} (h : p.wf = true) : 1 ≤ p.maxSyms ∧ p.maxN < 2 ^ 32 := by
  simp only [Params.wf, Bool.and_eq_true, decide_eq_true_eq] at h
  omega

theorem lt_nodeBits {p : Params} {v : Nat} (h : v < 2 * p.maxSyms) : v < 2 ^ p.nodeBits :=
  h.trans_le (le_two_pow_ceilLog2 _)

theorem lt_posBits {p : Params} {v : Nat} (h : v ≤ p.maxBits ∨ v ≤ p.maxN * p.kMax + p.kMax) : v < 2 ^ p.posBits := by
  refine lt_of_le_of_lt ?_ (lt_two_pow_ceilLog2_succ _)
  exact h.elim le_max_of_le_left le_max_of_le_right

theorem lt_errposBits {p : Params} {v : Nat} (h : v < 2 ^ 32 ∨ v < 2 ^ p.posBits) : v < 2 ^ p.errposBits := by
  rcases h with h | h
  · exact h.trans_le (Nat.pow_le_pow_right Nat.two_pos (le_max_left _ _))
  · exact h.trans_le (Nat.pow_le_pow_right Nat.two_pos (le_max_right _ _))

/-- A total of a table within its widths fits FREQ_BITS. -/
theorem totalCount_lt_freqBits {p : Params} {ft : List FtEntry} (hlen : ft.length ≤ p.maxSyms)
    (hcount : ∀ e ∈ ft, e.count < 2 ^ p.cntBits) : totalCount ft < 2 ^ p.freqBits := by
  by_cases hne : ft = []
  · rw [hne]
    exact Nat.two_pow_pos _
  · calc totalCount ft < ft.length * 2 ^ p.cntBits := totalCount_lt hne hcount
      _ ≤ 2 ^ ceilLog2 p.maxSyms * 2 ^ p.cntBits :=
        Nat.mul_le_mul_right _ (hlen.trans (le_two_pow_ceilLog2 _))
      _ = 2 ^ p.freqBits := by rw [Params.freqBits, Nat.pow_add, Nat.mul_comm]

/-! ### What the invariant does not fix -/

/-- The registers and the entries whose widths do not follow from R51. -/
structure StoredFit (s : State) : Prop where
  errpos : s.errpos < 2 ^ s.params.errposBits
  errsym : s.errsym < 2 ^ s.params.symBits
  l : s.l < 2 ^ s.params.kMax
  u : s.u < 2 ^ s.params.kMax
  m : s.m < 2 ^ s.params.mBits
  code : s.code < 2 ^ s.params.kMax
  node : s.node < 2 ^ s.params.nodeBits
  bitpos : s.bitpos < 2 ^ s.params.posBits
  sympos : s.sympos < 2 ^ s.params.symLenBits
  ft : ∀ e ∈ s.ft, e.sym < 2 ^ s.params.symBits ∧ e.count < 2 ^ s.params.cntBits
  symIn : ∀ x ∈ s.symIn, x < 2 ^ s.params.symBits
  symOut : ∀ x ∈ s.symOut, x < 2 ^ s.params.symBits

theorem WidthsFit.storedFit {s : State} (h : WidthsFit s) : StoredFit s where
  errpos := h.registers .errpos _ rfl
  errsym := h.registers .errsym _ rfl
  l := h.registers .l _ rfl
  u := h.registers .u _ rfl
  m := h.registers .m _ rfl
  code := h.registers .code _ rfl
  node := h.registers .node _ rfl
  bitpos := h.registers .bitpos _ rfl
  sympos := h.registers .sympos _ rfl
  ft := h.entries.ft
  symIn := h.entries.symIn
  symOut := h.entries.symOut

section Derived

variable {s : State} (hinv : Inv s)
include hinv

theorem Inv.rangesWithin (hv : s.flag .imV = true) : RangesWithin s.im s.t := by
  intro e he
  obtain ⟨hlow, hhigh, -⟩ := (hinv.model hv).bounds (hinv.table (by simp [hv])).2 he
  exact ⟨hlow, by exact_mod_cast hhigh⟩

/-- A precision that passes the test of R176 with a valid model is at least 2. -/
theorem Inv.two_le_precision (hv : s.flag .imV = true) (hprec : 4 * s.t ≤ 2 ^ s.precision) : 2 ≤ s.precision := by
  have hft := (hinv.table (by simp [hv])).2
  have hne : s.im ≠ [] := by
    rw [ne_eq, ← List.length_eq_zero_iff, (hinv.model hv).size, List.length_eq_zero_iff]
    exact hft.1
  obtain ⟨hlow, hhigh, -⟩ := (hinv.model hv).bounds hft (List.head_mem hne)
  by_contra hlt
  have : 2 ^ s.precision ≤ 2 ^ 1 := Nat.pow_le_pow_right Nat.two_pos (by omega)
  omega

theorem Inv.root_lt : s.root < 2 ^ s.params.nodeBits := by
  cases hv : s.flag .treeV with
  | false =>
    rw [(hinv.no_tree hv).2.1]
    exact Nat.two_pow_pos _
  | true =>
    have hsize := (hinv.tree hv).size
    have hroot := (hinv.tree hv).root_eq
    have hcap := ((memory_wf_iff s).1 hinv.capacity).1
    exact lt_nodeBits (by omega)

variable (hft : ∀ e ∈ s.ft, e.sym < 2 ^ s.params.symBits ∧ e.count < 2 ^ s.params.cntBits)
include hft

theorem Inv.totalCount_lt : totalCount s.ft < 2 ^ s.params.freqBits :=
  totalCount_lt_freqBits ((memory_wf_iff s).1 hinv.capacity).1 fun e he => (hft e he).2

theorem Inv.t_lt : s.t < 2 ^ s.params.freqBits := by
  cases hv : s.flag .imV with
  | false =>
    rw [(hinv.no_model hv).2]
    exact Nat.two_pow_pos _
  | true =>
    rw [(hinv.model hv).total_eq (hinv.table (by simp [hv])).2.1]
    exact hinv.totalCount_lt hft

theorem Inv.tn_fit : ∀ e ∈ s.tn, e.sym < 2 ^ s.params.symBits ∧ e.freq < 2 ^ s.params.freqBits ∧
    e.left < 2 ^ s.params.nodeBits ∧ e.right < 2 ^ s.params.nodeBits := by
  cases hv : s.flag .treeV with
  | false =>
    rw [(hinv.no_tree hv).1]
    exact nofun
  | true =>
    intro e he
    obtain ⟨hsym, hfreq, hl, hr⟩ := (hinv.tree hv).node_bounds he
    have hsize := (hinv.tree hv).size
    have hcap := ((memory_wf_iff s).1 hinv.capacity).1
    refine ⟨?_, hfreq.trans_lt (hinv.totalCount_lt hft), lt_nodeBits (by omega), lt_nodeBits (by omega)⟩
    rcases hsym with hsym | ⟨f, hf, hsym⟩
    · rw [hsym]
      exact Nat.two_pow_pos _
    · rw [hsym]
      exact (hft f hf).1

theorem Inv.ct_fit : ∀ e ∈ s.ct, e.sym < 2 ^ s.params.symBits ∧ 1 ≤ e.len ∧ e.len ≤ s.params.codeLenMax ∧
    e.bits.length = e.len := by
  cases hv : s.flag .ctV with
  | false =>
    rw [hinv.no_codes hv]
    exact nofun
  | true =>
    intro e he
    obtain ⟨hlen, hpos, hmax, f, hf, hsym⟩ := (hinv.codes hv).entry_bounds (hinv.tree (hinv.treeV_of_ctV hv)) he
    have hcap := ((memory_wf_iff s).1 hinv.capacity).1
    refine ⟨hsym ▸ (hft f hf).1, hpos, hmax.trans ?_, hlen⟩
    exact max_le_max_left 1 (by omega)

theorem Inv.im_fit : ∀ e ∈ s.im, e.sym < 2 ^ s.params.symBits ∧ e.low < 2 ^ s.params.freqBits ∧
    e.high < 2 ^ s.params.freqBits := by
  cases hv : s.flag .imV with
  | false =>
    rw [(hinv.no_model hv).1]
    exact nofun
  | true =>
    intro e he
    obtain ⟨hlow, hhigh, f, hf, hsym⟩ := (hinv.model hv).bounds (hinv.table (by simp [hv])).2 he
    have ht := hinv.t_lt hft
    exact ⟨hsym ▸ (hft f hf).1, by omega, by omega⟩

end Derived

/-- In a state that meets R51 the widths rest on what R51 does not fix. -/
theorem StoredFit.widthsFit {s : State} (h : StoredFit s) (hinv : Inv s) : WidthsFit s := by
  obtain ⟨hft, htn, hct, him, hsymIn, hsymOut, hbitIn, hbitOut⟩ := (memory_wf_iff s).1 hinv.capacity
  have hsyms := (params_wf_bounds hinv.params_wf).1
  refine ⟨fun r v hv => ?_, ⟨h.ft, hinv.tn_fit h.ft, hinv.ct_fit h.ft, hinv.im_fit h.ft, h.symIn, h.symOut⟩⟩
  cases r <;> cases hv
  case cmd => exact s.cmd.isLt
  case status => exact s.status.isLt
  case errpos => exact h.errpos
  case errsym => exact h.errsym
  case k => exact s.k.isLt
  case n => exact s.n.isLt
  case t => exact hinv.t_lt h.ft
  case root => exact hinv.root_lt
  case l => exact h.l
  case u => exact h.u
  case m => exact h.m
  case code => exact h.code
  case node => exact h.node
  case bitpos => exact h.bitpos
  case sympos => exact h.sympos
  case ftlen => exact hft.trans_lt (lt_two_pow_ceilLog2_succ _)
  case tnlen => exact lt_nodeBits (by unfold Params.maxNodes at htn; omega)
  case ctlen => exact hct.trans_lt (lt_two_pow_ceilLog2_succ _)
  case imlen => exact him.trans_lt (lt_two_pow_ceilLog2_succ _)
  case syminlen => exact hsymIn.trans_lt (lt_two_pow_ceilLog2_succ _)
  case symoutlen => exact hsymOut.trans_lt (lt_two_pow_ceilLog2_succ _)
  case bitinlen => exact hbitIn.trans_lt (lt_two_pow_ceilLog2_succ _)
  case bitoutlen => exact hbitOut.trans_lt (lt_two_pow_ceilLog2_succ _)

/-! ### The symbols that HDE emits -/

/-- A step emits a symbol of the tree. -/
theorem hufStep_sym {tn : List TreeNode} {root node node' p : Nat} {b : Bit} {x : Symbol}
    (h : hufStep tn root node b p = .ok (node', some x)) : ∃ nd ∈ tn, nd.sym = x := by
  unfold hufStep at h
  split at h
  · cases h
  · split at h
    · dsimp only at h
      split at h
      · cases h
      · next child hchild =>
        split at h <;> cases h
        exact ⟨child, List.mem_of_getElem? hchild, rfl⟩
    · split at h
      · cases h
      · split at h
        · cases h
        · next r hr =>
          cases h
          exact ⟨r, List.mem_of_getElem? hr, rfl⟩

theorem huffmanDecode_sym {tn : List TreeNode} {root maxN p : Nat} {bs : BitString} {node node' : Nat}
    {out out' : List Symbol} (h : huffmanDecode tn root maxN p bs node out = .ok (node', out')) :
    ∀ x ∈ out', x ∈ out ∨ ∃ nd ∈ tn, nd.sym = x := by
  induction bs generalizing p node out with
  | nil => cases h; exact fun x hx => .inl hx
  | cons b bs ih =>
    unfold huffmanDecode at h
    split at h
    · cases h
    · exact ih h
    · next y hstep =>
      split at h
      · cases h
      · intro x hx
        rcases ih h x hx with hmem | hmem
        · rcases List.mem_append.1 hmem with hmem | hmem
          · exact .inl hmem
          · exact .inr (List.mem_singleton.1 hmem ▸ hufStep_sym hstep)
        · exact .inr hmem

/-! ### The widths through commands -/

/-- A command that has a value leaves what it stores within its width. -/
theorem commandBody_storedFit {i : Instr} {s u : State} (hinv : Inv s) (hs : StoredFit s)
    (h : commandBody i s = .ok u) : StoredFit u := by
  obtain ⟨-, -, -, -, hsymIn, -, hbitIn, -⟩ := (memory_wf_iff s).1 hinv.capacity
  cases i
  case bht => obtain ⟨-, -, rfl⟩ := bhtBody_ok.1 h; exact { hs with }
  case hct => obtain ⟨-, ct, -, rfl⟩ := hctBody_ok.1 h; exact { hs with }
  case bim => obtain ⟨-, -, rfl⟩ := bimBody_ok.1 h; exact { hs with }
  case hen =>
    obtain ⟨-, -, out, hout, rfl⟩ := henBody_ok.1 h
    have hlen := huffmanEncode_length hinv.capacityInv.code_len (Nat.zero_le _) hout
    exact { hs with
      bitpos := lt_posBits (.inl hlen)
      sympos := hsymIn.trans_lt (lt_two_pow_ceilLog2_succ _) }
  case hde =>
    obtain ⟨-, -, out, hout, rfl⟩ := hdeBody_ok.1 h
    have hlen := huffmanDecode_length (Nat.zero_le _) hout
    refine { hs with
      node := hinv.root_lt
      bitpos := lt_posBits (.inl hbitIn)
      sympos := hlen.trans_lt (lt_two_pow_ceilLog2_succ _)
      symOut := fun x hx => ?_ }
    obtain hnil | ⟨nd, hnd, rfl⟩ := huffmanDecode_sym hout x hx
    · cases hnil
    · exact (hinv.tn_fit hs.ft nd hnd).1
  case aen =>
    obtain ⟨hv, -, hk, -, c, out, hc, hflush, rfl⟩ := aenBody_ok.1 h
    obtain ⟨hl, hu, hm⟩ := aen_bounds (hinv.rangesWithin hv) hc
    have hpow := Nat.pow_le_pow_right Nat.two_pos hk
    exact { hs with
      l := hl.trans_le hpow
      u := hu.trans_le hpow
      m := (hm.trans (Nat.mul_le_mul hsymIn hk)).trans_lt (lt_two_pow_ceilLog2_succ _)
      bitpos := lt_posBits (.inl (flush_length hflush).2)
      sympos := hsymIn.trans_lt (lt_two_pow_ceilLog2_succ _) }
  case ade =>
    obtain ⟨hv, -, hk, hn, hprec, d, out, hd, rfl⟩ := adeBody_ok.1 h
    obtain ⟨hl, hu, hc, hpos, hsym⟩ :=
      ade_bounds (hinv.rangesWithin hv) (hinv.two_le_precision hv hprec) hd
    have hpow := Nat.pow_le_pow_right Nat.two_pos hk
    have hbits : d.pos ≤ s.params.maxN * s.params.kMax + s.params.kMax := by
      have := Nat.mul_le_mul hn hk
      omega
    refine { hs with
      l := hl.trans_le hpow
      u := hu.trans_le hpow
      code := hc.trans_le hpow
      m := Nat.two_pow_pos _
      bitpos := lt_posBits (.inr hbits)
      sympos := hn.trans_lt (lt_two_pow_ceilLog2_succ _)
      symOut := fun x hx => ?_ }
    obtain ⟨e, he, rfl⟩ := hsym x hx
    exact (hinv.im_fit hs.ft e he).1
  case clrft => cases h; exact { hs with ft := nofun }
  case clrsym => cases h; exact { hs with symIn := nofun }
  case clrbit => cases h; exact { hs with }

/-- Emptying a buffer or a register leaves the rest as it is. -/
theorem clearTarget_storedFit {s : State} (hs : StoredFit s) (g : Target) : StoredFit (clearTarget s g) := by
  cases g
  case l => exact { hs with l := Nat.two_pow_pos _ }
  case u => exact { hs with u := Nat.two_pow_pos _ }
  case m => exact { hs with m := Nat.two_pow_pos _ }
  case code => exact { hs with code := Nat.two_pow_pos _ }
  case node => exact { hs with node := Nat.two_pow_pos _ }
  case bitpos => exact { hs with bitpos := Nat.two_pow_pos _ }
  case sympos => exact { hs with sympos := Nat.two_pow_pos _ }
  case symOut => exact { hs with symOut := nofun }
  all_goals exact { hs with }

theorem clearTargets_storedFit {s : State} (hs : StoredFit s) (ws : List Target) : StoredFit (clearTargets ws s) := by
  rw [clearTargets]
  induction ws generalizing s with
  | nil => exact hs
  | cons g ws ih => exact ih (clearTarget_storedFit hs g)

theorem report_storedFit {s : State} {f : CmdFault} (hs : StoredFit s) (hpos : f.pos < 2 ^ s.params.errposBits)
    (hsym : f.sym < 2 ^ s.params.symBits) : StoredFit (report f s) :=
  { hs with errpos := hpos, errsym := hsym }

theorem takeFault_storedFit {s : State} {ws : List Target} {f : CmdFault} (hs : StoredFit s)
    (hpos : f.pos < 2 ^ s.params.errposBits) (hsym : f.sym < 2 ^ s.params.symBits) : StoredFit (takeFault ws f s) := by
  have hparams : (clearTargets ws s).params = s.params := takeFault_params ws f s
  exact report_storedFit (clearTargets_storedFit hs ws) (by rwa [hparams]) (by rwa [hparams])

/-- What a command reports fits ERRPOS and ERRSYM when FT's indices fit 32 bits (log entry 8). -/
theorem Reportable.fits {i : Instr} {s : State} {f : CmdFault} (h : Reportable i s f) (hinv : Inv s)
    (hs : StoredFit s) (hsyms : s.params.maxSyms ≤ 2 ^ 32) :
    f.pos < 2 ^ s.params.errposBits ∧ f.sym < 2 ^ s.params.symBits := by
  obtain ⟨hft, -, -, -, hsymIn, -, hbitIn, -⟩ := (memory_wf_iff s).1 hinv.capacity
  have hmaxN := (params_wf_bounds hinv.params_wf).2
  constructor
  · rcases h.pos with hp | hp | hp | hp | hp
    · exact lt_errposBits (.inl (by omega))
    · exact lt_errposBits (.inl (by omega))
    · exact lt_errposBits (.inr (lt_posBits (.inl (hp.trans hbitIn))))
    · exact lt_errposBits (.inl (hp.trans_lt (s.k.isLt.trans (by decide))))
    · exact lt_errposBits (.inl (hp.trans_lt s.n.isLt))
  · rcases h.sym with hzero | htable | hmsg
    · rw [hzero]
      exact Nat.two_pow_pos _
    · obtain ⟨e, he, hsym⟩ := List.mem_map.1 htable
      exact hsym ▸ (hs.ft e he).1
    · exact hs.symIn _ hmsg

theorem pushFt_storedFit {s : State} {e : FtEntry} (hs : StoredFit s) (hsym : e.sym < 2 ^ s.params.symBits)
    (hcount : e.count < 2 ^ s.params.cntBits) : StoredFit (pushFt e s) := by
  rw [pushFt_eq]
  refine { hs with ft := fun x hx => ?_ }
  dsimp only at hx
  split at hx
  · rcases List.mem_append.1 hx with hx | hx
    · exact hs.ft x hx
    · obtain rfl := List.mem_singleton.1 hx
      exact ⟨hsym, hcount⟩
  · exact hs.ft x hx

theorem pushSym_storedFit {s : State} {x : Symbol} (hs : StoredFit s) (hx : x < 2 ^ s.params.symBits) :
    StoredFit (pushSym x s) := by
  rw [pushSym_eq]
  split
  · refine { hs with symIn := fun y hy => ?_ }
    rcases List.mem_append.1 hy with hy | hy
    · exact hs.symIn y hy
    · exact List.mem_singleton.1 hy ▸ hx
  · exact { hs with }

theorem pushBit_storedFit {s : State} (hs : StoredFit s) (b : Bit) : StoredFit (pushBit b s) := by
  rw [pushBit_eq]
  split <;> exact { hs with }

theorem storedFit_resetWith (p : Params) : StoredFit (State.resetWith p) where
  errpos := Nat.two_pow_pos _
  errsym := Nat.two_pow_pos _
  l := Nat.two_pow_pos _
  u := Nat.two_pow_pos _
  m := Nat.two_pow_pos _
  code := Nat.two_pow_pos _
  node := Nat.two_pow_pos _
  bitpos := Nat.two_pow_pos _
  sympos := Nat.two_pow_pos _
  ft := nofun
  symIn := nofun
  symOut := nofun

/-- What the widths rest on: R51, the stored values, and the premise of log entry 8. -/
def FitsAndMeets (s : State) : Prop := Inv s ∧ StoredFit s ∧ s.params.maxSyms ≤ 2 ^ 32

theorem fitsAndMeets_kept : KeptBySteps FitsAndMeets where
  hostFields := fun s _ _ _ _ _ ⟨hinv, hs, hsyms⟩ => ⟨inv_kept.hostFields s _ _ _ _ _ hinv, { hs with }, hsyms⟩
  success := by
    rintro i s u ⟨hinv, hs, hsyms⟩ h
    refine ⟨inv_kept.success i s u hinv h, ?_, ?_⟩
    · exact report_storedFit (commandBody_storedFit hinv hs h) (Nat.two_pow_pos _) (Nat.two_pow_pos _)
    · rwa [succeed_params, (commandBody_params_reserved h).1]
  fault := by
    rintro i s f ⟨hinv, hs, hsyms⟩ h
    obtain ⟨hpos, hsym⟩ := (commandBody_raises i s f h).fits hinv hs hsyms
    exact ⟨inv_kept.fault i s f hinv h, takeFault_storedFit hs hpos hsym, by rwa [takeFault_params]⟩
  illegal := by
    rintro s ⟨hinv, hs, hsyms⟩
    have hpos : s.cmd.toNat < 2 ^ s.params.errposBits := lt_errposBits (.inl (s.cmd.isLt.trans (by decide)))
    exact ⟨inv_kept.illegal s hinv, takeFault_storedFit hs hpos (Nat.two_pow_pos _), hsyms⟩
  ftPush := by
    rintro e s hsym hcount ⟨hinv, hs, hsyms⟩
    exact ⟨inv_kept.ftPush e s hsym hcount hinv, pushFt_storedFit hs hsym hcount, by rwa [pushFt_params]⟩
  symPush := by
    rintro x s hx ⟨hinv, hs, hsyms⟩
    exact ⟨inv_kept.symPush x s hx hinv, pushSym_storedFit hs hx, by rwa [pushSym_params]⟩
  bitPush := by
    rintro b s ⟨hinv, hs, hsyms⟩
    exact ⟨inv_kept.bitPush b s hinv, pushBit_storedFit hs b, by rwa [pushBit_params]⟩
  reset := fun s ⟨hinv, _, hsyms⟩ => ⟨inv_kept.reset s hinv, { storedFit_resetWith s.params with }, hsyms⟩

end Sys2Proof.Machine

namespace Sys2Proof.Proofs

open Sys2Proof.Machine

/-- Settles O55: R51 bounds what is derived from the table, the loops bound the working values of the commands, and a report
is an index or a length within ERRPOS. -/
theorem stepKeepsTheWidths : Obligations.StepKeepsTheWidths := by
  intro s t hinv hs hsyms hstep
  obtain ⟨hinv', hs', -⟩ := fitsAndMeets_kept.step ⟨hinv, hs.storedFit, hsyms⟩ hstep
  exact hs'.widthsFit hinv'

end Sys2Proof.Proofs
end

section
/-! PROOFS. Reset (`10_state.md` R50, `70_reset_and_hazards.md` R260): the state after it, and the invariants there. -/

namespace Sys2Proof.Machine

/-- After reset each register with a value reads 0, the length registers by the empty buffers (R34). -/
theorem regValue_resetWith {p : Params} {r : Reg} {v : Nat} (h : (State.resetWith p).regValue r = some v) : v = 0 := by
  cases r <;> cases h <;> rfl

theorem entriesOf_resetWith (p : Params) (space : Space) : entriesOf (State.resetWith p) space = [] := by
  cases space <;> rfl

theorem flag_resetWith (p : Params) (f : Flag) : (State.resetWith p).flag f = false := by
  simp [State.flag, getFlag, State.resetWith]

end Sys2Proof.Machine

namespace Sys2Proof.Proofs

open Sys2Proof.Machine

/-- Settles O13: the step performs the reset, which writes every field of R50 and leaves the model's own three. -/
theorem resetActionZeroesTheBlock : Obligations.ResetActionZeroesTheBlock := by
  intro s rest
  rw [step_cons]
  rfl

/-- Settles O14: register by register, space by space, and STATUS = 0. -/
theorem resetStateIsAllZeroAndEmpty : Obligations.ResetStateIsAllZeroAndEmpty :=
  ⟨fun _ _ => regValue_resetWith, entriesOf_resetWith _, flag_resetWith _⟩

/-- Settles O56: nothing is derived after reset, nothing is reported, and every buffer is empty. -/
theorem resetMeetsTheInvariants : Obligations.ResetMeetsTheInvariants := by
  refine ⟨fun p hp => ?_, inv_resetWith (by decide)⟩
  have hinv := inv_resetWith hp
  exact ⟨hinv, reportInv_resetWith p, capacityInv_resetWith p, (storedFit_resetWith p).widthsFit hinv⟩

end Sys2Proof.Proofs
end

section
/-! PROOFS. Repeating a command (`20_memory.md` R73). What a command leaves differs from the state it started in at most
within its write-set, and states that differ only there give the same outcome: a command reads nothing that it writes. -/

namespace Sys2Proof.Machine

/-! ### STATUS by its fields -/

/-- The six flags, ERR and the reserved bits are the whole word (`10_state.md` R36). -/
theorem status_ext {w v : StatusWord} (hflag : ∀ f, getFlag w f = getFlag v f) (herr : getErr w = getErr v)
    (hres : reservedBits w = reservedBits v) : w = v := by
  apply BitVec.eq_of_getLsbD_eq
  intro i hi
  have hreserved := congrArg (BitVec.getLsbD · i) hres
  have hfield : i < 6 ∨ (∃ j < 4, i = 8 + j) ∨ i = 6 ∨ i = 7 ∨ 12 ≤ i := by
    by_cases h : 8 ≤ i ∧ i < 12
    · exact .inr (.inl ⟨i - 8, by omega, by omega⟩)
    · omega
  rcases hfield with h | ⟨j, hj, rfl⟩ | rfl | rfl | h
  · interval_cases i
    · exact hflag .treeV
    · exact hflag .ctV
    · exact hflag .imV
    · exact hflag .ftOvf
    · exact hflag .symOvf
    · exact hflag .bitOvf
  · simpa [getErr, hj] using congrArg (BitVec.getLsbD · j) herr
  · simpa [reservedBits] using hreserved
  · simpa [reservedBits] using hreserved
  · interval_cases i <;> simpa [reservedBits] using hreserved

/-- Writing ERR: the flags and the reserved bits are the rest of the word. -/
theorem putErr_congr {w v : StatusWord} (e : BitVec 4) (hflag : ∀ f, getFlag w f = getFlag v f)
    (hres : reservedBits w = reservedBits v) : putErr w e = putErr v e :=
  status_ext (by simpa using hflag) (by simp) (by simpa using hres)

theorem getFlag_and (w m : StatusWord) (f : Flag) : getFlag (w &&& m) f = (getFlag w f && getFlag m f) :=
  BitVec.getLsbD_and ..

theorem getErr_and_statusKept (w : StatusWord) (i : Instr) : getErr (w &&& statusKept i) = 0 := by
  have hzero : getErr (statusKept i) = 0 := by cases i <;> rfl
  rw [getErr, BitVec.extractLsb'_and]
  exact (congrArg _ hzero).trans BitVec.and_zero

theorem reservedBits_and_statusKept (w : StatusWord) (i : Instr) :
    reservedBits (w &&& statusKept i) = reservedBits w := by
  rw [reservedBits, BitVec.and_assoc, reservedBits]
  cases i <;> rfl

/-- The bits that a command keeps are the flags it does not write and the reserved bits. -/
theorem and_statusKept_eq_iff {w v : StatusWord} {i : Instr} :
    w &&& statusKept i = v &&& statusKept i ↔
      (∀ f, getFlag (statusKept i) f = true → getFlag w f = getFlag v f) ∧ reservedBits w = reservedBits v := by
  constructor
  · intro h
    refine ⟨fun f hf => ?_, ?_⟩
    · simpa [getFlag_and, hf] using congrArg (getFlag · f) h
    · simpa only [reservedBits_and_statusKept] using congrArg reservedBits h
  · rintro ⟨hflag, hres⟩
    refine status_ext (fun f => ?_) ?_ ?_
    · rw [getFlag_and, getFlag_and]
      cases hf : getFlag (statusKept i) f with
      | false => simp
      | true => rw [hflag f hf]
    · rw [getErr_and_statusKept, getErr_and_statusKept]
    · rw [reservedBits_and_statusKept, reservedBits_and_statusKept, hres]

/-- A bit outside the kept ones may be written. -/
theorem putFlag_and_statusKept {i : Instr} {f : Flag} (hf : getFlag (statusKept i) f = false) (w : StatusWord)
    (b : Bool) : putFlag w f b &&& statusKept i = w &&& statusKept i := by
  refine and_statusKept_eq_iff.2 ⟨fun g hg => ?_, reservedBits_putFlag w f b⟩
  have hne : g ≠ f := fun h => by simp [h, hf] at hg
  rw [getFlag_putFlag, if_neg hne]

theorem putErr_and_statusKept (i : Instr) (w : StatusWord) (e : BitVec 4) :
    putErr w e &&& statusKept i = w &&& statusKept i :=
  and_statusKept_eq_iff.2 ⟨fun f _ => getFlag_putErr w e f, reservedBits_putErr w e⟩

/-! ### What a command writes -/

/-- A command with a value has written only its write-set. -/
theorem commandBody_writesOnly {i : Instr} {s u : State} (h : commandBody i s = .ok u) :
    WritesOnly i s (succeed u) := by
  have hstatus : u.status &&& statusKept i = s.status &&& statusKept i →
      (succeed u).status &&& statusKept i = s.status &&& statusKept i :=
    (putErr_and_statusKept i u.status _).trans
  cases i
  case bht =>
    obtain ⟨-, -, rfl⟩ := bhtBody_ok.1 h
    refine ⟨hstatus ?_, rfl⟩
    rw [withTree_status, putFlag_and_statusKept rfl, putFlag_and_statusKept rfl]
  case hct => obtain ⟨-, ct, -, rfl⟩ := hctBody_ok.1 h; exact ⟨hstatus (putFlag_and_statusKept rfl _ _), rfl⟩
  case hen => obtain ⟨-, -, out, -, rfl⟩ := henBody_ok.1 h; exact ⟨hstatus rfl, rfl⟩
  case hde => obtain ⟨-, -, out, -, rfl⟩ := hdeBody_ok.1 h; exact ⟨hstatus rfl, rfl⟩
  case bim => obtain ⟨-, -, rfl⟩ := bimBody_ok.1 h; exact ⟨hstatus (putFlag_and_statusKept rfl _ _), rfl⟩
  case aen => obtain ⟨-, -, -, -, c, out, -, -, rfl⟩ := aenBody_ok.1 h; exact ⟨hstatus rfl, rfl⟩
  case ade => obtain ⟨-, -, -, -, -, d, out, -, rfl⟩ := adeBody_ok.1 h; exact ⟨hstatus rfl, rfl⟩
  case clrft =>
    cases h
    refine ⟨hstatus ?_, rfl⟩
    rw [invalidate_status, putFlag_and_statusKept rfl, putFlag_and_statusKept rfl, putFlag_and_statusKept rfl,
      putFlag_and_statusKept rfl]
  case clrsym => cases h; exact ⟨hstatus (putFlag_and_statusKept rfl _ _), rfl⟩
  case clrbit => cases h; exact ⟨hstatus (putFlag_and_statusKept rfl _ _), rfl⟩

/-- A fault writes only the write-set of the command that takes it. -/
theorem takeFault_writesOnly {i : Instr} {f : CmdFault} (s : State) (hf : f.err ∈ mayRaise i) :
    WritesOnly i s (takeFault (writeSet i) f s) := by
  have herr : (f.err.code.setWidth 16 <<< 8) &&& statusKept i = 0 := by cases f.err <;> cases i <;> rfl
  have hstatus : faultStatus s.status (statusKept i) f.err &&& statusKept i = s.status &&& statusKept i := by
    rw [faultStatus, BitVec.and_or_distrib_right, herr, BitVec.and_assoc, BitVec.and_self]
    exact BitVec.or_zero
  rw [takeFault_eq_faultOutcome]
  cases i
  case clrft => cases hf
  case clrsym => cases hf
  case clrbit => cases hf
  all_goals exact ⟨hstatus, rfl⟩

/-- A command, faulting or not, writes only its write-set. -/
theorem exec_writesOnly {i : Instr} {s t : State} (h : exec i s = .next t) : WritesOnly i s t := by
  rw [exec_eq_conclude] at h
  rcases conclude_next h with ⟨u, hu, rfl⟩ | ⟨f, hf, rfl⟩
  · exact commandBody_writesOnly hu
  · exact takeFault_writesOnly s (commandBody_raises i s f hf).err

/-! ### What a command reads -/

/-- Two runs of the same first part end alike when what follows ends alike. -/
theorem map_succeed_bind_congr {α : Type} {x : Result α} {f g : α → Result State}
    (h : ∀ a, (f a).map succeed = (g a).map succeed) : (x >>= f).map succeed = (x >>= g).map succeed := by
  cases x with
  | error _ => rfl
  | ok a => exact h a

/-- Success overwrites the report and nothing else. -/
theorem succeed_congr {u v : State} (hflag : ∀ f, getFlag u.status f = getFlag v.status f)
    (hres : reservedBits u.status = reservedBits v.status)
    (hrest : { u with status := 0, errpos := 0, errsym := 0 } = { v with status := 0, errpos := 0, errsym := 0 }) :
    succeed u = succeed v := by
  have hstatus := putErr_congr ErrCode.success.code hflag hres
  exact congrArg₂ (fun (x : State) w => ({ x with status := w } : State)) hrest hstatus

/-- States that differ at most in the write-set of a command give it the same end: the same halt, or values that success
makes equal. -/
theorem commandBody_congr {i : Instr} {s t : State} (h : WritesOnly i s t) :
    (commandBody i t).map succeed = (commandBody i s).map succeed := by
  obtain ⟨hstatus, ht⟩ := h
  obtain ⟨hflag, hres⟩ := and_statusKept_eq_iff.1 hstatus
  cases i
  all_goals dsimp only at ht
  case bht =>
    simp only [commandBody, bhtBody, State.flag, hflag .ftOvf rfl, congrArg State.ft ht]
    refine map_succeed_bind_congr fun _ => map_succeed_bind_congr fun _ => ?_
    refine congrArg Except.ok (succeed_congr (fun f => ?_) (by simpa using hres) ?_)
    · cases f <;> simp (disch := decide) [hflag]
    · rw [ht]; rfl
  case hct =>
    simp only [commandBody, hctBody, State.flag, hflag .treeV rfl, congrArg State.tn ht, congrArg State.root ht]
    refine map_succeed_bind_congr fun _ => ?_
    cases codeTable s.tn s.root with
    | none => rfl
    | some ct =>
      refine congrArg Except.ok (succeed_congr (fun f => ?_) (by simpa using hres) (by rw [ht]))
      cases f <;> simp (disch := decide) [hflag]
  case hen =>
    simp only [commandBody, henBody, State.flag, hflag .ctV rfl, hflag .symOvf rfl, congrArg State.ct ht,
      congrArg State.params ht, congrArg State.symIn ht]
    refine map_succeed_bind_congr fun _ => map_succeed_bind_congr fun _ => map_succeed_bind_congr fun out => ?_
    refine congrArg Except.ok (succeed_congr (fun f => ?_) hres (by rw [ht]))
    cases f <;> exact hflag _ rfl
  case hde =>
    simp only [commandBody, hdeBody, State.flag, hflag .treeV rfl, hflag .bitOvf rfl, congrArg State.tn ht,
      congrArg State.root ht, congrArg State.params ht, congrArg State.bitIn ht]
    refine map_succeed_bind_congr fun _ => map_succeed_bind_congr fun _ => map_succeed_bind_congr fun r => ?_
    refine map_succeed_bind_congr fun _ => ?_
    refine congrArg Except.ok (succeed_congr (fun f => ?_) hres (by rw [ht]))
    cases f <;> exact hflag _ rfl
  case bim =>
    simp only [commandBody, bimBody, State.flag, hflag .ftOvf rfl, congrArg State.ft ht]
    refine map_succeed_bind_congr fun _ => map_succeed_bind_congr fun _ => ?_
    refine congrArg Except.ok (succeed_congr (fun f => ?_) (by simpa using hres) (by rw [ht]))
    cases f <;> simp (disch := decide) [hflag]
  case aen =>
    simp only [commandBody, aenBody, State.flag, hflag .imV rfl, hflag .symOvf rfl, State.precision,
      congrArg State.k ht, congrArg State.params ht, congrArg State.t ht, congrArg State.im ht, congrArg State.symIn ht]
    refine map_succeed_bind_congr fun _ => map_succeed_bind_congr fun _ => map_succeed_bind_congr fun _ => ?_
    refine map_succeed_bind_congr fun _ => map_succeed_bind_congr fun c => map_succeed_bind_congr fun out => ?_
    refine congrArg Except.ok (succeed_congr (fun f => ?_) hres (by rw [ht]))
    cases f <;> exact hflag _ rfl
  case ade =>
    simp only [commandBody, adeBody, State.flag, hflag .imV rfl, hflag .bitOvf rfl, State.precision,
      State.messageLength, congrArg State.k ht, congrArg State.n ht, congrArg State.params ht, congrArg State.t ht,
      congrArg State.im ht, congrArg State.bitIn ht]
    refine map_succeed_bind_congr fun _ => map_succeed_bind_congr fun _ => map_succeed_bind_congr fun _ => ?_
    refine map_succeed_bind_congr fun _ => map_succeed_bind_congr fun _ => map_succeed_bind_congr fun r => ?_
    refine congrArg Except.ok (succeed_congr (fun f => ?_) hres (by rw [ht]))
    cases f <;> exact hflag _ rfl
  case clrft =>
    refine congrArg Except.ok (succeed_congr (fun f => ?_) (by simpa using hres) (by rw [ht]; rfl))
    cases f <;> simp (disch := decide) [hflag]
  case clrsym =>
    refine congrArg Except.ok (succeed_congr (fun f => ?_) (by simpa using hres) (by rw [ht]))
    cases f <;> simp (disch := decide) [hflag]
  case clrbit =>
    refine congrArg Except.ok (succeed_congr (fun f => ?_) (by simpa using hres) (by rw [ht]))
    cases f <;> simp (disch := decide) [hflag]

/-- Taking a fault overwrites the write-set, so it gives the same state from states that differ only there. -/
theorem takeFault_congr {i : Instr} {s t : State} {f : CmdFault} (h : WritesOnly i s t) (hf : f.err ∈ mayRaise i) :
    takeFault (writeSet i) f t = takeFault (writeSet i) f s := by
  obtain ⟨hstatus, ht⟩ := h
  have hfault : faultStatus t.status (statusKept i) f.err = faultStatus s.status (statusKept i) f.err :=
    congrArg (· ||| f.err.code.setWidth 16 <<< 8) hstatus
  rw [takeFault_eq_faultOutcome, takeFault_eq_faultOutcome]
  cases i
  case clrft => cases hf
  case clrsym => cases hf
  case clrbit => cases hf
  all_goals
    dsimp only [statusKept] at ht hfault
    simp only [faultOutcome, hfault]
    rw [ht]

/-- A command reads nothing that it writes. -/
theorem exec_congr {i : Instr} {s t : State} (h : WritesOnly i s t) : exec i t = exec i s := by
  have hbody := commandBody_congr h
  rw [exec_eq_conclude, exec_eq_conclude]
  cases hs : commandBody i s with
  | ok u =>
    cases ht : commandBody i t with
    | ok v =>
      rw [hs, ht] at hbody
      exact congrArg Host.Outcome.next (Except.ok.inj hbody)
    | error e => rw [hs, ht] at hbody; cases hbody
  | error e =>
    cases ht : commandBody i t with
    | ok v => rw [hs, ht] at hbody; cases hbody
    | error e' =>
      rw [hs, ht] at hbody
      cases hbody
      cases e with
      | stuck r => rfl
      | raise f => exact congrArg Host.Outcome.next (takeFault_congr h (commandBody_raises i s f hs).err)

end Sys2Proof.Machine

namespace Sys2Proof.Proofs

open Sys2Proof.Machine

/-- Settles O51: a command writes only its write-set and reads nothing there. -/
theorem commandsAreIdempotent : Obligations.CommandsAreIdempotent := by
  intro i s t h
  rw [exec_congr (exec_writesOnly h), h]

end Sys2Proof.Proofs
end

section
/-! PROOFS. The host actions (`20_memory.md` R62 to R69): what each does, and which accesses are refused. -/

namespace Sys2Proof.Machine

/-! ### Writes -/

theorem runCommand_of_decode {v : Nat} {i : Instr} (h : decode (BitVec.ofNat 8 v) = .ok i) (s : State) :
    runCommand v s = exec i { s with cmd := BitVec.ofNat 8 v } := by
  simp only [runCommand, h]

theorem runCommand_ne_refused (v : Nat) (s : State) (q : Refusal) : runCommand v s ≠ .refused q := by
  cases h : decode (BitVec.ofNat 8 v) with
  | ok i => rw [runCommand_of_decode h]; exact exec_ne_refused i _ q
  | error e => simp [runCommand, h]

/-- A write is refused exactly when the register map does not give it to the host (`10_state.md` R34). -/
theorem hostWrite_refused_iff (no v : Nat) (s : State) :
    (∃ r, hostWrite no v s = .refused r) ↔ (regOfNumber no).any Reg.hostWrites = false := by
  unfold hostWrite
  cases regOfNumber no with
  | none => simp
  | some r =>
    cases r
    case cmd => simp [runCommand_ne_refused, Reg.hostWrites]
    all_goals simp [Reg.hostWrites]

theorem hostWrite_readOnly {no : Nat} (h : (1 ≤ no ∧ no ≤ 3) ∨ (6 ≤ no ∧ no ≤ 22)) (v : Nat) (s : State) :
    hostWrite no v s = .refused (.writeReadOnly no) := by
  rcases h with ⟨hlo, hhi⟩ | ⟨hlo, hhi⟩ <;> interval_cases no <;> rfl

theorem hostWrite_noSuchRegister {no : Nat} (h : 25 < no) (v : Nat) (s : State) :
    hostWrite no v s = .refused (.noSuchRegister no) := by
  simp only [hostWrite, regOfNumber_none h]

/-! ### The ports -/

/-- Register 23 takes the symbol from the low bits and the count from those above (`10_state.md` R22). -/
theorem hostWrite_ftPush (v : Nat) (s : State) :
    hostWrite 23 v s =
      .next (pushFt ⟨v % 2 ^ s.params.symBits, v / 2 ^ s.params.symBits % 2 ^ s.params.cntBits⟩ s) := by
  simp [hostWrite, regOfNumber, ftOperand, slice]

theorem hostWrite_symPush (v : Nat) (s : State) :
    hostWrite 24 v s = .next (pushSym (v % 2 ^ s.params.symBits) s) := by
  simp [hostWrite, regOfNumber, symOperand, slice]

theorem hostWrite_bitPush {v : Nat} {b : Bit} (h : v % 2 = if b then 1 else 0) (s : State) :
    hostWrite 25 v s = .next (pushBit b s) := by
  have hbit : bitOperand v = b := by
    rw [bitOperand, Nat.testBit_zero, h]
    cases b <;> rfl
  simp only [hostWrite, regOfNumber, hbit]

/-! ### Register reads -/

theorem hostRead_value {no v : Nat} {s : State} (h : (regOfNumber no).bind s.regValue = some v) :
    hostRead no s = .next { s with reply := some (.value v) } := by
  obtain ⟨r, hr, hv⟩ := Option.bind_eq_some_iff.1 h
  simp only [hostRead, hr, hv]

/-- A register read is refused exactly when the register map does not give it to the host (`10_state.md` R34). -/
theorem hostRead_refused_iff (no : Nat) (s : State) :
    (∃ r, hostRead no s = .refused r) ↔ (regOfNumber no).any Reg.hostReads = false := by
  cases hr : regOfNumber no with
  | none => simp [hostRead, hr]
  | some r =>
    have hreads := regValue_isSome s r
    cases hv : s.regValue r with
    | none => rw [hv] at hreads; simp [hostRead, hr, hv, ← hreads]
    | some v => rw [hv] at hreads; simp [hostRead, hr, hv, ← hreads]

theorem hostRead_port {no : Nat} (hlo : 23 ≤ no) (hhi : no ≤ 25) (s : State) :
    hostRead no s = .refused (.readPort no) := by
  interval_cases no <;> rfl

theorem hostRead_noSuchRegister {no : Nat} (h : 25 < no) (s : State) :
    hostRead no s = .refused (.noSuchRegister no) := by
  simp only [hostRead, regOfNumber_none h]

/-! ### Buffer reads and pushes -/

theorem memRead_entry {space : Space} {i : Nat} {s : State} {e : Entry} (h : (entriesOf s space)[i]? = some e) :
    memRead space i s = .next { s with reply := some (.entry e) } := by
  simp only [memRead, readEntry_eq, h]

theorem memRead_pastEnd {space : Space} {i : Nat} {s : State} (h : (entriesOf s space).length ≤ i) :
    memRead space i s = .refused (.readPastEnd space i) := by
  simp only [memRead, (readEntry_eq_none s space i).2 h]

theorem memRead_refused_iff (space : Space) (i : Nat) (s : State) :
    (∃ r, memRead space i s = .refused r) ↔ (entriesOf s space).length ≤ i := by
  rw [← readEntry_eq_none]
  cases h : s.readEntry space i with
  | none => simp [memRead, h]
  | some e => simp [memRead, h]

theorem memWrite_noWritePort {space : Space} (h : space ∈ [Space.tn, .ct, .im, .symOut, .bitOut]) (e : Entry)
    (s : State) : memWrite space e s = .refused (.noWritePort space) := by
  simp only [List.mem_cons, List.not_mem_nil, or_false] at h
  rcases h with rfl | rfl | rfl | rfl | rfl <;> rfl

theorem memWrite_ft {e : FtEntry} {s : State} (hsym : e.sym < 2 ^ s.params.symBits)
    (hcount : e.count < 2 ^ s.params.cntBits) : memWrite .ft (.freq e) s = .next (pushFt e s) :=
  if_pos ⟨hsym, hcount⟩

theorem memWrite_symIn {x : Symbol} {s : State} (h : x < 2 ^ s.params.symBits) :
    memWrite .symIn (.symbol x) s = .next (pushSym x s) :=
  if_pos h

theorem FtEntry.fits_iff {p : Params} {e : FtEntry} :
    e.fits p = true ↔ e.sym < 2 ^ p.symBits ∧ e.count < 2 ^ p.cntBits := by
  simp only [FtEntry.fits, Bool.and_eq_true, decide_eq_true_eq]

/-- A push is refused exactly when its operand is no entry of a space with a port. -/
theorem memWrite_refused_iff (space : Space) (e : Entry) (s : State) :
    (∃ r, memWrite space e s = .refused r) ↔ (HostAction.memWrite space e).wf s.params = false := by
  cases space
  case ft =>
    cases e
    case freq x =>
      cases hx : x.fits s.params with
      | true => simp [memWrite, HostAction.wf, hx, ← FtEntry.fits_iff]
      | false => simp [memWrite, HostAction.wf, hx, ← FtEntry.fits_iff]
    all_goals simp [memWrite, HostAction.wf]
  case symIn =>
    cases e
    case symbol x =>
      by_cases h : x < 2 ^ s.params.symBits
      · simp [memWrite, HostAction.wf, h]
      · simp [memWrite, HostAction.wf, h]
    all_goals simp [memWrite, HostAction.wf]
  case bitIn => cases e <;> simp [memWrite, HostAction.wf]
  all_goals simp [memWrite, HostAction.wf]

/-- An action is refused exactly when it is not well formed, or reads a buffer past its end. -/
theorem perform_refused_iff (a : HostAction) (s : State) :
    (∃ r, perform a s = .refused r) ↔
      a.wf s.params = false ∨ ∃ space i, a = .memRead space i ∧ (entriesOf s space).length ≤ i := by
  cases a with
  | writeReg no v => simpa [perform, HostAction.wf] using hostWrite_refused_iff no v s
  | readReg no => simpa [perform, HostAction.wf] using hostRead_refused_iff no s
  | memRead space i => simpa [perform, HostAction.wf] using memRead_refused_iff space i s
  | memWrite space e => simpa [perform] using memWrite_refused_iff space e s
  | reset => simp [perform, HostAction.wf]

end Sys2Proof.Machine

namespace Sys2Proof.Proofs

open Sys2Proof.Machine

/-- Settles O12: one iff for every action, from those of the four kinds of access. -/
theorem refusedExactlyWhenNotWellFormed : Obligations.RefusedExactlyWhenNotWellFormed := by
  intro s rest a
  rw [step_cons]
  have hiff := perform_refused_iff a { s with pending := rest }
  refine ⟨fun hwf => hiff.2 (.inl hwf), fun hwf hbound r hr => ?_⟩
  rcases hiff.1 ⟨r, hr⟩ with hill | ⟨space, i, ha, hlen⟩
  · exact Bool.noConfusion (hwf.symm.trans hill)
  · exact absurd (hbound space i ha) (Nat.not_lt.2 hlen)

/-- Settles O3: the write to CMD runs what its low byte decodes to. -/
theorem stepRunsTheDecodedCommand : Obligations.StepRunsTheDecodedCommand := by
  intro s rest v i hdecode
  rw [step_cons]
  exact runCommand_of_decode hdecode _

/-- Settles O5: the registers 4 and 5 are K and N, and each write is of one field. -/
theorem writesToKAndNChangeNothingElse : Obligations.WritesToKAndNChangeNothingElse :=
  fun _ _ _ => ⟨rfl, rfl⟩

/-- Settles O6: the port and MemWrite push the same entry. -/
theorem ftPushAppendsOrDropsAndInvalidates : Obligations.FtPushAppendsOrDropsAndInvalidates := by
  intro s rest v sym count
  refine ⟨?_, fun hsym hcount => ?_⟩
  · rintro ⟨rfl, rfl⟩
    rw [step_cons, perform, hostWrite_ftPush, pushFt_eq]
  · rw [step_cons, perform, memWrite_ft (s := { s with pending := rest }) hsym hcount, pushFt_eq]

/-- Settles O7: the port and MemWrite push the same symbol. -/
theorem symPushAppendsOrDrops : Obligations.SymPushAppendsOrDrops := by
  intro s rest v
  refine ⟨?_, fun hv => ?_⟩
  · rw [step_cons, perform, hostWrite_symPush, pushSym_eq, apply_ite Host.Outcome.next]
  · rw [step_cons, perform, memWrite_symIn (s := { s with pending := rest }) hv, pushSym_eq,
      apply_ite Host.Outcome.next]

/-- Settles O8: the port and MemWrite push the same bit. -/
theorem bitPushAppendsOrDrops : Obligations.BitPushAppendsOrDrops := by
  intro s rest v b hb a ha
  have hpush : perform a { s with pending := rest } = .next (pushBit b { s with pending := rest }) := by
    simp only [List.mem_cons, List.not_mem_nil, or_false] at ha
    rcases ha with rfl | rfl
    · exact hostWrite_bitPush hb _
    · rfl
  rw [step_cons, hpush, pushBit_eq, apply_ite Host.Outcome.next]

/-- Settles O9: the list of the obligation is the register map, number by number. -/
theorem registerReadsReturnTheValueAndChangeNothing : Obligations.RegisterReadsReturnTheValueAndChangeNothing := by
  intro s rest no
  rw [step_cons]
  refine ⟨fun hno => ?_, fun hno => ?_⟩
  · refine hostRead_value ?_
    interval_cases no <;> rfl
  · by_cases hport : no ≤ 25
    · exact ⟨_, hostRead_port hno hport _⟩
    · exact ⟨_, hostRead_noSuchRegister (Nat.not_le.1 hport) _⟩

/-- Settles O10: a read is a lookup in the entries of the space. -/
theorem memReadReturnsTheWholeEntry : Obligations.MemReadReturnsTheWholeEntry := by
  intro s rest space i
  rw [step_cons]
  split
  · next e he => exact memRead_entry he
  · next hnone => exact memRead_pastEnd (List.getElem?_eq_none_iff.1 hnone)

/-- Settles O11: one clause of R69 each. -/
theorem accessesOfRule69AreRefused : Obligations.AccessesOfRule69AreRefused := by
  intro s rest
  refine ⟨fun no v h => ?_, fun no hlo hhi => ?_, fun no v h => ⟨?_, ?_⟩, fun space i h => ?_, fun space h e => ?_⟩
  all_goals rw [step_cons]
  · exact hostWrite_readOnly h v _
  · exact hostRead_port hlo hhi _
  · exact hostWrite_noSuchRegister h v _
  · exact hostRead_noSuchRegister h _
  · exact memRead_pastEnd h
  · exact memWrite_noWritePort h e _

end Sys2Proof.Proofs
end

section
/-! PROOFS. Decoding and encoding of the command word (`30_encoding.md` R90, R91, R94): the two fields are the whole word,
and each command has its own opcode, so decoding is the inverse of encoding. -/

namespace Sys2Proof

theorem encode_fields (i : Instr) : Laws.EncodingFields.Statement i := by
  cases i
  exacts [Laws.EncodingFields.bht, Laws.EncodingFields.hct, Laws.EncodingFields.hen, Laws.EncodingFields.hde,
    Laws.EncodingFields.bim, Laws.EncodingFields.aen, Laws.EncodingFields.ade, Laws.EncodingFields.clrft,
    Laws.EncodingFields.clrsym, Laws.EncodingFields.clrbit]

/-- The fields `zero` and `opcode` are the whole word (`30_encoding.md` R90). -/
theorem cmdWord_ext {c d : CmdWord} (hzero : zeroField c = zeroField d) (hopcode : opcodeField c = opcodeField d) :
    c = d := by
  have hjoin (w : CmdWord) : zeroField w ++ opcodeField w = w :=
    (BitVec.extractLsb'_append_extractLsb'_eq_extractLsb' rfl).trans BitVec.extractLsb'_eq_self
  rw [← hjoin c, hzero, hopcode, hjoin d]

/-- Each command has one opcode (`30_encoding.md` R91). -/
theorem opcodeField_encode_of_opcodeOf {o : BitVec 4} {i : Instr} (h : opcodeOf o = some i) :
    opcodeField (encode i) = o := by
  apply BitVec.eq_of_toNat_eq
  unfold opcodeOf at h
  split at h <;> cases h
  all_goals next hn => exact hn.symm

/-- A word decodes to a command exactly when its fields are that command's (`30_encoding.md` R94). -/
theorem decode_eq_ok_iff {c : CmdWord} {i : Instr} :
    decode c = .ok i ↔ zeroField c = 0 ∧ opcodeOf (opcodeField c) = some i := by
  rw [decode]
  by_cases hzero : zeroField c = 0
  · rw [if_neg (not_not_intro hzero)]
    cases opcodeOf (opcodeField c) with
    | none => simp
    | some j => simp [hzero]
  · rw [if_pos hzero]
    simp only [reduceCtorEq, hzero, false_and]

/-- Decoding and encoding are inverse to each other. -/
theorem decode_eq_ok_iff_encode_eq {c : CmdWord} {i : Instr} : decode c = .ok i ↔ encode i = c := by
  obtain ⟨hzero, hopcode⟩ := encode_fields i
  rw [decode_eq_ok_iff]
  constructor
  · rintro ⟨hc, ho⟩
    exact cmdWord_ext (hzero.trans hc.symm) (opcodeField_encode_of_opcodeOf ho)
  · rintro rfl
    exact ⟨hzero, hopcode⟩

theorem decode_encode (i : Instr) : decode (encode i) = .ok i := decode_eq_ok_iff_encode_eq.2 rfl

end Sys2Proof

namespace Sys2Proof.Proofs

/-- Settles O2: a word decodes to a command exactly when it is that command's word. -/
theorem decodeInvertsEncode : Obligations.DecodeInvertsEncode :=
  ⟨decode_encode, fun _ _ => decode_eq_ok_iff_encode_eq.1⟩

/-- Settles O1: a word that decodes is one of the ten of R91, and one that does not is none of them. -/
theorem decodeSelectsExactlyTheTenCommands : Obligations.DecodeSelectsExactlyTheTenCommands := by
  intro c
  cases h : decode c with
  | ok i =>
    obtain rfl := decode_eq_ok_iff_encode_eq.1 h
    cases i <;> rfl
  | error e =>
    have hne (i : Instr) : c ≠ encode i := fun hc => by rw [hc, decode_encode] at h; cases h
    exact .symm <| (if_neg (hne .bht)).trans <| (if_neg (hne .hct)).trans <| (if_neg (hne .hen)).trans <|
      (if_neg (hne .hde)).trans <| (if_neg (hne .bim)).trans <| (if_neg (hne .aen)).trans <|
      (if_neg (hne .ade)).trans <| (if_neg (hne .clrft)).trans <| (if_neg (hne .clrsym)).trans <|
      if_neg (hne .clrbit)

end Sys2Proof.Proofs
end

section
/-! PROOFS. The host-script lines LOADFT and COPYBITS (`30_encoding.md` R98): a clear command, then one push for each entry,
none of which is dropped while the entries fit the buffer. -/

namespace Sys2Proof.Machine

/-! ### Running a list of actions -/

theorem performAll_cons {a : HostAction} {s t : State} (h : perform a s = .next t) (rest : List HostAction) :
    performAll (a :: rest) s = performAll rest t := by
  simp only [performAll, h]

theorem performAll_append {xs : List HostAction} {s t : State} (h : performAll xs s = .next t)
    (ys : List HostAction) : performAll (xs ++ ys) s = performAll ys t := by
  induction xs generalizing s with
  | nil => cases h; rfl
  | cons a xs ih =>
    rw [performAll] at h
    split at h
    · next u hu => exact (performAll_cons hu _).trans (ih h)
    · cases h
    · cases h

theorem runScript_singleton {line : ScriptLine} {s t : State} (h : performAll (line.expand s) s = .next t) :
    runScript [line] s = .next t := by
  simp only [runScript, h]

/-! ### The clear commands that begin the lines -/

/-- A command line writes the command's word to CMD and runs it (`30_encoding.md` R96). -/
theorem perform_commandAction (i : Instr) (s : State) :
    perform (commandAction i) s = exec i { s with cmd := encode i } := by
  have hword : BitVec.ofNat 8 (encode i).toNat = encode i :=
    (BitVec.ofNat_toNat _ _).trans (BitVec.setWidth_eq _)
  have hdecode : decode (BitVec.ofNat 8 (encode i).toNat) = .ok i := by rw [hword, decode_encode]
  rw [← hword]
  exact runCommand_of_decode hdecode s

theorem exec_clrft (s : State) :
    exec .clrft s = .next { s with
      ft := [], tn := [], root := 0, ct := [], im := [], t := 0
      status := s.status &&& 0xF0F0#16, errpos := 0, errsym := 0 } := by
  have hmask : (s.status &&& 0xFFF7#16) &&& 0xFFF8#16 &&& 0xF0FF#16 = s.status &&& 0xF0F0#16 := by
    simp only [BitVec.and_assoc]; rfl
  simp only [exec, execClrft, conclude_ok, succeed_eq, invalidate_eq, putFlag_ftOvf_false, hmask]

theorem exec_clrbit (s : State) :
    exec .clrbit s = .next { s with
      bitIn := [], status := s.status &&& 0xF0DF#16, errpos := 0, errsym := 0 } := by
  have hmask : (s.status &&& 0xFFDF#16) &&& 0xF0FF#16 = s.status &&& 0xF0DF#16 := by
    rw [BitVec.and_assoc]; rfl
  simp only [exec, execClrbit, conclude_ok, succeed_eq, putFlag_bitOvf_false, hmask]

/-! ### Pushing a table -/

/-- With nothing derived left to discard, a push to FT below its capacity only appends. -/
theorem pushFt_of_invalidated {s : State} (hinv : invalidate s = s) (e : FtEntry)
    (hroom : s.ft.length < s.params.maxSyms) : pushFt e s = { s with ft := s.ft ++ [e] } := by
  rw [pushFt, if_pos hroom]
  exact congrArg (fun u : State => { u with ft := s.ft ++ [e] }) hinv

theorem performAll_pushFt {s : State} {es : List FtEntry} (hinv : invalidate s = s)
    (hroom : s.ft.length + es.length ≤ s.params.maxSyms) (hfits : ∀ e ∈ es, e.fits s.params = true) :
    performAll (es.map fun e => .memWrite .ft (.freq e)) s = .next { s with ft := s.ft ++ es } := by
  induction es generalizing s with
  | nil => simp [performAll]
  | cons e es ih =>
    rw [List.length_cons] at hroom
    obtain ⟨hsym, hcount⟩ := FtEntry.fits_iff.1 (hfits e List.mem_cons_self)
    have hpush : perform (.memWrite .ft (.freq e)) s = .next { s with ft := s.ft ++ [e] } := by
      rw [perform, memWrite_ft hsym hcount, pushFt_of_invalidated hinv e (by omega)]
    have hinv' : invalidate { s with ft := s.ft ++ [e] } = { s with ft := s.ft ++ [e] } :=
      congrArg (fun u : State => { u with ft := s.ft ++ [e] }) hinv
    have hroom' : (s.ft ++ [e]).length + es.length ≤ s.params.maxSyms := by
      rw [List.length_append, List.length_singleton]; omega
    rw [List.map_cons, performAll_cons hpush, ih hinv' hroom' fun x hx => hfits x (List.mem_cons_of_mem e hx)]
    simp only [List.append_assoc, List.singleton_append]

/-! ### Copying bits -/

/-- What COPYBITS does for the bit at index `i` of BIT_OUT (`30_encoding.md` R98). -/
def copyBitActions (out : BitString) (i : Nat) : List HostAction :=
  [.memRead .bitOut i, .memWrite .bitIn (.bit (out.getD i false))]

theorem expand_copyBits (s : State) :
    ScriptLine.copyBits.expand s =
      commandAction .clrbit :: (List.range s.bitOut.length).flatMap (copyBitActions s.bitOut) := rfl

theorem performAll_copyBitActions {s : State} {i : Nat} (hi : i < s.bitOut.length)
    (hroom : s.bitIn.length < s.params.maxBits) :
    performAll (copyBitActions s.bitOut i) s = .next { s with
      reply := some (.entry (.bit s.bitOut[i])), bitIn := s.bitIn ++ [s.bitOut[i]] } := by
  have hread : perform (.memRead .bitOut i) s = .next { s with reply := some (.entry (.bit s.bitOut[i])) } :=
    memRead_entry (by simp [entriesOf, hi])
  have hbit : s.bitOut.getD i false = s.bitOut[i] := List.getD_eq_getElem _ _ hi
  rw [copyBitActions, performAll_cons hread, hbit]
  simp only [performAll, perform, memWrite, pushBit_eq, if_pos hroom]

/-- After `n` bits BIT_IN has got the first `n` of BIT_OUT, which is as it was. -/
theorem performAll_copyBits {s : State} {n : Nat} (hn : n ≤ s.bitOut.length)
    (hroom : s.bitIn.length + n ≤ s.params.maxBits) :
    ∃ reply, performAll ((List.range n).flatMap (copyBitActions s.bitOut)) s =
      .next { s with reply := reply, bitIn := s.bitIn ++ s.bitOut.take n } := by
  induction n with
  | zero => exact ⟨s.reply, by simp [performAll]⟩
  | succ n ih =>
    obtain ⟨reply, hcopied⟩ := ih (by omega) (by omega)
    have hlen : (s.bitIn ++ s.bitOut.take n).length < s.params.maxBits := by
      rw [List.length_append, List.length_take]; omega
    refine ⟨some (.entry (.bit s.bitOut[n])), ?_⟩
    rw [List.range_succ, List.flatMap_append, performAll_append hcopied, List.flatMap_singleton]
    rw [performAll_copyBitActions (s := { s with reply := reply, bitIn := s.bitIn ++ s.bitOut.take n }) hn hlen]
    simp only [List.append_assoc, List.take_append_getElem]

end Sys2Proof.Machine

namespace Sys2Proof.Proofs

open Sys2Proof.Machine

/-- Settles O58: CLRFT leaves FT empty and nothing derived, so each push only appends its entry. -/
theorem loadftFillsTheTableInOrder : Obligations.LoadftFillsTheTableInOrder := by
  intro s es hlen hfits
  have hclear := (perform_commandAction .clrft s).trans (exec_clrft _)
  apply runScript_singleton
  rw [ScriptLine.expand, performAll_cons hclear]
  have hpushes := performAll_pushFt (es := es.map fun e => ⟨e.1, e.2⟩)
    (s := { s with
      cmd := 0x08#8, ft := [], tn := [], root := 0, ct := [], im := [], t := 0
      status := s.status &&& 0xF0F0#16, errpos := 0, errsym := 0 })
    (by rw [invalidate_eq, BitVec.and_assoc]; rfl) (by simpa using hlen)
    (List.forall_mem_map.2 fun e he => FtEntry.fits_iff.2 (hfits e he))
  rw [List.map_map] at hpushes
  exact hpushes

/-- Settles O59: CLRBIT leaves BIT_IN empty, so the whole of BIT_OUT fits and is carried over. -/
theorem copybitsCarriesBitOutToBitIn : Obligations.CopybitsCarriesBitOutToBitIn := by
  intro s hlen
  have hclear := (perform_commandAction .clrbit s).trans (exec_clrbit _)
  obtain ⟨reply, hcopy⟩ := performAll_copyBits
    (s := { s with
      cmd := 0x0A#8, bitIn := [], status := s.status &&& 0xF0DF#16, errpos := 0, errsym := 0 })
    (n := s.bitOut.length) le_rfl (by simpa using hlen)
  refine ⟨reply, runScript_singleton ?_⟩
  rw [expand_copyBits, performAll_cons hclear]
  simp only [List.nil_append, List.take_length] at hcopy
  exact hcopy

end Sys2Proof.Proofs
end

section
/-! PROOFS. What BHT answers on a well-formed table (`40_huffman_tree_builder.md` R110 to R115), and the order in which it
merges (R111, R112). A property that each merge of the two indices of least key keeps holds of the tree BHT leaves. -/

namespace Sys2Proof.Machine

/-! ### The command -/

theorem putFlag_treeV_succeed (w : StatusWord) :
    putFlag (putFlag w .treeV true) .ctV false &&& 0xF0FF#16 = (w ||| 0x0001#16) &&& 0xF0FD#16 := by
  rw [putFlag_ctV_false, putFlag_true_eq, BitVec.and_assoc]
  rfl

theorem exec_bht_of_wellFormed {s : State} (hovf : s.flag .ftOvf = false) (hft : FtWellFormed s.ft) :
    exec .bht s = .next (succeed (withTree s (buildTree s.ft).1 (buildTree s.ft).2)) :=
  congrArg (conclude .bht s) (bhtBody_ok.2 ⟨hovf, hft, rfl⟩)

/-! ### The keys -/

theorem keyBefore_iff {tn : List TreeNode} {v w : Nat} : keyBefore tn v w = true ↔ keyLess tn v w := by
  simp [keyBefore, keyLess]

theorem keyLess.freqAt_le {tn : List TreeNode} {v w : Nat} (h : keyLess tn v w) : freqAt tn v ≤ freqAt tn w := by
  rcases h with hlt | ⟨heq, -⟩
  · exact hlt.le
  · exact heq.le

/-- The keys of nodes do not change when a node is appended. -/
theorem keyLess_append {tn : List TreeNode} {v w : Nat} (hv : v < tn.length) (hw : w < tn.length)
    (xs : List TreeNode) : keyLess (tn ++ xs) v w ↔ keyLess tn v w := by
  simp only [keyLess, freqAt_append hv, freqAt_append hw]

theorem keyLess_trans {tn : List TreeNode} {u v w : Nat} (huv : keyLess tn u v) (hvw : keyLess tn v w) :
    keyLess tn u w := by
  simp only [keyLess] at *
  omega

/-- The better of two indices, as `leastIndex` takes it, comes before each of the two that it is not. -/
theorem keyLess_better {tn : List TreeNode} {v w x : Nat} (hx : x = v ∨ x = w)
    (hne : x ≠ if keyBefore tn w v then w else v) : keyLess tn (if keyBefore tn w v then w else v) x := by
  by_cases hwv : keyBefore tn w v = true
  · rw [if_pos hwv] at hne ⊢
    obtain rfl := hx.resolve_right hne
    exact keyBefore_iff.1 hwv
  · rw [if_neg hwv] at hne ⊢
    obtain rfl := hx.resolve_left hne
    rw [keyBefore_iff, keyLess] at hwv
    simp only [keyLess]
    omega

theorem leastIndex_least (tn : List TreeNode) (v : Nat) (vs : List Nat) :
    ∀ x ∈ v :: vs, x ≠ leastIndex tn v vs → keyLess tn (leastIndex tn v vs) x := by
  induction vs generalizing v with
  | nil => exact fun x hx hne => absurd (List.mem_singleton.1 hx) hne
  | cons w vs ih =>
    intro x hx hne
    change x ≠ leastIndex tn (if keyBefore tn w v then w else v) vs at hne
    change keyLess tn (leastIndex tn (if keyBefore tn w v then w else v) vs) x
    have hbetter : x = v ∨ x = w → x ≠ (if keyBefore tn w v then w else v) →
        keyLess tn (if keyBefore tn w v then w else v) x := keyLess_better
    have hu := ih (if keyBefore tn w v then w else v)
    generalize (if keyBefore tn w v then w else v) = u at hne hbetter hu ⊢
    by_cases hxu : x ∈ u :: vs
    · exact hu x hxu hne
    · obtain ⟨hxu, hxvs⟩ : x ≠ u ∧ x ∉ vs := by simpa using hxu
      have hux : keyLess tn u x := hbetter (by simpa [hxvs] using hx) hxu
      by_cases hul : u = leastIndex tn u vs
      · rwa [← hul]
      · exact keyLess_trans (hu u List.mem_cons_self hul) hux

theorem extractMin_least {pq pq' : List Nat} {tn : List TreeNode} {a : Nat} (h : extractMin pq tn = some (a, pq')) :
    ∀ v ∈ pq, v ≠ a → keyLess tn a v := by
  cases pq with
  | nil => cases h
  | cons v vs =>
    cases h
    exact leastIndex_least tn v vs

/-! ### One merge -/

/-- `a` and `b` are the indices of least key in `pq`, the least first, and `rest` holds the others. -/
structure LeastTwo (tn : List TreeNode) (pq : List Nat) (a b : Nat) (rest : List Nat) : Prop where
  perm : pq.Perm (a :: b :: rest)
  first : ∀ v ∈ pq, v ≠ a → keyLess tn a v
  second : ∀ v ∈ pq, v ≠ a → v ≠ b → keyLess tn b v

theorem leastTwo_of_extractMin {tn : List TreeNode} {pq pq' rest : List Nat} {a b : Nat}
    (ha : extractMin pq tn = some (a, pq')) (hb : extractMin pq' tn = some (b, rest)) : LeastTwo tn pq a b rest where
  perm := (extractMin_perm ha).trans ((extractMin_perm hb).cons a)
  first := extractMin_least ha
  second := fun v hv hva =>
    extractMin_least hb v (List.mem_of_ne_of_mem hva ((extractMin_perm ha).subset hv))

/-- What every merge keeps holds at the end of the loop of R110. -/
theorem mergeLoop_keeps {ft : List FtEntry} {P : List TreeNode → List Nat → Prop}
    (hmerge : ∀ tn pq a b rest, MergeInv ft tn pq → LeastTwo tn pq a b rest → P tn pq →
      P (tn ++ [mergedNode tn a b]) (rest ++ [tn.length]))
    {fuel : Nat} {tn : List TreeNode} {pq : List Nat} (hinv : MergeInv ft tn pq) (h : P tn pq) :
    P (mergeLoop fuel tn pq).1 (mergeLoop fuel tn pq).2 := by
  induction fuel generalizing tn pq with
  | zero => exact h
  | succ fuel ih =>
    unfold mergeLoop
    split
    · exact h
    · next a pq' ha =>
      split
      · exact h
      · next b rest hb =>
        have htwo := leastTwo_of_extractMin ha hb
        exact ih (mergeInv_merge hinv htwo.perm) (hmerge _ _ _ _ _ hinv htwo h)

/-- What holds of the leaves and is kept by every merge holds of the tree of BHT. -/
theorem buildTree_keeps {ft : List FtEntry} (hft : ft ≠ []) {P : List TreeNode → List Nat → Prop}
    (hmerge : ∀ tn pq a b rest, MergeInv ft tn pq → LeastTwo tn pq a b rest → P tn pq →
      P (tn ++ [mergedNode tn a b]) (rest ++ [tn.length]))
    (hstart : P (ft.map leafOf) (List.range ft.length)) : ∃ pq, P (buildTree ft).1 pq :=
  ⟨_, mergeLoop_keeps hmerge (mergeInv_start hft) hstart⟩

/-! ### The indices in the priority structure -/

section Merge

variable {ft : List FtEntry} {tn : List TreeNode} {pq : List Nat} (h : MergeInv ft tn pq)
include h

theorem MergeInv.nodup : (childIndices tn ++ pq).Nodup := h.nodes.nodup_iff.2 List.nodup_range

theorem MergeInv.lt_length {v : Nat} (hv : v ∈ pq) : v < tn.length :=
  List.mem_range.1 (h.nodes.subset (List.mem_append_right _ hv))

theorem MergeInv.leaves_le : ft.length ≤ tn.length := by
  have := congrArg List.length h.leaves
  simp only [List.length_take, List.length_map] at this
  omega

/-- The indices in the priority structure are those of the nodes that are no child yet. -/
theorem MergeInv.mem_iff_available {v : Nat} : v ∈ pq ↔ availableAt tn tn.length v = true := by
  have hmem : v ∈ childIndices tn ∨ v ∈ pq ↔ v < tn.length := by
    rw [← List.mem_append, h.nodes.mem_iff, List.mem_range]
  have hdisj : v ∈ childIndices tn → v ∉ pq := fun hc => (List.nodup_append'.1 h.nodup).2.2 hc
  simp only [availableAt, List.take_length, Bool.and_eq_true, decide_eq_true_eq, Bool.not_eq_true',
    List.contains_eq_mem, decide_eq_false_iff_not]
  tauto

end Merge

/-! ### The merge order -/

/-- What is available when a node is made does not depend on the nodes made later. -/
theorem availableAt_append {tn : List TreeNode} {j : Nat} (hj : j ≤ tn.length) (xs : List TreeNode) (v : Nat) :
    availableAt (tn ++ xs) j v = availableAt tn j v := by
  simp only [availableAt, List.take_append_of_le_length hj]

theorem availableAt_lt {tn : List TreeNode} {j v : Nat} (h : availableAt tn j v = true) : v < j := by
  simp only [availableAt, Bool.and_eq_true, decide_eq_true_eq] at h
  exact h.1

theorem mergedGreedily_leaves (ft : List FtEntry) : MergedGreedily ft (ft.map leafOf) := by
  intro j nd hn hnd
  have := (List.getElem?_eq_some_iff.1 hnd).1
  rw [List.length_map] at this
  omega

/-- A merge of the two least keys keeps the order of the earlier merges. -/
theorem mergedGreedily_merge {ft : List FtEntry} {tn : List TreeNode} {pq rest : List Nat} {a b : Nat}
    (hinv : MergeInv ft tn pq) (htwo : LeastTwo tn pq a b rest) (h : MergedGreedily ft tn) :
    MergedGreedily ft (tn ++ [mergedNode tn a b]) := by
  intro j nd hn hnd
  have hj : j ≤ tn.length := by
    have := (List.getElem?_eq_some_iff.1 hnd).1
    rw [List.length_append, List.length_singleton] at this
    omega
  -- available nodes stand before `j`, so their keys are those in `tn`
  have hkey : ∀ {v w}, availableAt tn j v = true → availableAt tn j w = true → keyLess tn v w →
      keyLess (tn ++ [mergedNode tn a b]) v w := fun hv hw =>
    (keyLess_append ((availableAt_lt hv).trans_le hj) ((availableAt_lt hw).trans_le hj) _).2
  simp only [availableAt_append hj]
  rcases hj.lt_or_eq with hlt | rfl
  · rw [List.getElem?_append_left hlt] at hnd
    obtain ⟨hl, hr, hfirst, hsecond⟩ := h j nd hn hnd
    exact ⟨hl, hr, fun v hv hvl => hkey hl hv (hfirst v hv hvl),
      fun v hv hvl hvr => hkey hr hv (hsecond v hv hvl hvr)⟩
  · obtain rfl : mergedNode tn a b = nd := by simpa using hnd
    have ha : availableAt tn tn.length a = true := hinv.mem_iff_available.1 (htwo.perm.mem_iff.2 (by simp))
    have hb : availableAt tn tn.length b = true := hinv.mem_iff_available.1 (htwo.perm.mem_iff.2 (by simp))
    exact ⟨ha, hb, fun v hv hva => hkey ha hv (htwo.first v (hinv.mem_iff_available.2 hv) hva),
      fun v hv hva hvb => hkey hb hv (htwo.second v (hinv.mem_iff_available.2 hv) hva hvb)⟩

theorem mergedGreedily_buildTree {ft : List FtEntry} (hft : ft ≠ []) : MergedGreedily ft (buildTree ft).1 := by
  obtain ⟨-, h⟩ := buildTree_keeps hft (P := fun tn _ => MergedGreedily ft tn)
    (fun _ _ _ _ _ hinv htwo h => mergedGreedily_merge hinv htwo h) (mergedGreedily_leaves ft)
  exact h

end Sys2Proof.Machine

namespace Sys2Proof.Proofs

open Sys2Proof.Machine

/-- Settles O16: on a well-formed table BHT reaches its merge loop, which builds the tree of R26. -/
theorem bhtBuildsTheTreeOfAWellFormedTable : Obligations.BhtBuildsTheTreeOfAWellFormedTable := by
  intro s hovf hft
  refine ⟨_, _, treeInv_buildTree hft.1, ?_⟩
  rw [exec_bht_of_wellFormed hovf hft, succeed_eq, withTree_status, putFlag_treeV_succeed]
  rfl

/-- Settles O17: each merge takes the two least keys of the priority structure, which holds the available nodes. -/
theorem bhtMergesTheTwoLeastKeys : Obligations.BhtMergesTheTwoLeastKeys := by
  intro s t hovf hft hexec
  rw [exec_bht_of_wellFormed hovf hft] at hexec
  cases hexec
  exact mergedGreedily_buildTree hft.1

end Sys2Proof.Proofs
end

section
/-! PROOFS. The least total length of a code in which no word begins another (`40_huffman_tree_builder.md` R116), by lengths
alone. Two or more such words meet Kraft's inequality, and the two least weights can be given equal lengths without loss;
merging them is a step of the loop of R110. -/

namespace Sys2Proof.Machine

/-! ### Codes and their lengths -/

/-- The Kraft sum of the lengths `len` over the indices in `S`. -/
def kraftSum (S : Finset Nat) (len : Nat → Nat) : ℚ := ∑ v ∈ S, (1 / 2) ^ len v

/-- The total of weight times length over the indices in `S`. -/
def weightedLength (w : Nat → Nat) (S : Finset Nat) (len : Nat → Nat) : Nat := ∑ v ∈ S, w v * len v

theorem flatten_eq_nil_iff_of_nonempty {α : Type} {S : Set (List α)} (hnil : [] ∉ S) {xss : List (List α)}
    (hxss : ∀ x ∈ xss, x ∈ S) : xss.flatten = [] ↔ xss = [] := by
  refine ⟨fun h => List.eq_nil_iff_forall_not_mem.2 fun x hx => hnil ?_, fun h => by rw [h]; rfl⟩
  rw [← List.flatten_eq_nil_iff.1 h x hx]
  exact hxss x hx

/-- A set of non-empty words of which none begins another is uniquely decodable. -/
theorem uniquelyDecodable_of_prefixFree {α : Type} {S : Set (List α)} (hnil : [] ∉ S)
    (hpre : ∀ x ∈ S, ∀ y ∈ S, x <+: y → x = y) : InformationTheory.UniquelyDecodable S := by
  intro xss
  induction xss with
  | nil => exact fun yss _ hyss h => ((flatten_eq_nil_iff_of_nonempty hnil hyss).1 h.symm).symm
  | cons x xss ih =>
    intro yss hxss hyss h
    cases yss with
    | nil => exact (flatten_eq_nil_iff_of_nonempty hnil hxss).1 h
    | cons y yss =>
      have hx := hxss x List.mem_cons_self
      have hy := hyss y List.mem_cons_self
      rw [List.flatten_cons, List.flatten_cons] at h
      have hxy : x = y := by
        rcases List.prefix_or_prefix_of_prefix (List.prefix_append x xss.flatten) (h ▸ List.prefix_append y yss.flatten)
          with hp | hp
        · exact hpre x hx y hy hp
        · exact (hpre y hy x hx hp).symm
      subst hxy
      rw [ih yss (fun z hz => hxss z (List.mem_cons_of_mem _ hz)) (fun z hz => hyss z (List.mem_cons_of_mem _ hz))
        (List.append_cancel_left h)]

/-- Kraft's inequality for two or more words of which none begins another. -/
theorem kraftSum_words_le_one {S : Finset Nat} {word : Nat → BitString} (htwo : 1 < S.card)
    (hpre : ∀ i ∈ S, ∀ j ∈ S, word i <+: word j → i = j) : kraftSum S (fun i => (word i).length) ≤ 1 := by
  have hnil : [] ∉ (S.image word : Set BitString) := fun hnil => by
    obtain ⟨i, hi, hword⟩ := Finset.mem_image.1 hnil
    obtain ⟨j, hj, hne⟩ := Finset.exists_mem_ne htwo i
    exact hne (hpre i hi j hj (hword.symm ▸ List.nil_prefix)).symm
  have hdec : InformationTheory.UniquelyDecodable (S.image word : Set BitString) := by
    refine uniquelyDecodable_of_prefixFree hnil fun x hx y hy hxy => ?_
    obtain ⟨i, hi, rfl⟩ := Finset.mem_image.1 hx
    obtain ⟨j, hj, rfl⟩ := Finset.mem_image.1 hy
    exact congrArg word (hpre i hi j hj hxy)
  have hinj : Set.InjOn word S := fun i hi j hj hij => hpre i hi j hj (hij ▸ List.prefix_rfl)
  have hkraft := InformationTheory.kraft_mcmillan_inequality hdec
  rw [Finset.sum_image hinj, Fintype.card_bool] at hkraft
  have hcast : ((kraftSum S fun i => (word i).length : ℚ) : ℝ) ≤ 1 := by
    rw [kraftSum]
    push_cast
    exact hkraft
  exact_mod_cast hcast

/-- Kraft's inequality for a list of two or more bit strings of which none begins another. -/
theorem kraftSum_le_one_of_prefixFree {cs : List BitString} (htwo : 2 ≤ cs.length)
    (hpre : ∀ (i j : Nat) (a b : BitString), cs[i]? = some a → cs[j]? = some b → i ≠ j → ¬ a <+: b) :
    kraftSum (Finset.range cs.length) (fun i => (cs.getD i []).length) ≤ 1 := by
  have hget : ∀ i ∈ Finset.range cs.length, cs[i]? = some (cs.getD i []) := fun i hi => by
    have hi := Finset.mem_range.1 hi
    rw [List.getD_eq_getElem _ _ hi, List.getElem?_eq_getElem hi]
  exact kraftSum_words_le_one (by rwa [Finset.card_range]) fun i hi j hj hp =>
    by_contra fun hne => hpre i j _ _ (hget i hi) (hget j hj) hne hp

/-! ### Exchanging two lengths -/

theorem kraftSum_comp_swap {S : Finset Nat} {a x : Nat} (ha : a ∈ S) (hx : x ∈ S) (len : Nat → Nat) :
    kraftSum S (len ∘ Equiv.swap a x) = kraftSum S len :=
  (Equiv.swap a x).sum_comp S (fun v => (1 / 2) ^ len v) fun v hv => by
    by_contra hvS
    exact hv (Equiv.swap_apply_of_ne_of_ne (fun h => hvS (h ▸ ha)) fun h => hvS (h ▸ hx))

/-- Giving the longer of two lengths to the index of the smaller weight costs nothing. -/
theorem weightedLength_comp_swap_le {S : Finset Nat} {a x : Nat} {w len : Nat → Nat} (ha : a ∈ S) (hx : x ∈ S)
    (hw : w a ≤ w x) (hlen : len a ≤ len x) :
    weightedLength w S (len ∘ Equiv.swap a x) ≤ weightedLength w S len := by
  by_cases hax : a = x
  · rw [hax, Equiv.swap_self]
    exact le_rfl
  have hx' : x ∈ S.erase a := Finset.mem_erase.2 ⟨Ne.symm hax, hx⟩
  have hrest : ∀ v ∈ (S.erase a).erase x, w v * (len ∘ Equiv.swap a x) v = w v * len v := fun v hv => by
    obtain ⟨hvx, hva, -⟩ := by simpa only [Finset.mem_erase] using hv
    rw [Function.comp_apply, Equiv.swap_apply_of_ne_of_ne hva hvx]
  have hpair := mul_add_mul_le_mul_add_mul hw hlen
  unfold weightedLength
  rw [← Finset.add_sum_erase S _ ha, ← Finset.add_sum_erase S (fun v => w v * len v) ha,
    ← Finset.add_sum_erase (S.erase a) _ hx', ← Finset.add_sum_erase (S.erase a) (fun v => w v * len v) hx',
    Finset.sum_congr rfl hrest]
  simp only [Function.comp_apply, Equiv.swap_apply_left, Equiv.swap_apply_right]
  omega

/-! ### Shortening the longest word -/

/-- Where one length exceeds all others, the Kraft sum leaves room to shorten it to the longest of them. -/
theorem kraftSum_update_le_one {S : Finset Nat} {x y : Nat} {len : Nat → Nat} (hx : x ∈ S) (hy : y ∈ S) (hne : y ≠ x)
    (hmax : ∀ v ∈ S, v ≠ x → len v ≤ len y) (hk : kraftSum S len ≤ 1) :
    kraftSum S (Function.update len x (len y)) ≤ 1 ∧ 1 ≤ len y := by
  -- the sum over the others, counted in units of the least summand
  have hunits : ((∑ v ∈ S.erase x, 2 ^ (len y - len v) : Nat) : ℚ) = 2 ^ len y * ∑ v ∈ S.erase x, (1 / 2) ^ len v := by
    rw [Finset.mul_sum, Nat.cast_sum]
    refine Finset.sum_congr rfl fun v hv => ?_
    obtain ⟨hvx, hvS⟩ := Finset.mem_erase.1 hv
    rw [Nat.cast_pow, Nat.cast_ofNat, one_div_pow, mul_one_div, pow_sub₀ _ two_ne_zero (hmax v hvS hvx), div_eq_mul_inv]
  have hone : 1 ≤ ∑ v ∈ S.erase x, 2 ^ (len y - len v) := by
    have := Finset.single_le_sum (f := fun v => 2 ^ (len y - len v)) (fun _ _ => Nat.zero_le _)
      (Finset.mem_erase.2 ⟨hne, hy⟩)
    simpa using this
  have hpos : (0 : ℚ) < 2 ^ len y := by positivity
  unfold kraftSum at hk ⊢
  rw [← Finset.add_sum_erase S _ hx] at hk ⊢
  have hlt : ∑ v ∈ S.erase x, 2 ^ (len y - len v) < 2 ^ len y := by
    have hfree : ∑ v ∈ S.erase x, (1 / 2 : ℚ) ^ len v < 1 := by
      have : (0 : ℚ) < (1 / 2) ^ len x := by positivity
      linarith
    have := mul_lt_mul_of_pos_left hfree hpos
    rw [← hunits, mul_one] at this
    exact_mod_cast this
  constructor
  · have hrest : ∀ v ∈ S.erase x, (1 / 2 : ℚ) ^ Function.update len x (len y) v = (1 / 2) ^ len v := fun v hv => by
      rw [Function.update_of_ne (Finset.mem_erase.1 hv).1]
    have hle : ((∑ v ∈ S.erase x, 2 ^ (len y - len v) : Nat) : ℚ) + 1 ≤ 2 ^ len y := by exact_mod_cast hlt
    rw [hunits] at hle
    rw [Finset.sum_congr rfl hrest, Function.update_self, ← mul_le_mul_iff_right₀ hpos, mul_add, one_div_pow,
      mul_one_div_cancel hpos.ne']
    linarith
  · by_contra hzero
    rw [Nat.lt_one_iff.1 (not_le.1 hzero), pow_zero] at hlt
    rw [Nat.lt_one_iff.1 (not_le.1 hzero)] at hone
    exact hone.not_gt hlt

theorem weightedLength_update_le {S : Finset Nat} {x k : Nat} {w len : Nat → Nat} (hk : k ≤ len x) :
    weightedLength w S (Function.update len x k) ≤ weightedLength w S len := by
  refine Finset.sum_le_sum fun v _ => Nat.mul_le_mul_left _ ?_
  by_cases hv : v = x
  · rw [hv, Function.update_self]
    exact hk
  · rw [Function.update_of_ne hv]

/-! ### The two least weights -/

/-- The least weight of `A` can be given the longest word of `A`, without loss. -/
theorem exists_longest_at {S A : Finset Nat} {w : Nat → Nat} {a : Nat} (hA : A ⊆ S) (ha : a ∈ A)
    (hwa : ∀ v ∈ A, w a ≤ w v) (len : Nat → Nat) :
    ∃ len' : Nat → Nat, kraftSum S len' = kraftSum S len ∧ weightedLength w S len' ≤ weightedLength w S len ∧
      (∀ v ∈ A, len' v ≤ len' a) ∧ (∃ x ∈ A, len' a = len x) ∧ ∀ v ∉ A, len' v = len v := by
  obtain ⟨x, hx, hmax⟩ := A.exists_max_image len ⟨a, ha⟩
  have hat : (len ∘ Equiv.swap a x) a = len x := by rw [Function.comp_apply, Equiv.swap_apply_left]
  refine ⟨len ∘ Equiv.swap a x, kraftSum_comp_swap (hA ha) (hA hx) len,
    weightedLength_comp_swap_le (hA ha) (hA hx) (hwa x hx) (hmax a ha), fun v hv => ?_, ⟨x, hx, hat⟩, fun v hv => ?_⟩
  · rw [hat, Function.comp_apply]
    refine hmax _ ?_
    rw [Equiv.swap_apply_def]
    split_ifs <;> assumption
  · rw [Function.comp_apply,
      Equiv.swap_apply_of_ne_of_ne (fun h : v = a => hv (h ▸ ha)) (fun h : v = x => hv (h ▸ hx))]

/-- The two least weights can be given the same length, without passing 1 in the Kraft sum and without loss. -/
theorem exists_equal_lengths {S : Finset Nat} {w len : Nat → Nat} {a b : Nat} (ha : a ∈ S) (hb : b ∈ S) (hab : b ≠ a)
    (hwa : ∀ v ∈ S, w a ≤ w v) (hwb : ∀ v ∈ S, v ≠ a → w b ≤ w v) (hk : kraftSum S len ≤ 1) :
    ∃ (len' : Nat → Nat) (k : Nat), len' a = k + 1 ∧ len' b = k + 1 ∧ kraftSum S len' ≤ 1 ∧
      weightedLength w S len' ≤ weightedLength w S len := by
  -- `a` takes the longest word, `b` the longest of the others, and the word of `a` is shortened to the length of `b`'s
  obtain ⟨len1, hk1, hw1, hmax1, -, -⟩ := exists_longest_at Finset.Subset.rfl ha hwa len
  obtain ⟨len2, hk2, hw2, hmax2, ⟨y, hy, hb2⟩, hkeep⟩ := exists_longest_at (w := w) (Finset.erase_subset a S)
    (Finset.mem_erase.2 ⟨hab, hb⟩) (fun v hv => hwb v (Finset.mem_of_mem_erase hv) (Finset.ne_of_mem_erase hv)) len1
  have hba : len2 b ≤ len2 a := by
    rw [hb2, hkeep a (Finset.notMem_erase a S)]
    exact hmax1 y (Finset.mem_of_mem_erase hy)
  obtain ⟨hk3, hpos⟩ := kraftSum_update_le_one ha hb hab (fun v hv hva => hmax2 v (Finset.mem_erase.2 ⟨hva, hv⟩))
    ((hk2.trans hk1).trans_le hk)
  refine ⟨Function.update len2 a (len2 b), len2 b - 1, ?_, ?_, hk3, ?_⟩
  · rw [Function.update_self]
    omega
  · rw [Function.update_of_ne hab]
    omega
  · exact ((weightedLength_update_le hba).trans hw2).trans hw1

/-- The two least weights merged into one at `c`: it and the others have lengths of Kraft sum at most 1 that cost less by
the merged weight. -/
theorem exists_merged_lengths {R : Finset Nat} {w w' len : Nat → Nat} {a b c : Nat} (ha : a ∉ insert b R) (hb : b ∉ R)
    (hc : c ∉ R) (hwa : ∀ v ∈ insert a (insert b R), w a ≤ w v) (hwb : ∀ v ∈ insert a (insert b R), v ≠ a → w b ≤ w v)
    (hw' : ∀ v ∈ R, w' v = w v) (hwc : w' c = w a + w b) (hk : kraftSum (insert a (insert b R)) len ≤ 1) :
    ∃ len' : Nat → Nat, kraftSum (insert c R) len' ≤ 1 ∧
      w' c + weightedLength w' (insert c R) len' ≤ weightedLength w (insert a (insert b R)) len := by
  obtain ⟨len1, k, hla, hlb, hk1, hle⟩ :=
    exists_equal_lengths (S := insert a (insert b R)) (w := w) (a := a) (b := b) (by simp) (by simp)
      (fun h => ha (by simp [h])) hwa hwb hk
  have hold : ∀ v ∈ R, Function.update len1 c k v = len1 v := fun v hv =>
    Function.update_of_ne (fun h : v = c => hc (h ▸ hv)) _ _
  refine ⟨Function.update len1 c k, ?_, le_trans (le_of_eq ?_) hle⟩
  · unfold kraftSum at hk1 ⊢
    rw [Finset.sum_insert ha, Finset.sum_insert hb, hla, hlb] at hk1
    rw [Finset.sum_insert hc, Function.update_self, Finset.sum_congr rfl fun v hv => by rw [hold v hv]]
    rw [pow_succ] at hk1
    linarith
  · unfold weightedLength
    rw [Finset.sum_insert ha, Finset.sum_insert hb, hla, hlb, Finset.sum_insert hc, Function.update_self, hwc,
      Finset.sum_congr rfl fun v hv => by rw [hold v hv, hw' v hv]]
    ring

end Sys2Proof.Machine
end

section
/-! PROOFS. The codes of BHT and HCT have the least total length (`40_huffman_tree_builder.md` R116): the total length of
the paths of a tree is the sum of the frequencies of its internal nodes, and each merge of R110 adds to that sum no more
than a merge takes off the total length of any code to compare with. -/

namespace Sys2Proof.Machine

/-! ### The depths of a tree -/

/-- The sum of the frequencies of the internal nodes, which follow the `n` leaves. -/
def innerFreq (n : Nat) (tn : List TreeNode) : Nat := ∑ j ∈ Finset.Ico n tn.length, freqAt tn j

/-- `d` is one more at the children of an internal node from `k` on than at the node. -/
def ChildDepths (tn : List TreeNode) (d : Nat → Nat) (k : Nat) : Prop :=
  ∀ (j : Nat) (nd : TreeNode), k ≤ j → tn[j]? = some nd → nd.kind = .internal →
    d nd.left = d j + 1 ∧ d nd.right = d j + 1

/-- Each bit of a path goes one deeper. -/
theorem ChildDepths.depth_of_follow {tn : List TreeNode} {d : Nat → Nat} (hd : ChildDepths tn d 0) {v w : Nat} {p : BitString}
    (hp : follow tn v p = some w) : d w = d v + p.length := by
  induction p generalizing v with
  | nil =>
    obtain rfl : v = w := by simpa using hp
    rfl
  | cons b p ih =>
    obtain ⟨nd, hv, hk, hp'⟩ := follow_cons.1 hp
    obtain ⟨hl, hr⟩ := hd v nd (Nat.zero_le v) hv hk
    have := ih hp'
    rw [List.length_cons]
    split at this <;> omega

/-- `d` with depth `m` at the children of a node. -/
def setChildDepths (d : Nat → Nat) (nd : TreeNode) (m : Nat) : Nat → Nat :=
  Function.update (Function.update d nd.left m) nd.right m

theorem setChildDepths_of_ne {d : Nat → Nat} {nd : TreeNode} {m v : Nat} (hl : v ≠ nd.left) (hr : v ≠ nd.right) :
    setChildDepths d nd m v = d v := by
  rw [setChildDepths, Function.update_of_ne hr, Function.update_of_ne hl]

theorem setChildDepths_right (d : Nat → Nat) (nd : TreeNode) (m : Nat) : setChildDepths d nd m nd.right = m :=
  Function.update_self _ _ _

theorem setChildDepths_left (d : Nat → Nat) (nd : TreeNode) (m : Nat) : setChildDepths d nd m nd.left = m := by
  by_cases hlr : nd.left = nd.right
  · rw [hlr, setChildDepths_right]
  · rw [setChildDepths, Function.update_of_ne hlr, Function.update_self]

theorem mem_childIndices_of_child {tn : List TreeNode} {nd : TreeNode} {v : Nat} (hnd : nd ∈ tn)
    (hk : nd.kind = .internal) (hv : v = nd.left ∨ v = nd.right) : v ∈ childIndices tn :=
  List.mem_flatMap.2 ⟨nd, hnd, by simpa [hk] using hv⟩

theorem childIndices_singleton {nd : TreeNode} (hk : nd.kind = .internal) : childIndices [nd] = [nd.left, nd.right] := by
  simp [childIndices, hk]

section Tree

variable {ft : List FtEntry} {tn : List TreeNode} {root : Nat} (h : TreeInv ft tn root)
include h

/-- The children of a tree are all its nodes but the root, once each. -/
theorem TreeInv.childIndices_perm : (childIndices tn).Perm (List.range root) := by
  have hroot := h.root_eq
  refine List.perm_iff_count.2 fun v => ?_
  by_cases hv : v < root
  · rw [h.child v (by omega), List.count_eq_one_of_mem List.nodup_range (List.mem_range.2 hv)]
  · have hnot : v ∉ childIndices tn := fun hmem => by
      obtain ⟨nd, hnd, hk, hside⟩ := mem_childIndices hmem
      obtain ⟨j, hj⟩ := List.mem_iff_getElem?.1 hnd
      have hlt := (List.getElem?_eq_some_iff.1 hj).1
      obtain ⟨-, hl, hr⟩ := h.children_lt hj hk
      omega
    rw [List.count_eq_zero.2 hnot, List.count_eq_zero.2 (mt List.mem_range.1 hv)]

/-- Two internal nodes have no child in common. -/
theorem TreeInv.children_disjoint {j k : Nat} {x y : TreeNode} (hkj : k < j) (hj : tn[j]? = some x)
    (hk : tn[k]? = some y) (hx : x.kind = .internal) (hy : y.kind = .internal) {v w : Nat}
    (hv : v = x.left ∨ v = x.right) (hw : w = y.left ∨ w = y.right) : v ≠ w := by
  have hnodup : (childIndices (tn.take j) ++ childIndices (tn.drop j)).Nodup := by
    rw [← childIndices_append, List.take_append_drop]
    exact h.childIndices_perm.nodup_iff.2 List.nodup_range
  have hyt : y ∈ tn.take j := List.mem_of_getElem? ((List.getElem?_take_of_lt hkj).trans hk)
  have hxd : x ∈ tn.drop j := List.mem_of_getElem? (i := 0) (by rwa [List.getElem?_drop])
  rintro rfl
  exact (List.nodup_append'.1 hnodup).2.2 (mem_childIndices_of_child hyt hy hw) (mem_childIndices_of_child hxd hx hv)

/-- The depths one node further down: the children of node `k` have no other parent, and stand before it. -/
theorem TreeInv.setChildDepths_childDepths {d : Nat → Nat} {k : Nat} {nd : TreeNode} (hk : tn[k]? = some nd)
    (hkind : nd.kind = .internal) (hd : ChildDepths tn d (k + 1)) : ChildDepths tn (setChildDepths d nd (d k + 1)) k := by
  obtain ⟨-, hl, hr⟩ := h.children_lt hk hkind
  intro j x hj hx hxkind
  rw [setChildDepths_of_ne (v := j) (by omega) (by omega)]
  rcases hj.lt_or_eq with hlt | rfl
  · have hne : ∀ {v w}, (v = x.left ∨ v = x.right) → (w = nd.left ∨ w = nd.right) → v ≠ w :=
      h.children_disjoint hlt hx hk hxkind hkind
    rw [setChildDepths_of_ne (hne (.inl rfl) (.inl rfl)) (hne (.inl rfl) (.inr rfl)),
      setChildDepths_of_ne (hne (.inr rfl) (.inl rfl)) (hne (.inr rfl) (.inr rfl))]
    exact hd j x hlt hx hxkind
  · obtain rfl : nd = x := Option.some.inj (hk.symm.trans hx)
    exact ⟨setChildDepths_left _ _ _, setChildDepths_right _ _ _⟩

theorem TreeInv.exists_depths_from {k : Nat} (hk : k ≤ tn.length) : ∃ d : Nat → Nat, d root = 0 ∧ ChildDepths tn d k := by
  have hroot := h.root_eq
  induction hk using Nat.decreasingInduction with
  | self =>
    refine ⟨fun _ => 0, rfl, fun j nd hj hnd => ?_⟩
    exact absurd (List.getElem?_eq_some_iff.1 hnd).1 (by omega)
  | of_succ k hk ih =>
    obtain ⟨d, hzero, hd⟩ := ih
    have hnd : tn[k]? = some tn[k] := List.getElem?_eq_getElem hk
    by_cases hkind : tn[k].kind = .internal
    · obtain ⟨-, hl, hr⟩ := h.children_lt hnd hkind
      refine ⟨setChildDepths d tn[k] (d k + 1), ?_, h.setChildDepths_childDepths hnd hkind hd⟩
      rw [setChildDepths_of_ne (by omega) (by omega), hzero]
    · refine ⟨d, hzero, fun j x hj hx hxkind => ?_⟩
      rcases hj.lt_or_eq with hlt | rfl
      · exact hd j x hlt hx hxkind
      · obtain rfl : tn[k] = x := Option.some.inj (hnd.symm.trans hx)
        exact absurd hxkind hkind

/-- Every node of a tree has a depth, and the root has depth 0. -/
theorem TreeInv.exists_depths : ∃ d : Nat → Nat, d root = 0 ∧ ChildDepths tn d 0 :=
  h.exists_depths_from (Nat.zero_le _)

/-! ### The total length of the paths -/

/-- Frequency times depth, summed over the children of the nodes before `j`: each internal node counts once more than at
its own depth. -/
theorem TreeInv.sum_children {d : Nat → Nat} (hd : ChildDepths tn d 0) {j : Nat} (hn : ft.length ≤ j)
    (hj : j ≤ tn.length) :
    ((childIndices (tn.take j)).map fun v => freqAt tn v * d v).sum =
      ∑ i ∈ Finset.Ico ft.length j, (freqAt tn i * d i + freqAt tn i) := by
  induction j, hn using Nat.le_induction with
  | base =>
    have hleaves : tn.take ft.length = ft.map leafOf := h.leaves
    rw [hleaves, childIndices_leaves, Finset.Ico_self, Finset.sum_empty]
    rfl
  | succ j hn ih =>
    obtain ⟨nd, hnd, hk, -, -, -, -, hfreq⟩ := h.getElem?_inner hj hn
    obtain ⟨hl, hr⟩ := hd j nd (Nat.zero_le j) hnd hk
    have hj' : freqAt tn j = freqAt tn nd.left + freqAt tn nd.right := by rw [← hfreq]; simp [freqAt, hnd]
    rw [List.take_add_one, hnd, Option.toList_some, childIndices_append, childIndices_singleton hk, List.map_append,
      List.sum_append, ih (by omega), Finset.sum_Ico_succ_top hn]
    simp only [List.map_cons, List.map_nil, List.sum_cons, List.sum_nil, hl, hr, hj']
    ring

/-- The total length of the paths to the leaves, weighted by the counts, is the sum of the internal frequencies. -/
theorem TreeInv.weightedLength_depths {d : Nat → Nat} (hroot : d root = 0) (hd : ChildDepths tn d 0) (hft : ft ≠ []) :
    weightedLength (freqAt tn) (Finset.range ft.length) d = innerFreq ft.length tn := by
  have hpos : 0 < ft.length := List.length_pos_iff.2 hft
  have hlen : root + 1 = tn.length := h.root_eq
  have hn : ft.length ≤ root + 1 := by have := h.size; omega
  have hall : ∑ v ∈ Finset.range (root + 1), freqAt tn v * d v =
      ∑ i ∈ Finset.Ico ft.length (root + 1), (freqAt tn i * d i + freqAt tn i) := by
    rw [← h.sum_children hd hn hlen.le, List.take_of_length_le hlen.ge,
      (h.childIndices_perm.map _).sum_eq, ← List.sum_toFinset _ List.nodup_range, List.toFinset_range,
      Finset.sum_range_succ, hroot, Nat.mul_zero, Nat.add_zero]
  rw [← Finset.sum_range_add_sum_Ico _ hn, Finset.sum_add_distrib] at hall
  unfold weightedLength innerFreq
  rw [← hlen]
  omega

end Tree

/-! ### The merges against any code -/

/-- The internal frequencies so far and the least cost of a code for the nodes that wait make no more than `total`. -/
def CostWithin (n total : Nat) (tn : List TreeNode) (pq : List Nat) : Prop :=
  ∃ len : Nat → Nat, kraftSum pq.toFinset len ≤ 1 ∧ innerFreq n tn + weightedLength (freqAt tn) pq.toFinset len ≤ total

theorem innerFreq_append {n : Nat} {tn : List TreeNode} (hn : n ≤ tn.length) (nd : TreeNode) :
    innerFreq n (tn ++ [nd]) = innerFreq n tn + freqAt (tn ++ [nd]) tn.length := by
  unfold innerFreq
  rw [List.length_append, List.length_singleton, Finset.sum_Ico_succ_top hn,
    Finset.sum_congr rfl fun j hj => freqAt_append (Finset.mem_Ico.1 hj).2 [nd]]

/-- A merge of the two least keys adds its frequency to the sum and takes it off the code. -/
theorem costWithin_merge {ft : List FtEntry} {total : Nat} {tn : List TreeNode} {pq rest : List Nat} {a b : Nat}
    (hinv : MergeInv ft tn pq) (htwo : LeastTwo tn pq a b rest) (h : CostWithin ft.length total tn pq) :
    CostWithin ft.length total (tn ++ [mergedNode tn a b]) (rest ++ [tn.length]) := by
  obtain ⟨len, hk, hle⟩ := h
  have hset : pq.toFinset = insert a (insert b rest.toFinset) := by
    rw [List.toFinset_eq_of_perm _ _ htwo.perm, List.toFinset_cons, List.toFinset_cons]
  have hset' : (rest ++ [tn.length]).toFinset = insert tn.length rest.toFinset := by
    ext v
    simp
  obtain ⟨ha, hb⟩ : a ∉ insert b rest.toFinset ∧ b ∉ rest.toFinset := by
    obtain ⟨ha, hnodup⟩ := List.nodup_cons.1 (htwo.perm.nodup_iff.1 hinv.nodup.of_append_right)
    exact ⟨by simpa using ha, by simpa using (List.nodup_cons.1 hnodup).1⟩
  have hrest : ∀ v ∈ rest.toFinset, v < tn.length := fun v hv =>
    hinv.lt_length (htwo.perm.mem_iff.2 (by simp [List.mem_toFinset.1 hv]))
  have hleast : ∀ v ∈ pq.toFinset, freqAt tn a ≤ freqAt tn v := fun v hv => by
    by_cases hva : v = a
    · rw [hva]
    · exact (htwo.first v (List.mem_toFinset.1 hv) hva).freqAt_le
  have hsecond : ∀ v ∈ pq.toFinset, v ≠ a → freqAt tn b ≤ freqAt tn v := fun v hv hva => by
    by_cases hvb : v = b
    · rw [hvb]
    · exact (htwo.second v (List.mem_toFinset.1 hv) hva hvb).freqAt_le
  rw [hset] at hk hle hleast hsecond
  obtain ⟨len', hk', hle'⟩ := exists_merged_lengths (c := tn.length) (w' := freqAt (tn ++ [mergedNode tn a b])) ha hb
    (fun hc => (hrest _ hc).false) hleast hsecond (fun v hv => freqAt_append (hrest v hv) _)
    (by simp [freqAt, mergedNode]) hk
  refine ⟨len', hset' ▸ hk', ?_⟩
  rw [hset', innerFreq_append hinv.leaves_le]
  omega

theorem costWithin_leaves {ft : List FtEntry} {len : Nat → Nat} (hk : kraftSum (Finset.range ft.length) len ≤ 1) :
    CostWithin ft.length (weightedLength (freqAt (ft.map leafOf)) (Finset.range ft.length) len) (ft.map leafOf)
      (List.range ft.length) := by
  refine ⟨len, by rwa [List.toFinset_range], ?_⟩
  rw [List.toFinset_range, innerFreq, List.length_map, Finset.Ico_self, Finset.sum_empty, Nat.zero_add]

/-- The internal frequencies of the tree of BHT sum to no more than any lengths of Kraft sum at most 1 cost. -/
theorem innerFreq_buildTree_le {ft : List FtEntry} (hft : ft ≠ []) {len : Nat → Nat}
    (hk : kraftSum (Finset.range ft.length) len ≤ 1) :
    innerFreq ft.length (buildTree ft).1 ≤
      weightedLength (freqAt (ft.map leafOf)) (Finset.range ft.length) len := by
  obtain ⟨pq, len', -, hle⟩ := buildTree_keeps hft
    (fun _ _ _ _ _ hinv htwo h => costWithin_merge hinv htwo h) (costWithin_leaves hk)
  omega

/-! ### The total length of a code table -/

/-- The sum of count times length over the entries of a table, as a sum over their indices. -/
theorem sum_zipWith_count {β : Type} {ft : List FtEntry} {bs : List β} {g : β → Nat} {w len : Nat → Nat}
    (hlen : bs.length = ft.length) (hw : ∀ (i : Nat) (hi : i < ft.length), w i = ft[i].count)
    (hg : ∀ (i : Nat) (hi : i < bs.length), len i = g bs[i]) :
    (List.zipWith (fun e b => e.count * g b) ft bs).sum = weightedLength w (Finset.range ft.length) len := by
  have hlist : List.zipWith (fun e b => e.count * g b) ft bs = (List.range ft.length).map fun i => w i * len i := by
    refine List.ext_getElem (by simp [hlen]) fun i hi hi' => ?_
    have hi : i < ft.length := by simpa using hi'
    rw [List.getElem_zipWith, List.getElem_map, List.getElem_range, hw i hi, hg i (hlen ▸ hi)]
  rw [hlist, ← List.sum_toFinset _ List.nodup_range, List.toFinset_range, weightedLength]

/-- A valid code table of two or more entries has the total length of the paths of its tree. -/
theorem CodeInv.totalLength {ft : List FtEntry} {tn : List TreeNode} {root : Nat} {ct : List CodeEntry}
    (htree : TreeInv ft tn root) (h : CodeInv ft tn root ct) (htwo : 2 ≤ ft.length) :
    (List.zipWith (fun e c => e.count * c.len) ft ct).sum = innerFreq ft.length tn := by
  obtain ⟨d, hroot, hd⟩ := htree.exists_depths
  have hft : ft ≠ [] := List.length_pos_iff.1 (by omega)
  rw [← htree.weightedLength_depths hroot hd hft]
  refine sum_zipWith_count h.size (fun i hi => ?_) fun i hi => ?_
  · simp [freqAt, htree.getElem?_leaf hi, hi, leafOf]
  · obtain ⟨f, c, -, hc, -, hlen, hcode⟩ := codeEntryOk_iff.1 (h.entries i (h.size ▸ hi))
    obtain rfl : ct[i] = c := Option.some.inj ((List.getElem?_eq_getElem hi).symm.trans hc)
    rw [if_neg (by omega)] at hcode
    rw [hd.depth_of_follow hcode, hroot, hlen, Nat.zero_add]

/-! ### The commands -/

theorem exec_bht_success {s t : State} (hexec : exec .bht s = .next t) (herr : t.err = ErrCode.success.code) :
    FtWellFormed s.ft ∧ t = succeed (withTree s (buildTree s.ft).1 (buildTree s.ft).2) := by
  rcases conclude_next hexec with ⟨u, hu, rfl⟩ | ⟨f, hf, rfl⟩
  · obtain ⟨-, hft, rfl⟩ := bhtBody_ok.1 hu
    exact ⟨hft, rfl⟩
  · rw [takeFault_err, ErrCode.code_eq_success_iff] at herr
    have hmay := (commandBody_raises .bht s f hf).err
    exact absurd (herr ▸ hmay) (success_not_mem_mayRaise .bht)

theorem exec_hct_codeTable {s u : State} (hv : s.flag .treeV = true) (hexec : exec .hct s = .next u) :
    codeTable s.tn s.root = some u.ct := by
  cases hct : codeTable s.tn s.root with
  | none =>
    have hbody : hctBody s = stuck .treeNotValid := by simp [hctBody, hv, hct]
    have hfault : exec .hct s = .fault .treeNotValid := congrArg (conclude .hct s) hbody
    rw [hfault] at hexec
    cases hexec
  | some ct =>
    have hnext : exec .hct s = .next (succeed { s with ct := ct, status := putFlag s.status .ctV true }) :=
      congrArg (conclude .hct s) (hctBody_ok.2 ⟨hv, ct, hct, rfl⟩)
    rw [hnext] at hexec
    cases hexec
    rfl

end Sys2Proof.Machine

namespace Sys2Proof.Proofs

open Sys2Proof.Machine

/-- Settles O23: the codes cost the internal frequencies of the tree, which the merges keep within the cost of any code
that meets Kraft's inequality. -/
theorem huffmanCodesAreOptimal : Obligations.HuffmanCodesAreOptimal := by
  intro s t u cs hbht herr hhct htwo hlen hpre
  obtain ⟨hft, rfl⟩ := exec_bht_success hbht herr
  have htree := treeInv_buildTree hft.1
  have hcodes : CodeInv s.ft _ _ u.ct :=
    codeInv_codeTable htree (exec_hct_codeTable (by simp [State.flag]) hhct)
  rw [hcodes.totalLength htree htwo, sum_zipWith_count (w := freqAt (s.ft.map leafOf))
    (len := fun i => (cs.getD i []).length) hlen (fun i hi => by simp [freqAt, leafOf, hi])
    fun i hi => by rw [List.getD_eq_getElem _ _ hi]]
  exact innerFreq_buildTree_le hft.1 (hlen ▸ kraftSum_le_one_of_prefixFree (by omega) hpre)

end Sys2Proof.Proofs
end

section
/-! PROOFS. HEN (`41_huffman_code_table_encoder.md` R135 to R138): over symbols whose codes are found and fit, the loop
appends their codes; what it does with the symbol after them is its result. -/

namespace Sys2Proof.Machine

/-! ### The loop -/

/-- A symbol whose code is found and fits. -/
theorem huffmanEncode_cons {ct : List CodeEntry} {maxBits i : Nat} {x : Symbol} {xs : List Symbol} {out : BitString}
    {e : CodeEntry} (he : lookupCode ct x = some e) (hfit : out.length + e.len ≤ maxBits) :
    huffmanEncode ct maxBits i (x :: xs) out = huffmanEncode ct maxBits (i + 1) xs (out ++ e.bits) := by
  rw [huffmanEncode, he]
  exact if_neg (Nat.not_lt.2 hfit)

theorem huffmanEncode_unknown {ct : List CodeEntry} {x : Symbol} (hx : lookupCode ct x = none) (maxBits i : Nat)
    (xs : List Symbol) (out : BitString) :
    huffmanEncode ct maxBits i (x :: xs) out = raise .unknownSymbol i x := by
  rw [huffmanEncode, hx]

theorem huffmanEncode_full {ct : List CodeEntry} {maxBits : Nat} {x : Symbol} {out : BitString} {e : CodeEntry}
    (he : lookupCode ct x = some e) (hfull : maxBits < out.length + e.len) (i : Nat) (xs : List Symbol) :
    huffmanEncode ct maxBits i (x :: xs) out = raise .capacityExceeded i 0 := by
  rw [huffmanEncode, he]
  exact if_pos hfull

/-- The codes `cs` of the symbols `xs` are appended one by one, and the loop goes on behind them. -/
theorem huffmanEncode_append {ct cs : List CodeEntry} {maxBits i : Nat} {xs : List Symbol} {out : BitString}
    (hct : ∀ c ∈ ct, c.len = c.bits.length) (hcs : xs.map (lookupCode ct) = cs.map some)
    (hfit : out.length + (cs.map CodeEntry.len).sum ≤ maxBits) (ys : List Symbol) :
    huffmanEncode ct maxBits i (xs ++ ys) out =
      huffmanEncode ct maxBits (i + xs.length) ys (out ++ cs.flatMap CodeEntry.bits) := by
  induction xs generalizing cs i out with
  | nil =>
    obtain rfl : cs = [] := by simpa using hcs
    simp
  | cons x xs ih =>
    cases cs with
    | nil => cases hcs
    | cons c cs =>
      obtain ⟨hc, hcs⟩ := List.cons.inj hcs
      have hlen : c.len = c.bits.length := hct c (lookupCode_mem hc)
      rw [List.map_cons, List.sum_cons] at hfit
      rw [List.cons_append, huffmanEncode_cons hc (by omega),
        ih hcs (by rw [List.length_append, ← hlen]; omega), List.flatMap_cons, List.append_assoc, List.length_cons,
        Nat.add_assoc, Nat.add_comm 1]

/-- The entries found have as many bits as their len fields sum to. -/
theorem length_flatMap_bits {ct cs : List CodeEntry} {xs : List Symbol} (hct : ∀ c ∈ ct, c.len = c.bits.length)
    (hcs : xs.map (lookupCode ct) = cs.map some) :
    (cs.flatMap CodeEntry.bits).length = (cs.map CodeEntry.len).sum := by
  have hlen : ∀ c ∈ cs, c.bits.length = c.len := fun c hc => by
    obtain ⟨x, -, hx⟩ := List.mem_map.1 (hcs ▸ List.mem_map_of_mem hc : some c ∈ xs.map (lookupCode ct))
    exact (hct c (lookupCode_mem hx)).symm
  rw [List.length_flatMap, List.map_congr_left hlen]

/-! ### The command -/

/-- A fault of the loop is the fault of HEN. -/
theorem exec_hen_raise {s : State} {err : ErrCode} {pos : Nat} {sym : Symbol} (hct : s.flag .ctV = true)
    (hovf : s.flag .symOvf = false)
    (h : huffmanEncode s.ct s.params.maxBits 0 s.symIn [] = raise err pos sym) :
    exec .hen s = .next (faultOutcome .hen err pos sym s) := by
  have hbody : henBody s = raise err pos sym := by rw [henBody, hct, hovf, h]; rfl
  exact (congrArg (conclude .hen s) hbody).trans
    (congrArg Host.Outcome.next (takeFault_eq_faultOutcome .hen ⟨err, pos, sym⟩ s))

end Sys2Proof.Machine

namespace Sys2Proof.Proofs

open Sys2Proof.Machine

/-- Settles O24: the loop appends the codes of all symbols, and BITPOS is the length of what it gives. -/
theorem henConcatenatesTheCodes : Obligations.HenConcatenatesTheCodes := by
  intro s cs hv hovf hct hcs hfit
  have hloop : huffmanEncode s.ct s.params.maxBits 0 s.symIn [] = .ok (cs.flatMap CodeEntry.bits) := by
    have happend := huffmanEncode_append (i := 0) (out := []) hct hcs (by simpa using hfit) []
    rw [List.append_nil] at happend
    exact happend
  have hexec := congrArg (conclude .hen s) (henBody_ok.2 ⟨hv, hovf, _, hloop, rfl⟩)
  rw [conclude_ok, succeed_eq, length_flatMap_bits hct hcs] at hexec
  exact hexec

/-- Settles O25: the loop reaches the first bad symbol with the codes before it, and raises there. -/
theorem henFaultsAtTheFirstBadSymbol : Obligations.HenFaultsAtTheFirstBadSymbol := by
  intro s xs ys x cs hv hovf hct hsym hcs hfit
  have hreach := huffmanEncode_append (i := 0) (out := []) hct hcs (by simpa using hfit) (x :: ys)
  rw [← hsym, Nat.zero_add, List.nil_append] at hreach
  constructor
  · intro hunknown
    have hx : lookupCode s.ct x = none := List.find?_eq_none.2 fun e he => by simpa using hunknown e he
    exact exec_hen_raise hv hovf (hreach.trans (huffmanEncode_unknown hx _ _ _ _))
  · intro c hc hfull
    rw [← length_flatMap_bits hct hcs] at hfull
    exact exec_hen_raise hv hovf (hreach.trans (huffmanEncode_full hc hfull _ _))

end Sys2Proof.Proofs
end

section
/-! PROOFS. The codes of a valid code table (`41_huffman_code_table_encoder.md` R133, R134). They are the paths from the root
to the leaves: no path goes on from a leaf, each node has one path, and every bit sequence leads to a leaf. -/

namespace Sys2Proof.Machine

/-! ### Paths that begin or go on from one another -/

theorem follow_append (tn : List TreeNode) (v : Nat) (p q : BitString) :
    follow tn v (p ++ q) = (follow tn v p).bind fun w => follow tn w q := by
  induction p generalizing v with
  | nil => simp
  | cons b p ih =>
    rw [List.cons_append, follow, follow]
    split
    · rfl
    · split
      · rfl
      · exact ih _

/-- No path goes on from a leaf. -/
theorem follow_leaf {tn : List TreeNode} {v w : Nat} {nd : TreeNode} {p : BitString} (hv : tn[v]? = some nd)
    (hk : nd.kind = .leaf) (hp : follow tn v p = some w) : p = [] ∧ w = v := by
  cases p with
  | nil => exact ⟨rfl, by simpa using hp.symm⟩
  | cons b p =>
    obtain ⟨nd', hv', hk', -⟩ := follow_cons.1 hp
    cases hv.symm.trans hv'
    cases hk.symm.trans hk'

/-- A path to a leaf begins no path but itself. -/
theorem follow_eq_of_prefix {tn : List TreeNode} {v i j : Nat} {nd : TreeNode} {p q : BitString} (hi : tn[i]? = some nd)
    (hk : nd.kind = .leaf) (hp : follow tn v p = some i) (hq : follow tn v q = some j) (hpq : p <+: q) : j = i := by
  obtain ⟨r, rfl⟩ := hpq
  rw [follow_append, hp] at hq
  exact (follow_leaf hi hk hq).2

/-- The last bit of a path leads from an internal node to its child. -/
theorem follow_concat {tn : List TreeNode} {v w : Nat} {p : BitString} {b : Bit} :
    follow tn v (p ++ [b]) = some w ↔
      ∃ j nd, follow tn v p = some j ∧ tn[j]? = some nd ∧ nd.kind = .internal ∧
        w = if b then nd.right else nd.left := by
  rw [follow_append, Option.bind_eq_some_iff]
  refine exists_congr fun j => ?_
  rw [follow_cons]
  simp [eq_comm]

/-- The first `m` bits of a sequence begin its first `n`. -/
theorem map_range_prefix {α : Type} (f : Nat → α) {m n : Nat} (h : m ≤ n) :
    (List.range m).map f <+: (List.range n).map f := by
  obtain ⟨k, rfl⟩ := Nat.exists_eq_add_of_le h
  rw [List.range_add, List.map_append]
  exact List.prefix_append _ _

section Tree

variable {ft : List FtEntry} {tn : List TreeNode} {root : Nat} (h : TreeInv ft tn root)
include h

/-! ### The paths from the root -/

theorem TreeInv.exists_leaf_node {i : Nat} (hi : i < ft.length) : ∃ nd, tn[i]? = some nd ∧ nd.kind = .leaf :=
  ⟨leafOf ft[i], by rw [h.getElem?_leaf hi, List.getElem?_eq_getElem hi]; rfl, rfl⟩

/-- Every node but the root is a child. -/
theorem TreeInv.exists_parent_node {v : Nat} (hv : v < root) :
    ∃ (j : Nat) (nd : TreeNode), tn[j]? = some nd ∧ nd.kind = .internal ∧ ∃ b : Bit, v = if b then nd.right else nd.left := by
  obtain ⟨nd, hnd, hk, hside⟩ := mem_childIndices (h.childIndices_perm.mem_iff.2 (List.mem_range.2 hv))
  obtain ⟨j, hj⟩ := List.mem_iff_getElem?.1 hnd
  refine ⟨j, nd, hj, hk, ?_⟩
  rcases hside with hl | hr
  · exact ⟨false, hl⟩
  · exact ⟨true, hr⟩

/-- A child stands before its parent. -/
theorem TreeInv.child_lt {j : Nat} {nd : TreeNode} (hj : tn[j]? = some nd) (hk : nd.kind = .internal) (b : Bit) :
    (if b then nd.right else nd.left) < j := by
  obtain ⟨-, hl, hr⟩ := h.children_lt hj hk
  split <;> assumption

/-- A child has one parent, on one side of it. -/
theorem TreeInv.parent_unique {j k : Nat} {x y : TreeNode} {b c : Bit} (hj : tn[j]? = some x) (hk : tn[k]? = some y)
    (hx : x.kind = .internal) (hy : y.kind = .internal)
    (heq : (if b then x.right else x.left) = if c then y.right else y.left) : j = k ∧ b = c := by
  have side : ∀ (z : TreeNode) (d : Bit),
      (if d then z.right else z.left) = z.left ∨ (if d then z.right else z.left) = z.right := by
    intro z d
    cases d <;> simp
  rcases Nat.lt_trichotomy j k with hlt | rfl | hgt
  · exact absurd heq.symm (h.children_disjoint hlt hk hj hy hx (side y c) (side x b))
  · obtain ⟨nd, hnd, -, -, -, -, hne, -⟩ := h.getElem?_inner (List.getElem?_eq_some_iff.1 hj).1 (h.children_lt hj hx).1
    cases hj.symm.trans hk
    cases hj.symm.trans hnd
    refine ⟨rfl, ?_⟩
    match b, c with
    | false, false => rfl
    | false, true => exact absurd heq hne
    | true, false => exact absurd heq.symm hne
    | true, true => rfl
  · exact absurd heq (h.children_disjoint hgt hj hk hx hy (side x b) (side y c))

/-- Every node has a path from the root. -/
theorem TreeInv.exists_path {v : Nat} (hv : v ≤ root) : ∃ p, follow tn root p = some v := by
  induction hd : root - v using Nat.strong_induction_on generalizing v with
  | _ d ih =>
    rcases hv.eq_or_lt with rfl | hlt
    · exact ⟨[], follow_nil _ _⟩
    · obtain ⟨j, nd, hj, hk, b, rfl⟩ := h.exists_parent_node hlt
      have hchild := h.child_lt hj hk b
      have hroot := h.root_eq
      have hjlt := (List.getElem?_eq_some_iff.1 hj).1
      obtain ⟨p, hp⟩ := ih (root - j) (by omega) (v := j) (by omega) rfl
      exact ⟨p ++ [b], follow_append_singleton hp hj hk b⟩

/-- Only the empty path from the root ends there. -/
theorem TreeInv.follow_concat_ne_root {p : BitString} {b : Bit} : follow tn root (p ++ [b]) ≠ some root := fun hp => by
  obtain ⟨j, nd, -, hj, hk, hchild⟩ := follow_concat.1 hp
  have hlt := h.child_lt hj hk b
  have hjlt := (List.getElem?_eq_some_iff.1 hj).1
  have hroot := h.root_eq
  omega

/-- No node has two paths from the root. -/
theorem TreeInv.path_unique {v : Nat} {p q : BitString} (hp : follow tn root p = some v)
    (hq : follow tn root q = some v) : p = q := by
  induction p using List.reverseRecOn generalizing v q with
  | nil =>
    obtain rfl : root = v := by simpa using hp
    cases q using List.reverseRecOn with
    | nil => rfl
    | append_singleton q b => exact absurd hq h.follow_concat_ne_root
  | append_singleton p b ih =>
    cases q using List.reverseRecOn with
    | nil =>
      obtain rfl : root = v := by simpa using hq
      exact absurd hp h.follow_concat_ne_root
    | append_singleton q c =>
      obtain ⟨j, x, hpj, hj, hx, hv⟩ := follow_concat.1 hp
      obtain ⟨k, y, hqk, hk, hy, hv'⟩ := follow_concat.1 hq
      obtain ⟨rfl, rfl⟩ := h.parent_unique hj hk hx hy (hv.symm.trans hv')
      rw [ih hpj hqk]

/-- Every bit sequence leads from every node to a leaf. -/
theorem TreeInv.exists_leaf_along {v : Nat} (hv : v < tn.length) (bs : Nat → Bit) :
    ∃ m i, i < ft.length ∧ follow tn v ((List.range m).map bs) = some i := by
  induction v using Nat.strong_induction_on generalizing bs with
  | _ v ih =>
    rcases Nat.lt_or_ge v ft.length with hleaf | hinner
    · exact ⟨0, v, hleaf, follow_nil _ _⟩
    · obtain ⟨nd, hnd, hk, -⟩ := h.getElem?_inner hv hinner
      have hchild := h.child_lt hnd hk (bs 0)
      obtain ⟨m, i, hi, hp⟩ := ih _ hchild (hchild.trans hv) (fun k => bs (k + 1))
      refine ⟨m + 1, i, hi, ?_⟩
      rw [List.range_succ_eq_map, List.map_cons, List.map_map]
      exact follow_cons.2 ⟨nd, hnd, hk, hp⟩

/-! ### Sums over the leaves -/

/-- What each internal node passes on to its children in full arrives at the leaves in full. -/
theorem TreeInv.sum_leaves {g : Nat → Nat}
    (hg : ∀ (j : Nat) (nd : TreeNode), tn[j]? = some nd → nd.kind = .internal → g nd.left + g nd.right = g j) :
    ∑ i ∈ Finset.range ft.length, g i = g root := by
  have hsize := h.size
  have hroot := h.root_eq
  have hchildren : ∀ j, ft.length ≤ j → j ≤ tn.length →
      ((childIndices (tn.take j)).map g).sum = ∑ i ∈ Finset.Ico ft.length j, g i := by
    intro j hn
    induction j, hn using Nat.le_induction with
    | base =>
      have hleaves : tn.take ft.length = ft.map leafOf := h.leaves
      simp [hleaves]
    | succ j hn ih =>
      intro hj
      obtain ⟨nd, hnd, hk, -⟩ := h.getElem?_inner hj hn
      rw [List.take_add_one, hnd, Option.toList_some, childIndices_append, childIndices_singleton hk, List.map_append,
        List.sum_append, ih (by omega), Finset.sum_Ico_succ_top hn, ← hg j nd hnd hk]
      simp
  have hbelow : ∑ i ∈ Finset.range root, g i = ∑ i ∈ Finset.Ico ft.length (root + 1), g i := by
    rw [hroot, ← hchildren _ (by omega) le_rfl, List.take_length, (h.childIndices_perm.map g).sum_eq,
      ← List.sum_toFinset _ List.nodup_range, List.toFinset_range]
  have hall := Finset.sum_range_add_sum_Ico g (show ft.length ≤ root + 1 by omega)
  rw [Finset.sum_range_succ] at hall
  omega

/-- Kraft's equality for the leaves, with every depth at most `m`. -/
theorem TreeInv.sum_two_pow_depths {d : Nat → Nat} (hzero : d root = 0) (hd : ChildDepths tn d 0) {m : Nat}
    (hm : ft.length - 1 ≤ m) : ∑ i ∈ Finset.range ft.length, 2 ^ (m - d i) = 2 ^ m := by
  have hsum := h.sum_leaves (g := fun v => 2 ^ (m - d v)) fun j nd hj hk => by
    obtain ⟨hl, hr⟩ := hd j nd (Nat.zero_le j) hj hk
    have hroot := h.root_eq
    have hsize := h.size
    have hjlt := (List.getElem?_eq_some_iff.1 hj).1
    obtain ⟨p, hp⟩ := h.exists_path (v := j) (by omega)
    have hle := follow_length_le h (follow_append_singleton hp hj hk false)
    have hdepth := hd.depth_of_follow hp
    rw [List.length_append, List.length_singleton] at hle
    rw [hl, hr, ← Nat.two_mul, ← Nat.pow_succ']
    congr 1
    omega
  simpa [hzero] using hsum

end Tree

/-! ### The entries of a valid code table -/

section Table

variable {ft : List FtEntry} {tn : List TreeNode} {root : Nat} {ct : List CodeEntry} (h : CodeInv ft tn root ct)
include h

theorem CodeInv.entry {i : Nat} {c : CodeEntry} (hc : ct[i]? = some c) :
    ∃ f, ft[i]? = some f ∧ c.sym = f.sym ∧ c.len = c.bits.length ∧
      if ft.length = 1 then c.bits = [false] else follow tn root c.bits = some i := by
  have hi := (List.getElem?_eq_some_iff.1 hc).1
  obtain ⟨f, c', hf, hc', hentry⟩ := codeEntryOk_iff.1 (h.entries i (h.size ▸ hi))
  cases hc.symm.trans hc'
  exact ⟨f, hf, hentry⟩

/-- In a table of one symbol the code is the placeholder bit. -/
theorem CodeInv.single (hone : ft.length = 1) {c : CodeEntry} (hc : c ∈ ct) : c.bits = [false] := by
  obtain ⟨i, hi⟩ := List.mem_iff_getElem?.1 hc
  obtain ⟨f, -, -, -, hcode⟩ := h.entry hi
  rwa [if_pos hone] at hcode

/-- In a larger table the code is the path to the leaf. -/
theorem CodeInv.path (htwo : 2 ≤ ft.length) {i : Nat} {c : CodeEntry} (hc : ct[i]? = some c) :
    follow tn root c.bits = some i := by
  obtain ⟨f, -, -, -, hcode⟩ := h.entry hc
  rwa [if_neg (by omega)] at hcode

/-- A code that begins another one belongs to the same entry. -/
theorem CodeInv.index_eq_of_prefix (htree : TreeInv ft tn root) {i j : Nat} {a b : CodeEntry} (ha : ct[i]? = some a)
    (hb : ct[j]? = some b) (hab : a.bits <+: b.bits) : i = j := by
  have hi : i < ft.length := h.size ▸ (List.getElem?_eq_some_iff.1 ha).1
  have hj : j < ft.length := h.size ▸ (List.getElem?_eq_some_iff.1 hb).1
  rcases Nat.lt_or_ge ft.length 2 with hone | htwo
  · omega
  · obtain ⟨nd, hnd, hk⟩ := htree.exists_leaf_node hi
    exact (follow_eq_of_prefix hnd hk (h.path htwo ha) (h.path htwo hb) hab).symm

/-- Entries with one symbol are the same entry. -/
theorem CodeInv.index_eq_of_sym (hft : (ft.map FtEntry.sym).Nodup) {i j : Nat} {a b : CodeEntry} (ha : ct[i]? = some a)
    (hb : ct[j]? = some b) (hab : a.sym = b.sym) : i = j := by
  obtain ⟨f, hf, hfa, -⟩ := h.entry ha
  obtain ⟨g, hg, hgb, -⟩ := h.entry hb
  have hi := (List.getElem?_eq_some_iff.1 hf).1
  refine (List.getElem?_inj (by simpa using hi) hft).1 ?_
  rw [List.getElem?_map, List.getElem?_map, hf, hg, Option.map_some, Option.map_some, ← hfa, ← hgb, hab]

/-- Every infinite bit sequence begins with exactly one code. -/
theorem CodeInv.existsUnique_code (htree : TreeInv ft tn root) (htwo : 2 ≤ ft.length) (bs : Nat → Bit) :
    ∃! c : CodeEntry, c ∈ ct ∧ c.bits = (List.range c.bits.length).map bs := by
  have hroot := htree.root_eq
  obtain ⟨m, i, hi, hp⟩ := htree.exists_leaf_along (v := root) (by omega) bs
  have hc : ct[i]? = some (ct[i]'(h.size ▸ hi)) := List.getElem?_eq_getElem _
  have hbits := htree.path_unique (h.path htwo hc) hp
  refine ⟨ct[i]'(h.size ▸ hi), ⟨List.mem_of_getElem? hc, by rw [hbits]; simp⟩, ?_⟩
  rintro c ⟨hmem, hcbits⟩
  obtain ⟨j, hj⟩ := List.mem_iff_getElem?.1 hmem
  have hij : j = i := by
    rcases Nat.le_total c.bits.length m with hle | hle
    · exact h.index_eq_of_prefix htree hj hc (by rw [hcbits, hbits]; exact map_range_prefix bs hle)
    · exact (h.index_eq_of_prefix htree hc hj (by rw [hcbits, hbits]; exact map_range_prefix bs hle)).symm
  subst hij
  exact Option.some.inj (hj.symm.trans hc)

/-- Kraft's equality for the codes of two or more symbols. -/
theorem CodeInv.sum_two_pow_len (htree : TreeInv ft tn root) (htwo : 2 ≤ ft.length) {m : Nat} (hm : ft.length - 1 ≤ m) :
    (ct.map fun c => 2 ^ (m - c.len)).sum = 2 ^ m := by
  obtain ⟨d, hzero, hd⟩ := htree.exists_depths
  have hlist : ct.map (fun c => 2 ^ (m - c.len)) = (List.range ft.length).map fun i => 2 ^ (m - d i) := by
    refine List.ext_getElem (by simp [h.size]) fun i hi _ => ?_
    have hi : i < ct.length := by simpa using hi
    have hc := List.getElem?_eq_getElem hi
    obtain ⟨f, -, -, hlen, -⟩ := h.entry hc
    rw [List.getElem_map, List.getElem_map, List.getElem_range, hlen, hd.depth_of_follow (h.path htwo hc), hzero,
      Nat.zero_add]
  rw [hlist, ← List.sum_toFinset _ List.nodup_range, List.toFinset_range, htree.sum_two_pow_depths hzero hd hm]

end Table

/-! ### The code table of a state -/

section State

variable {s : State} (hinv : Inv s) (hv : s.flag .ctV = true)
include hinv hv

theorem Inv.tree_of_ctV : TreeInv s.ft s.tn s.root := hinv.tree (hinv.treeV_of_ctV hv)

/-- The table fits its capacity, so its codes fit CODE_LEN_MAX. -/
theorem Inv.length_ft_le : s.ft.length ≤ s.params.maxSyms :=
  (hinv.codes hv).size ▸ ((memory_wf_iff s).1 hinv.capacity).2.2.1

end State

end Sys2Proof.Machine

namespace Sys2Proof.Proofs

open Sys2Proof.Machine

/-- Settles O20: a code is a path to a leaf, from where no path goes on; the symbols are those of FT. -/
theorem validCodesArePrefixFree : Obligations.ValidCodesArePrefixFree := by
  intro s hinv hv
  have htree := hinv.tree_of_ctV hv
  have hcodes := hinv.codes hv
  obtain ⟨-, hft⟩ := hinv.table (by simp [hv])
  refine ⟨fun c hc hnil => ?_, fun i j a b ha hb hne => ⟨?_, ?_⟩⟩
  · obtain ⟨hlen, hpos, -⟩ := hcodes.entry_bounds htree hc
    rw [hnil, List.length_nil] at hlen
    omega
  · exact fun hp => hne (hcodes.index_eq_of_prefix htree ha hb hp)
  · exact fun hsym => hne (hcodes.index_eq_of_sym hft.2.2 ha hb hsym)

/-- Settles O21: a bit sequence leads from the root to one leaf, and each internal node shares its part of the Kraft sum
between its children. -/
theorem codesAreComplete : Obligations.CodesAreComplete := by
  intro s hinv hv
  have htree := hinv.tree_of_ctV hv
  have hcodes := hinv.codes hv
  refine ⟨fun htwo => ⟨hcodes.existsUnique_code htree htwo, hcodes.sum_two_pow_len htree htwo ?_⟩, fun hone c hc => ?_⟩
  · have := hinv.length_ft_le hv
    unfold Params.codeLenMax
    omega
  · rw [hcodes.single hone hc]
    decide

/-- Settles O22: a path has at most one bit for each internal node, and a valid table is no longer than MAX_SYMS. -/
theorem codeLengthsAreBounded : Obligations.CodeLengthsAreBounded := by
  intro s hinv hv c hc
  obtain ⟨hlen, hpos, hmax, -⟩ := (hinv.codes hv).entry_bounds (hinv.tree_of_ctV hv) hc
  have := hinv.length_ft_le hv
  unfold Params.codeLenMax
  exact ⟨hlen.symm, by omega, by omega, hpos, by omega⟩

end Sys2Proof.Proofs
end

section
/-! PROOFS. HCT completes on every tree of `10_state.md` R26 (`41_huffman_code_table_encoder.md` R130 to R132): it visits each
node below the indices on its stack once, so `len(TN)` visits are enough, and it comes to every leaf that has a path. -/

namespace Sys2Proof.Machine

/-! ### One visit -/

@[simp] theorem traverse_nil (tn : List TreeNode) (fuel : Nat) (ct : List (Option CodeEntry)) :
    traverse tn fuel [] ct = some ct := by
  unfold traverse
  rfl

/-- A visit of a leaf fills its entry. -/
theorem traverse_leaf {tn : List TreeNode} {v : Nat} {nd : TreeNode} {ct : List (Option CodeEntry)}
    (hv : tn[v]? = some nd) (hk : nd.kind = .leaf) (hlt : v < ct.length) (fuel : Nat) (p : BitString)
    (stack : List (Nat × BitString)) :
    traverse tn (fuel + 1) ((v, p) :: stack) ct =
      traverse tn fuel stack (ct.set v (some ⟨nd.sym, (codeOfPath p).length, codeOfPath p⟩)) := by
  rw [traverse, hv]
  simp only [hk, if_pos hlt]

/-- A visit of an internal node puts its children on the stack. -/
theorem traverse_internal {tn : List TreeNode} {v : Nat} {nd : TreeNode} (hv : tn[v]? = some nd)
    (hk : nd.kind = .internal) (ct : List (Option CodeEntry)) (fuel : Nat) (p : BitString)
    (stack : List (Nat × BitString)) :
    traverse tn (fuel + 1) ((v, p) :: stack) ct =
      traverse tn fuel ((nd.left, p ++ [false]) :: (nd.right, p ++ [true]) :: stack) ct := by
  rw [traverse, hv]
  simp only [hk]

/-- What a traversal that ends can have done first: nothing, or a visit of a leaf or of an internal node. -/
theorem traverse_eq_some {tn : List TreeNode} {fuel : Nat} {stack : List (Nat × BitString)}
    {ct ct' : List (Option CodeEntry)} (h : traverse tn fuel stack ct = some ct') :
    (stack = [] ∧ ct' = ct) ∨
      ∃ (n v : Nat) (p : BitString) (rest : List (Nat × BitString)) (nd : TreeNode),
        fuel = n + 1 ∧ stack = (v, p) :: rest ∧ tn[v]? = some nd ∧
        ((nd.kind = .leaf ∧ v < ct.length ∧
            traverse tn n rest (ct.set v (some ⟨nd.sym, (codeOfPath p).length, codeOfPath p⟩)) = some ct') ∨
          (nd.kind = .internal ∧
            traverse tn n ((nd.left, p ++ [false]) :: (nd.right, p ++ [true]) :: rest) ct = some ct')) := by
  match fuel, stack with
  | _, [] => exact .inl ⟨rfl, by simpa using h.symm⟩
  | 0, _ :: _ => simp [traverse] at h
  | n + 1, (v, p) :: rest =>
    refine .inr ⟨n, v, p, rest, ?_⟩
    cases hv : tn[v]? with
    | none => simp [traverse, hv] at h
    | some nd =>
      refine ⟨nd, rfl, rfl, rfl, ?_⟩
      cases hk : nd.kind with
      | leaf =>
        by_cases hlt : v < ct.length
        · exact .inl ⟨rfl, hlt, traverse_leaf hv hk hlt n p rest ▸ h⟩
        · simp [traverse, hv, hk, hlt] at h
      | internal => exact .inr ⟨rfl, traverse_internal hv hk ct n p rest ▸ h⟩

/-! ### The number of visits -/

/-- The number of nodes at and below `v`, which the traversal visits from `v`. -/
def subtreeSize (tn : List TreeNode) (v : Nat) : Nat :=
  match tn[v]? with
  | none => 1
  | some nd =>
    if _ : nd.kind = .internal ∧ nd.left < v ∧ nd.right < v then
      1 + subtreeSize tn nd.left + subtreeSize tn nd.right
    else 1
termination_by v

theorem subtreeSize_pos (tn : List TreeNode) (v : Nat) : 0 < subtreeSize tn v := by
  rw [subtreeSize]
  split
  · exact Nat.one_pos
  · split <;> omega

theorem subtreeSize_leaf {tn : List TreeNode} {v : Nat} {nd : TreeNode} (hv : tn[v]? = some nd) (hk : nd.kind = .leaf) :
    subtreeSize tn v = 1 := by
  rw [subtreeSize, hv]
  simp [hk]

section Tree

variable {ft : List FtEntry} {tn : List TreeNode} {root : Nat} (h : TreeInv ft tn root)
include h

theorem TreeInv.subtreeSize_internal {v : Nat} {nd : TreeNode} (hv : tn[v]? = some nd) (hk : nd.kind = .internal) :
    subtreeSize tn v = 1 + subtreeSize tn nd.left + subtreeSize tn nd.right := by
  obtain ⟨-, hl, hr⟩ := h.children_lt hv hk
  rw [subtreeSize, hv]
  simp [hk, hl, hr]

theorem TreeInv.leaf_lt {v : Nat} {nd : TreeNode} (hv : tn[v]? = some nd) (hk : nd.kind = .leaf) : v < ft.length := by
  by_contra hge
  obtain ⟨nd', hv', hk', -⟩ := h.getElem?_inner (List.getElem?_eq_some_iff.1 hv).1 (Nat.not_lt.1 hge)
  cases hv.symm.trans hv'
  cases hk.symm.trans hk'

/-- Below the root stands the whole tree: size plus one is 2 at a leaf, and the children's sum at an internal node. -/
theorem TreeInv.subtreeSize_root : subtreeSize tn root = tn.length := by
  have hsum := h.sum_leaves (g := fun v => subtreeSize tn v + 1) fun j nd hj hk => by
    rw [h.subtreeSize_internal hj hk]
    omega
  have hleaves : ∑ i ∈ Finset.range ft.length, (subtreeSize tn i + 1) = ∑ _i ∈ Finset.range ft.length, 2 :=
    Finset.sum_congr rfl fun i hi => by
      obtain ⟨nd, hnd, hk⟩ := h.exists_leaf_node (Finset.mem_range.1 hi)
      rw [subtreeSize_leaf hnd hk]
  rw [hleaves, Finset.sum_const, Finset.card_range, smul_eq_mul] at hsum
  have hsize := h.size
  omega

/-- The traversal ends with as many visits as there are nodes below its stack. -/
theorem TreeInv.traverse_ends {fuel : Nat} {stack : List (Nat × BitString)} {ct : List (Option CodeEntry)}
    (hct : ct.length = ft.length) (hstack : ∀ e ∈ stack, e.1 < tn.length)
    (hfuel : (stack.map fun e => subtreeSize tn e.1).sum ≤ fuel) : ∃ ct', traverse tn fuel stack ct = some ct' := by
  induction fuel generalizing stack ct with
  | zero =>
    cases stack with
    | nil => exact ⟨ct, traverse_nil _ _ _⟩
    | cons e stack =>
      have := subtreeSize_pos tn e.1
      rw [List.map_cons, List.sum_cons] at hfuel
      omega
  | succ fuel ih =>
    match stack with
    | [] => exact ⟨ct, traverse_nil _ _ _⟩
    | (v, p) :: stack =>
      obtain ⟨hvlt, hrest⟩ := List.forall_mem_cons.1 hstack
      have hv : tn[v]? = some tn[v] := List.getElem?_eq_getElem hvlt
      rw [List.map_cons, List.sum_cons] at hfuel
      dsimp only at hfuel
      cases hk : tn[v].kind with
      | leaf =>
        rw [subtreeSize_leaf hv hk] at hfuel
        rw [traverse_leaf hv hk (hct ▸ h.leaf_lt hv hk)]
        exact ih (List.length_set.trans hct) hrest (by omega)
      | internal =>
        obtain ⟨-, hl, hr⟩ := h.children_lt hv hk
        rw [h.subtreeSize_internal hv hk] at hfuel
        rw [traverse_internal hv hk]
        refine ih hct (List.forall_mem_cons.2 ⟨hl.trans hvlt, List.forall_mem_cons.2 ⟨hr.trans hvlt, hrest⟩⟩) ?_
        simp only [List.map_cons, List.sum_cons]
        omega

end Tree

/-! ### The leaves it comes to -/

/-- Entry `i` is filled, or its leaf is at or below an index on the stack. -/
def FilledOrBelow (tn : List TreeNode) (stack : List (Nat × BitString)) (ct : List (Option CodeEntry)) (i : Nat) : Prop :=
  (∃ c, ct[i]? = some (some c)) ∨ ∃ e ∈ stack, ∃ q, follow tn e.1 q = some i

theorem FilledOrBelow.filled_of_nil {tn : List TreeNode} {ct : List (Option CodeEntry)} {i : Nat}
    (h : FilledOrBelow tn [] ct i) : ∃ c, ct[i]? = some (some c) :=
  h.resolve_right fun ⟨_, he, _⟩ => List.not_mem_nil he

section Visit

variable {tn : List TreeNode} {rest : List (Nat × BitString)} {ct : List (Option CodeEntry)} {v i : Nat} {p : BitString}
  {nd : TreeNode} (h : FilledOrBelow tn ((v, p) :: rest) ct i) (hv : tn[v]? = some nd)
include h hv

/-- A visit of a leaf fills the entry of that leaf, and empties none. -/
theorem FilledOrBelow.leaf (hk : nd.kind = .leaf) (hlt : v < ct.length) (e : CodeEntry) :
    FilledOrBelow tn rest (ct.set v (some e)) i := by
  by_cases hvi : v = i
  · exact .inl ⟨e, by rw [← hvi, List.getElem?_set_self hlt]⟩
  rcases h with ⟨c, hc⟩ | ⟨x, hx, q, hq⟩
  · exact .inl ⟨c, by rw [List.getElem?_set_ne hvi, hc]⟩
  · rcases List.mem_cons.1 hx with rfl | hx
    · exact absurd (follow_leaf hv hk hq).2.symm hvi
    · exact .inr ⟨x, hx, q, hq⟩

/-- What is below an internal node is at or below one of its children. -/
theorem FilledOrBelow.internal {leaf : TreeNode} (hi : tn[i]? = some leaf) (hleaf : leaf.kind = .leaf)
    (hk : nd.kind = .internal) (pl pr : BitString) :
    FilledOrBelow tn ((nd.left, pl) :: (nd.right, pr) :: rest) ct i := by
  rcases h with hfilled | ⟨x, hx, q, hq⟩
  · exact .inl hfilled
  rcases List.mem_cons.1 hx with rfl | hx
  · cases q with
    | nil =>
      obtain rfl : v = i := by simpa using hq
      cases hv.symm.trans hi
      cases hk.symm.trans hleaf
    | cons b q =>
      obtain ⟨nd', hv', -, hq'⟩ := follow_cons.1 hq
      cases hv.symm.trans hv'
      cases b with
      | false => exact .inr ⟨(nd.left, pl), by simp, q, hq'⟩
      | true => exact .inr ⟨(nd.right, pr), by simp, q, hq'⟩
  · exact .inr ⟨x, by simp [hx], q, hq⟩

end Visit

/-- A traversal that ends has filled the entries of all leaves below its stack. -/
theorem traverse_fills {tn : List TreeNode} {fuel i : Nat} {stack : List (Nat × BitString)}
    {ct ct' : List (Option CodeEntry)} {leaf : TreeNode} (hi : tn[i]? = some leaf) (hleaf : leaf.kind = .leaf)
    (hfill : FilledOrBelow tn stack ct i) (h : traverse tn fuel stack ct = some ct') :
    ∃ c, ct'[i]? = some (some c) := by
  induction fuel generalizing stack ct with
  | zero =>
    obtain ⟨rfl, rfl⟩ | ⟨n, -, -, -, -, hn, -⟩ := traverse_eq_some h
    · exact hfill.filled_of_nil
    · cases hn
  | succ fuel ih =>
    obtain ⟨rfl, rfl⟩ | ⟨n, v, p, rest, nd, hn, rfl, hv, hvisit⟩ := traverse_eq_some h
    · exact hfill.filled_of_nil
    · cases hn
      rcases hvisit with ⟨hk, hlt, h'⟩ | ⟨hk, h'⟩
      · exact ih (hfill.leaf hv hk hlt _) h'
      · exact ih (hfill.internal hv hi hleaf hk _ _) h'

/-! ### The table -/

theorem filled_of_none_not_mem {l : List (Option CodeEntry)} (h : none ∉ l) : ∃ ct, filled l = some ct := by
  induction l with
  | nil => exact ⟨[], rfl⟩
  | cons x l ih =>
    cases x with
    | none => exact absurd List.mem_cons_self h
    | some e =>
      obtain ⟨ct, hct⟩ := ih fun hmem => h (List.mem_cons_of_mem _ hmem)
      exact ⟨e :: ct, by rw [filled, hct, Option.map_some]⟩

/-- HCT fills the whole table of every tree of R26. -/
theorem TreeInv.exists_codeTable {ft : List FtEntry} {tn : List TreeNode} {root : Nat} (h : TreeInv ft tn root) :
    ∃ ct, codeTable tn root = some ct := by
  have hroot := h.root_eq
  have hsize : (tn.length + 1) / 2 = ft.length := by have := h.size; omega
  obtain ⟨l, hl⟩ := h.traverse_ends (fuel := tn.length) (stack := [(root, [])]) (ct := List.replicate ft.length none)
    List.length_replicate (by simp; omega) (by simp [h.subtreeSize_root])
  obtain ⟨hlen, -⟩ := traverse_sound (root := root) (by simp) (leafCodesSoFar_replicate _ _ _) hl
  have hnone : none ∉ l := fun hmem => by
    obtain ⟨i, hi⟩ := List.mem_iff_getElem?.1 hmem
    have hlt : i < ft.length := by simpa [hlen] using (List.getElem?_eq_some_iff.1 hi).1
    obtain ⟨nd, hnd, hk⟩ := h.exists_leaf_node hlt
    obtain ⟨q, hq⟩ := h.exists_path (v := i) (by have := h.size; omega)
    obtain ⟨c, hc⟩ := traverse_fills hnd hk (.inr ⟨(root, []), List.mem_singleton_self _, q, hq⟩) hl
    cases hi.symm.trans hc
  obtain ⟨ct, hct⟩ := filled_of_none_not_mem hnone
  exact ⟨ct, by rw [codeTable, hsize, hl, Option.bind_some, hct]⟩

/-! ### The command -/

theorem putFlag_ctV_succeed (w : StatusWord) : putFlag w .ctV true &&& 0xF0FF#16 = (w ||| 0x0002#16) &&& 0xF0FF#16 := by
  rw [putFlag_true_eq]
  rfl

end Sys2Proof.Machine

namespace Sys2Proof.Proofs

open Sys2Proof.Machine

/-- Settles O19: the traversal ends and fills the table of a tree of R26, and the table it fills is that of R27. -/
theorem hctGivesEachLeafItsPath : Obligations.HctGivesEachLeafItsPath := by
  intro s hinv hv
  have htree := hinv.tree hv
  obtain ⟨ct, hct⟩ := htree.exists_codeTable
  refine ⟨ct, codeInv_codeTable htree hct, ?_⟩
  have hexec := congrArg (conclude .hct s) (hctBody_ok.2 ⟨hv, ct, hct, rfl⟩)
  rw [conclude_ok, succeed_eq, putFlag_ctV_succeed] at hexec
  exact hexec

end Sys2Proof.Proofs
end

section
/-! PROOFS. HDE (`42_huffman_decoder_fsm.md` R150 to R156): the walk from the root takes the code of each symbol to that
symbol and back to the root, and a walk that is back at the root has read nothing but codes. HEN's bits are such a walk. -/

namespace Sys2Proof.Machine

/-! ### One bit -/

/-- R151 and R152: a bit leads from an internal node to its child, and the bit `0` from a leaf back to the root. -/
theorem hufStep_ok {tn : List TreeNode} {root v p : Nat} {b : Bit} {r : Nat × Option Symbol} :
    hufStep tn root v b p = .ok r ↔
      (∃ nd child, tn[v]? = some nd ∧ nd.kind = .internal ∧ tn[if b then nd.right else nd.left]? = some child ∧
        (child.kind = .leaf ∧ r = (root, some child.sym) ∨
          child.kind = .internal ∧ r = (if b then nd.right else nd.left, none))) ∨
      ∃ nd leaf, tn[v]? = some nd ∧ nd.kind = .leaf ∧ b = false ∧ tn[root]? = some leaf ∧ r = (root, some leaf.sym) := by
  rw [hufStep]
  cases tn[v]? with
  | none => simp [raise]
  | some nd =>
    cases hk : nd.kind with
    | internal =>
      cases hc : tn[if b then nd.right else nd.left]? with
      | none => simp [raise, hk, hc]
      | some child => cases hck : child.kind <;> simp [hk, hc, hck, eq_comm (a := r)]
    | leaf =>
      cases b with
      | true => simp [raise, hk]
      | false => cases tn[root]? <;> simp [raise, hk, eq_comm (a := r)]

/-- R152: no child for a bit `1` at a leaf. -/
theorem hufStep_leaf_true {tn : List TreeNode} {v : Nat} {nd : TreeNode} (hv : tn[v]? = some nd) (hk : nd.kind = .leaf)
    (root p : Nat) : hufStep tn root v true p = raise .malformedStream p 0 := by
  simp [hufStep, hv, hk]

/-! ### The loop over one bit -/

section Loop

variable {tn : List TreeNode} {root v w maxN p : Nat} {b : Bit} {bs : BitString} {out : List Symbol}

theorem huffmanDecode_goesOn (h : hufStep tn root v b p = .ok (w, none)) :
    huffmanDecode tn root maxN p (b :: bs) v out = huffmanDecode tn root maxN (p + 1) bs w out := by
  rw [huffmanDecode, h]

theorem huffmanDecode_emits {x : Symbol} (h : hufStep tn root v b p = .ok (w, some x)) :
    huffmanDecode tn root maxN p (b :: bs) v out =
      if out.length = maxN then raise .capacityExceeded p 0
      else huffmanDecode tn root maxN (p + 1) bs w (out ++ [x]) := by
  rw [huffmanDecode, h]

theorem huffmanDecode_faults {halt : Halt} (h : hufStep tn root v b p = .error halt) :
    huffmanDecode tn root maxN p (b :: bs) v out = .error halt := by
  rw [huffmanDecode, h]

/-- A loop that ends has taken its first step, and ends after it. -/
theorem huffmanDecode_cons_ok {r : Nat × List Symbol} (h : huffmanDecode tn root maxN p (b :: bs) v out = .ok r) :
    ∃ w e, hufStep tn root v b p = .ok (w, e) ∧
      huffmanDecode tn root maxN (p + 1) bs w (out ++ e.toList) = .ok r := by
  match hstep : hufStep tn root v b p with
  | .error halt => cases (huffmanDecode_faults hstep).symm.trans h
  | .ok (w, none) => exact ⟨w, none, rfl, by rw [Option.toList_none, List.append_nil, ← huffmanDecode_goesOn hstep, h]⟩
  | .ok (w, some x) =>
    rw [huffmanDecode_emits hstep] at h
    split at h
    · cases h
    · exact ⟨w, some x, rfl, h⟩

end Loop

/-! ### The walk along a code -/

/-- A path to an internal node begins at one. -/
theorem internal_of_follow {tn : List TreeNode} {v w : Nat} {nd : TreeNode} {q : BitString}
    (hq : follow tn v q = some w) (hw : tn[w]? = some nd) (hk : nd.kind = .internal) :
    ∃ nd', tn[v]? = some nd' ∧ nd'.kind = .internal := by
  cases q with
  | nil =>
    obtain rfl : v = w := by simpa using hq
    exact ⟨nd, hw, hk⟩
  | cons b q =>
    obtain ⟨nd', hv, hk', -⟩ := follow_cons.1 hq
    exact ⟨nd', hv, hk'⟩

/-- Along a path to an internal node the walk emits nothing. -/
theorem huffmanDecode_path {tn : List TreeNode} {v w : Nat} {nd : TreeNode} {q : BitString} (hq : follow tn v q = some w)
    (hw : tn[w]? = some nd) (hk : nd.kind = .internal) (root maxN p : Nat) (bs : BitString) (out : List Symbol) :
    huffmanDecode tn root maxN p (q ++ bs) v out = huffmanDecode tn root maxN (p + q.length) bs w out := by
  induction q generalizing v p with
  | nil =>
    obtain rfl : v = w := by simpa using hq
    rfl
  | cons b q ih =>
    obtain ⟨nd', hv, hk', hq'⟩ := follow_cons.1 hq
    obtain ⟨child, hchild, hck⟩ := internal_of_follow hq' hw hk
    have hstep := hufStep_ok (root := root) (p := p).2 (.inl ⟨nd', child, hv, hk', hchild, .inr ⟨hck, rfl⟩⟩)
    rw [List.cons_append, huffmanDecode_goesOn hstep, ih hq', List.length_cons, Nat.add_assoc, Nat.add_comm 1]

/-- A path of at least one bit leads below the root. -/
theorem TreeInv.lt_root_of_follow {ft : List FtEntry} {tn : List TreeNode} {root v : Nat} {q : BitString}
    (h : TreeInv ft tn root) (hq : follow tn root q = some v) (hne : q ≠ []) : v < root := by
  obtain ⟨q, b, rfl⟩ := (List.eq_nil_or_concat' _).resolve_left hne
  obtain ⟨j, nd, -, hj, hk, rfl⟩ := follow_concat.1 hq
  have hlt := h.child_lt hj hk b
  have hjlt := (List.getElem?_eq_some_iff.1 hj).1
  have hroot := h.root_eq
  omega

section Codes

variable {ft : List FtEntry} {tn : List TreeNode} {root : Nat} {ct : List CodeEntry} (htree : TreeInv ft tn root)
  (h : CodeInv ft tn root ct)
include htree h

/-- An entry has the symbol of its leaf. -/
theorem CodeInv.leaf_sym {i : Nat} {c : CodeEntry} (hc : ct[i]? = some c) :
    ∃ nd, tn[i]? = some nd ∧ nd.kind = .leaf ∧ c.sym = nd.sym := by
  obtain ⟨f, hf, hsym, -⟩ := h.entry hc
  have hi : i < ft.length := (List.getElem?_eq_some_iff.1 hf).1
  exact ⟨leafOf f, by rw [htree.getElem?_leaf hi, hf, Option.map_some], rfl, hsym⟩

/-- The last bit of a code emits its symbol, at the internal node before the leaf or at the root that is the only leaf. -/
theorem CodeInv.exists_last_step {c : CodeEntry} (hc : c ∈ ct) :
    ∃ q b v, c.bits = q ++ [b] ∧ (∀ p, hufStep tn root v b p = .ok (root, some c.sym)) ∧
      ∀ maxN p bs out, huffmanDecode tn root maxN p (q ++ bs) root out =
        huffmanDecode tn root maxN (p + q.length) bs v out := by
  obtain ⟨i, hi⟩ := List.mem_iff_getElem?.1 hc
  obtain ⟨leaf, hleaf, hkind, hsym⟩ := h.leaf_sym htree hi
  have hlt : i < ft.length := h.size ▸ (List.getElem?_eq_some_iff.1 hi).1
  rcases Nat.lt_or_ge ft.length 2 with hone | htwo
  · have hsize := htree.size
    have hroot := htree.root_eq
    obtain rfl : root = i := by omega
    exact ⟨[], false, root, h.single (by omega) hc,
      fun p => hufStep_ok.2 (.inr ⟨leaf, leaf, hleaf, hkind, rfl, hleaf, by rw [hsym]⟩), fun _ _ _ _ => rfl⟩
  · have hpath := h.path htwo hi
    have hne : c.bits ≠ [] := fun hnil => by
      have := (htree.path_eq_nil_iff hlt hpath).1 hnil
      omega
    obtain ⟨q, b, hbits⟩ := (List.eq_nil_or_concat' _).resolve_left hne
    obtain ⟨j, nd, hq, hj, hk, rfl⟩ := follow_concat.1 (hbits ▸ hpath)
    exact ⟨q, b, j, hbits, fun p => hufStep_ok.2 (.inl ⟨nd, leaf, hj, hk, hleaf, .inl ⟨hkind, by rw [hsym]⟩⟩),
      huffmanDecode_path hq hj hk root⟩

/-- The bits of one code, read from the root: its symbol, where there is room for it, and the walk is back at the root. -/
theorem CodeInv.huffmanDecode_code {c : CodeEntry} (hc : c ∈ ct) (maxN p : Nat) (bs : BitString) (out : List Symbol) :
    huffmanDecode tn root maxN p (c.bits ++ bs) root out =
      if out.length = maxN then raise .capacityExceeded (p + c.bits.length - 1) 0
      else huffmanDecode tn root maxN (p + c.bits.length) bs root (out ++ [c.sym]) := by
  obtain ⟨q, b, v, hbits, hstep, hwalk⟩ := h.exists_last_step htree hc
  rw [hbits, List.append_assoc, hwalk, List.singleton_append, huffmanDecode_emits (hstep _), List.length_append,
    List.length_singleton]
  rfl

/-- The bits of codes that fit: their symbols, and the loop goes on from the root behind them. -/
theorem CodeInv.huffmanDecode_codes {cs : List CodeEntry} (hcs : ∀ c ∈ cs, c ∈ ct) {maxN : Nat} {out : List Symbol}
    (hfit : out.length + cs.length ≤ maxN) (p : Nat) (bs : BitString) :
    huffmanDecode tn root maxN p (cs.flatMap CodeEntry.bits ++ bs) root out =
      huffmanDecode tn root maxN (p + (cs.flatMap CodeEntry.bits).length) bs root (out ++ cs.map CodeEntry.sym) := by
  induction cs generalizing p out with
  | nil => simp
  | cons c cs ih =>
    obtain ⟨hc, hcs⟩ := List.forall_mem_cons.1 hcs
    rw [List.length_cons] at hfit
    rw [List.flatMap_cons, List.append_assoc, h.huffmanDecode_code htree hc, if_neg (by omega),
      ih hcs (by rw [List.length_append, List.length_singleton]; omega), List.length_append, Nat.add_assoc,
      List.append_assoc, List.singleton_append, List.map_cons]

/-! ### The bits of a walk -/

/-- R154: between two bits the walk stands at an internal node, or at the root. A step from there ends a code, or leads to
another such node. -/
theorem CodeInv.hufStep_sound {v w p : Nat} {q : BitString} {b : Bit} {e : Option Symbol} (hq : follow tn root q = some v)
    (hv : v = root ∨ ft.length ≤ v) (hstep : hufStep tn root v b p = .ok (w, e)) :
    (∃ c ∈ ct, c.bits = q ++ [b] ∧ w = root ∧ e = some c.sym) ∨
      follow tn root (q ++ [b]) = some w ∧ ft.length ≤ w ∧ e = none := by
  have hsize := htree.size
  have hroot := htree.root_eq
  rcases hufStep_ok.1 hstep with ⟨nd, child, hnd, hk, hchild, hend⟩ | ⟨nd, leaf, hnd, hk, rfl, hleaf, hr⟩
  · have hpath := follow_append_singleton hq hnd hk b
    rcases hend with ⟨hck, hr⟩ | ⟨hck, hr⟩
    · obtain ⟨rfl, rfl⟩ := Prod.mk.inj hr
      have hlt := htree.leaf_lt hchild hck
      have hn := (htree.children_lt hnd hk).1
      have hvlt := (List.getElem?_eq_some_iff.1 hnd).1
      have hc := List.getElem?_eq_getElem (h.size ▸ hlt)
      obtain ⟨leaf, hleaf, -, hsym⟩ := h.leaf_sym htree hc
      cases hchild.symm.trans hleaf
      exact .inl ⟨_, List.mem_of_getElem? hc, htree.path_unique (h.path (by omega) hc) hpath, rfl, by rw [hsym]⟩
    · obtain ⟨rfl, rfl⟩ := Prod.mk.inj hr
      exact .inr ⟨hpath, (htree.children_lt hchild hck).1, rfl⟩
  · obtain ⟨rfl, rfl⟩ := Prod.mk.inj hr
    have hlt := htree.leaf_lt hnd hk
    obtain rfl : v = w := by omega
    obtain rfl : q = [] := htree.path_unique hq (follow_nil _ _)
    have hc := List.getElem?_eq_getElem (h.size ▸ hlt)
    have hmem := List.mem_of_getElem? hc
    obtain ⟨leaf', hleaf', -, hsym⟩ := h.leaf_sym htree hc
    cases hleaf.symm.trans hleaf'
    exact .inl ⟨_, hmem, h.single (by omega) hmem, rfl, by rw [hsym]⟩

/-- R156: a walk that ends at the root has read the rest of a code begun and whole codes, and emitted their symbols. -/
theorem CodeInv.huffmanDecode_sound {maxN p v : Nat} {q bs : BitString} {out out' : List Symbol}
    (hq : follow tn root q = some v) (hv : v = root ∨ ft.length ≤ v)
    (hloop : huffmanDecode tn root maxN p bs v out = .ok (root, out')) :
    ∃ cs : List CodeEntry, (∀ c ∈ cs, c ∈ ct) ∧ q ++ bs = cs.flatMap CodeEntry.bits ∧
      out' = out ++ cs.map CodeEntry.sym := by
  induction bs generalizing p v q out with
  | nil =>
    cases hloop
    obtain rfl : q = [] := htree.path_unique hq (follow_nil _ _)
    exact ⟨[], nofun, rfl, by simp⟩
  | cons b bs ih =>
    obtain ⟨w, e, hstep, hrest⟩ := huffmanDecode_cons_ok hloop
    rw [← List.singleton_append, ← List.append_assoc]
    rcases h.hufStep_sound htree hq hv hstep with ⟨c, hc, hbits, rfl, rfl⟩ | ⟨hpath, hn, rfl⟩
    · obtain ⟨cs, hcs, rfl, rfl⟩ := ih (follow_nil _ _) (.inl rfl) hrest
      exact ⟨c :: cs, List.forall_mem_cons.2 ⟨hc, hcs⟩, by rw [← hbits]; rfl, by simp⟩
    · obtain ⟨cs, hcs, hbits, rfl⟩ := ih hpath (.inr hn) hrest
      exact ⟨cs, hcs, hbits, by simp⟩

end Codes

/-! ### Encoded symbols -/

/-- The loop of HEN gives the codes of entries with the symbols of its input. -/
theorem huffmanEncode_sound {ct : List CodeEntry} {maxBits i : Nat} {xs : List Symbol} {out out' : BitString}
    (h : huffmanEncode ct maxBits i xs out = .ok out') :
    ∃ cs : List CodeEntry, (∀ c ∈ cs, c ∈ ct) ∧ cs.map CodeEntry.sym = xs ∧ out' = out ++ cs.flatMap CodeEntry.bits := by
  induction xs generalizing i out with
  | nil => cases h; exact ⟨[], nofun, rfl, by simp⟩
  | cons x xs ih =>
    match he : lookupCode ct x with
    | none => cases (huffmanEncode_unknown he ..).symm.trans h
    | some e =>
      rcases Nat.lt_or_ge maxBits (out.length + e.len) with hfull | hfit
      · cases (huffmanEncode_full he hfull ..).symm.trans h
      · rw [huffmanEncode_cons he hfit] at h
        obtain ⟨cs, hcs, rfl, rfl⟩ := ih h
        have hsym : e.sym = x := by simpa using List.find?_some he
        exact ⟨e :: cs, List.forall_mem_cons.2 ⟨lookupCode_mem he, hcs⟩, by rw [List.map_cons, hsym], by simp⟩

/-- In a valid table each entry is the one that its symbol finds. -/
theorem CodeInv.lookupCode_sym {ft : List FtEntry} {tn : List TreeNode} {root : Nat} {ct : List CodeEntry}
    (h : CodeInv ft tn root ct) (hft : (ft.map FtEntry.sym).Nodup) {c : CodeEntry} (hc : c ∈ ct) :
    lookupCode ct c.sym = some c := by
  match he : lookupCode ct c.sym with
  | none => exact absurd (List.find?_eq_none.1 he c hc) (by simp)
  | some e =>
    have hsym : e.sym = c.sym := by simpa using List.find?_some he
    obtain ⟨i, hi⟩ := List.mem_iff_getElem?.1 (lookupCode_mem he)
    obtain ⟨j, hj⟩ := List.mem_iff_getElem?.1 hc
    obtain rfl := h.index_eq_of_sym hft hi hj hsym
    exact hi.symm.trans hj

/-! ### The command -/

/-- A command that reports success has done its body. -/
theorem exec_success {i : Instr} {s t : State} (hexec : exec i s = .next t) (herr : t.err = ErrCode.success.code) :
    ∃ u, commandBody i s = .ok u ∧ t = succeed u := by
  rw [exec_eq_conclude] at hexec
  rcases conclude_next hexec with hok | ⟨f, hf, rfl⟩
  · exact hok
  · rw [takeFault_err, ErrCode.code_eq_success_iff] at herr
    have hmay := (commandBody_raises i s f hf).err
    exact absurd (herr ▸ hmay) (success_not_mem_mayRaise i)

/-- A fault of HDE's body is its outcome. -/
theorem exec_hde_of_body {s : State} {err : ErrCode} {pos : Nat} {sym : Symbol} (h : hdeBody s = raise err pos sym) :
    exec .hde s = .next (faultOutcome .hde err pos sym s) :=
  (congrArg (conclude .hde s) h).trans
    (congrArg Host.Outcome.next (takeFault_eq_faultOutcome .hde ⟨err, pos, sym⟩ s))

section Command

variable {s : State} (hv : s.flag .treeV = true) (hovf : s.flag .bitOvf = false)
include hv hovf

/-- A walk that ends at the root is the success of HDE. -/
theorem exec_hde_of_root {out : List Symbol}
    (h : huffmanDecode s.tn s.root s.params.maxN 0 s.bitIn s.root [] = .ok (s.root, out)) :
    exec .hde s = .next { s with
      symOut := out, node := s.root, bitpos := s.bitIn.length, sympos := out.length
      status := s.status &&& 0xF0FF#16, errpos := 0, errsym := 0 } := by
  have hexec := congrArg (conclude .hde s) (hdeBody_ok.2 ⟨hv, hovf, out, h, rfl⟩)
  rw [conclude_ok, succeed_eq] at hexec
  exact hexec

/-- A fault of the loop is the fault of HDE. -/
theorem exec_hde_raise {err : ErrCode} {pos : Nat} {sym : Symbol}
    (h : huffmanDecode s.tn s.root s.params.maxN 0 s.bitIn s.root [] = raise err pos sym) :
    exec .hde s = .next (faultOutcome .hde err pos sym s) :=
  exec_hde_of_body (by rw [hdeBody, hv, hovf, h]; rfl)

/-- R153: a walk that ends elsewhere is MalformedStream after the last bit. -/
theorem exec_hde_of_ne_root {v : Nat} {out : List Symbol} (hne : v ≠ s.root)
    (h : huffmanDecode s.tn s.root s.params.maxN 0 s.bitIn s.root [] = .ok (v, out)) :
    exec .hde s = .next (faultOutcome .hde .malformedStream s.bitIn.length 0 s) := by
  have hend : (v == s.root) = false := beq_false_of_ne hne
  refine exec_hde_of_body ?_
  rw [hdeBody, hv, hovf, h]
  change (require (v == s.root) .malformedStream s.bitIn.length 0 >>= _) = _
  rw [hend]
  rfl

/-- HDE on a concatenation of codes of any table that is the tree's. -/
theorem exec_hde_of_codes {ft : List FtEntry} {ct cs : List CodeEntry} (htree : TreeInv ft s.tn s.root)
    (hcodes : CodeInv ft s.tn s.root ct) (hcs : ∀ c ∈ cs, c ∈ ct) (hmax : cs.length ≤ s.params.maxN)
    (hbits : s.bitIn = cs.flatMap CodeEntry.bits) :
    exec .hde s = .next { s with
      symOut := cs.map CodeEntry.sym, node := s.root, bitpos := s.bitIn.length, sympos := cs.length
      status := s.status &&& 0xF0FF#16, errpos := 0, errsym := 0 } := by
  have hloop := hcodes.huffmanDecode_codes htree hcs (out := []) (by simpa using hmax) 0 []
  rw [List.append_nil, ← hbits] at hloop
  have hexec := exec_hde_of_root hv hovf hloop
  rw [List.nil_append, List.length_map] at hexec
  exact hexec

end Command

/-! ### The tree of one leaf -/

/-- The entry of the only symbol of a table (`41_huffman_code_table_encoder.md` R132). -/
def singleCode (e : FtEntry) : CodeEntry := ⟨e.sym, 1, [false]⟩

theorem codeInv_singleCode (e : FtEntry) (tn : List TreeNode) (root : Nat) : CodeInv [e] tn root [singleCode e] where
  size := rfl
  entries i hi := by
    obtain rfl : i = 0 := by simpa using hi
    simp [codeEntryOk, singleCode]

theorem flatMap_bits_replicate_singleCode (e : FtEntry) (j : Nat) :
    (List.replicate j (singleCode e)).flatMap CodeEntry.bits = List.replicate j false := by
  simp [List.flatMap, singleCode]

end Sys2Proof.Machine

namespace Sys2Proof.Proofs

open Sys2Proof.Machine

/-- Settles O26: each code leads from the root to its leaf, which emits the symbol and puts the walk back at the root. -/
theorem hdeDecodesConcatenatedCodes : Obligations.HdeDecodesConcatenatedCodes := by
  intro s ct cs hinv hv hovf hcodes hcs hmax hbits
  exact exec_hde_of_codes hv hovf (hinv.tree hv) hcodes hcs hmax hbits

/-- Settles O27: behind the codes the walk follows the path to its internal node, which is not the root. -/
theorem hdeFaultsWhenTheStreamEndsMidCode : Obligations.HdeFaultsWhenTheStreamEndsMidCode := by
  intro s ct cs p v hinv hv hovf hcodes hcs hmax hne hp hn hbits
  have htree := hinv.tree hv
  have hlt : v < s.root := htree.lt_root_of_follow hp hne
  have hroot := htree.root_eq
  obtain ⟨nd, hnd, hk, -⟩ := htree.getElem?_inner (by omega) hn
  have hloop := hcodes.huffmanDecode_codes htree hcs (out := []) (by simpa using hmax) 0 (p ++ [])
  rw [huffmanDecode_path hp hnd hk, List.append_nil, ← hbits] at hloop
  exact exec_hde_of_ne_root hv hovf hlt.ne hloop

/-- Settles O28: the one code is the bit `0`, and the root, where the walk stands after every code, is a leaf. -/
theorem hdeOnASingleLeaf : Obligations.HdeOnASingleLeaf := by
  intro s e j hinv hv hovf hft hmax
  have htree := hinv.tree hv
  rw [hft] at htree
  have hcodes := codeInv_singleCode e s.tn s.root
  have hcs : ∀ c ∈ List.replicate j (singleCode e), c ∈ [singleCode e] := fun c hc =>
    List.mem_singleton.2 (List.eq_of_mem_replicate hc)
  have hbits := flatMap_bits_replicate_singleCode e j
  constructor
  · intro hzeros
    have hexec := exec_hde_of_codes hv hovf htree hcodes hcs (by simpa using hmax) (hzeros.trans hbits.symm)
    simpa [hzeros, singleCode] using hexec
  · intro bs hstream
    have hroot : s.root = 0 := by
      have hsize := htree.size
      have hroot := htree.root_eq
      rw [List.length_singleton] at hsize
      omega
    obtain ⟨leaf, hleaf, hk⟩ := htree.exists_leaf_node (i := s.root) (by simp [hroot])
    have hloop := hcodes.huffmanDecode_codes htree hcs (out := []) (by simpa using hmax) 0 (true :: bs)
    rw [hbits, ← hstream, huffmanDecode_faults (hufStep_leaf_true hleaf hk _ _), Nat.zero_add,
      List.length_replicate] at hloop
    exact exec_hde_raise hv hovf hloop

/-- Settles O30: HEN's bits are codes of the table with the symbols of SYM_IN. -/
theorem huffmanRoundTrip : Obligations.HuffmanRoundTrip := by
  intro s s' d hinv hctv hexec herr hparams htn hroot hv hovf hbits
  obtain ⟨u, hbody, rfl⟩ := exec_success hexec herr
  obtain ⟨-, -, out, hout, rfl⟩ := henBody_ok.1 hbody
  obtain ⟨cs, hcs, hsyms, rfl⟩ := huffmanEncode_sound hout
  have hmax : cs.length ≤ d.params.maxN := by
    rw [hparams, ← List.length_map CodeEntry.sym, hsyms]
    obtain ⟨⟨-, -, -, -, hsymIn, -⟩, -⟩ := (capacityInv_iff s).1 hinv.capacityInv
    exact hsymIn
  have hcodes : CodeInv s.ft d.tn d.root s.ct := by rw [htn, hroot]; exact hinv.codes hctv
  have htree : TreeInv s.ft d.tn d.root := by rw [htn, hroot]; exact hinv.tree_of_ctV hctv
  refine ⟨_, exec_hde_of_codes hv hovf htree hcodes hcs hmax hbits, hsyms, ?_, rfl, congrArg List.length hbits, ?_⟩
  · exact getErr_and_statusKept d.status .hde
  · rw [← hsyms, List.length_map]

/-- Settles O31: the bits that HDE accepts are codes of the table, and each emitted symbol finds its code again. -/
theorem hdeThenHenReproducesTheBits : Obligations.HdeThenHenReproducesTheBits := by
  intro s s' h hinv hctv hexec herr hparams hct hv hovf hsyms
  obtain ⟨u, hbody, rfl⟩ := exec_success hexec herr
  obtain ⟨-, -, out, hout, rfl⟩ := hdeBody_ok.1 hbody
  have hcodes := hinv.codes hctv
  obtain ⟨-, -, -, hnodup⟩ := hinv.table (by simp [hctv])
  obtain ⟨cs, hcs, hbits, hsymout⟩ :=
    hcodes.huffmanDecode_sound (hinv.tree_of_ctV hctv) (follow_nil _ _) (.inl rfl) hout
  have hlen : ∀ c ∈ h.ct, c.len = c.bits.length := fun c hc => (hinv.capacityInv.code_len c (hct ▸ hc)).symm
  have hfound : h.symIn.map (lookupCode h.ct) = cs.map some := by
    have hsymIn : h.symIn = cs.map CodeEntry.sym := hsyms.trans hsymout
    rw [hsymIn, hct, List.map_map]
    exact List.map_congr_left fun c hc => hcodes.lookupCode_sym hnodup (hcs c hc)
  have hfit : (cs.map CodeEntry.len).sum ≤ h.params.maxBits := by
    rw [← length_flatMap_bits hlen hfound, ← hbits, hparams]
    obtain ⟨⟨-, -, -, -, -, -, hbitIn, -⟩, -⟩ := (capacityInv_iff s).1 hinv.capacityInv
    exact hbitIn
  exact ⟨_, henConcatenatesTheCodes h cs hv hovf hlen hfound hfit, hbits.symm, getErr_and_statusKept h.status .hen⟩

end Sys2Proof.Proofs
end

section
/-! PROOFS. What BIM answers on a well-formed table (`43_interval_model.md` R165, R166), and the partition of [0, T) by the
ranges of a valid Interval Model (R167): each range lies between two neighbouring sums of the first counts, which grow with
the index. -/

namespace Sys2Proof.Machine

/-! ### The sums of the first counts -/

theorem totalCount_take_mono (ft : List FtEntry) {i j : Nat} (hij : i ≤ j) :
    totalCount (ft.take i) ≤ totalCount (ft.take j) := by
  have hle := totalCount_take_le (ft.take j) i
  rwa [List.take_take, Nat.min_eq_left hij] at hle

/-- The range of cumulative values that R165 gives to the entry at index `i` holds `v`. -/
def CountRange (ft : List FtEntry) (v i : Nat) : Prop :=
  ∃ f, ft[i]? = some f ∧ totalCount (ft.take i) ≤ v ∧ v < totalCount (ft.take i) + f.count

theorem exists_countRange {ft : List FtEntry} {v : Nat} (hv : v < totalCount ft) : ∃ i, CountRange ft v i := by
  induction ft generalizing v with
  | nil => simp at hv
  | cons e es ih =>
    rw [totalCount_cons] at hv
    by_cases he : v < e.count
    · exact ⟨0, e, rfl, by simp, by simpa using he⟩
    · obtain ⟨i, f, hf, hlow, hhigh⟩ := ih (v := v - e.count) (by omega)
      refine ⟨i + 1, f, hf, ?_, ?_⟩ <;> rw [List.take_succ_cons, totalCount_cons] <;> omega

/-- A range ends at or before the start of every later one. -/
theorem CountRange.le {ft : List FtEntry} {v i j : Nat} (hi : CountRange ft v i) (hj : CountRange ft v j) : j ≤ i := by
  obtain ⟨f, hf, -, hhigh⟩ := hi
  obtain ⟨-, -, hlow, -⟩ := hj
  rw [← totalCount_take_succ hf] at hhigh
  by_contra hlt
  have hmono := totalCount_take_mono ft (i := i + 1) (j := j) (by omega)
  omega

theorem existsUnique_countRange {ft : List FtEntry} {v : Nat} (hv : v < totalCount ft) : ∃! i, CountRange ft v i := by
  obtain ⟨i, hi⟩ := exists_countRange hv
  exact ⟨i, hi, fun j hj => Nat.le_antisymm (hi.le hj) (hj.le hi)⟩

/-! ### The entries of a valid model -/

section Model

variable {ft : List FtEntry} {im : List Interval} {t : Nat} (h : IntervalInv ft im t)
include h

/-- A valid model in closed form (`43_interval_model.md` R165). -/
theorem IntervalInv.eq_mapIdx :
    im = ft.mapIdx fun i e => ⟨e.sym, totalCount (ft.take i), totalCount (ft.take i) + e.count⟩ := by
  apply List.ext_getElem?
  intro i
  rw [List.getElem?_mapIdx]
  cases hf : ft[i]? with
  | none => exact List.getElem?_eq_none (h.size ▸ List.getElem?_eq_none_iff.1 hf)
  | some f => exact h.getElem? hf

theorem IntervalInv.holds_iff_countRange (v i : Nat) :
    (∃ e, im[i]? = some e ∧ e.low ≤ v ∧ v < e.high) ↔ CountRange ft v i := by
  rw [h.eq_mapIdx, List.getElem?_mapIdx]
  simp [CountRange]

end Model

/-! ### The command -/

theorem putFlag_imV_succeed (w : StatusWord) :
    putFlag w .imV true &&& 0xF0FF#16 = (w ||| 0x0004#16) &&& 0xF0FF#16 := rfl

theorem exec_bim_of_wellFormed {s : State} (hovf : s.flag .ftOvf = false) (hft : FtWellFormed s.ft) :
    exec .bim s = .next (succeed { s with
      im := (buildIntervals 0 s.ft).1, t := (buildIntervals 0 s.ft).2
      status := putFlag s.status .imV true }) :=
  congrArg (conclude .bim s) (bimBody_ok.2 ⟨hovf, hft, rfl⟩)

end Sys2Proof.Machine

namespace Sys2Proof.Proofs

open Sys2Proof.Machine

/-- Settles O32: on a well-formed table BIM reaches its loop, whose model is valid and so has the closed form. -/
theorem bimBuildsTheCumulativeIntervals : Obligations.BimBuildsTheCumulativeIntervals := by
  intro s hovf hft
  have hmodel := intervalInv_buildIntervals hft.1
  rw [exec_bim_of_wellFormed hovf hft, hmodel.eq_mapIdx, hmodel.total_eq hft.1, succeed_eq, putFlag_imV_succeed]

/-- Settles O33: the ranges are non-empty and end by T (`IntervalInv.bounds`), so none holds a value at or above it, and
below it the sums of the first counts single out one index. -/
theorem intervalsPartitionTheTotal : Obligations.IntervalsPartitionTheTotal := by
  intro s hinv hv
  have hmodel := hinv.model hv
  obtain ⟨-, hft⟩ := hinv.table (by simp [hv])
  have hbounds : ∀ e ∈ s.im, e.low < e.high ∧ e.high ≤ s.t := fun e he =>
    let ⟨hlt, hle, _⟩ := hmodel.bounds hft he
    ⟨hlt, hle⟩
  refine ⟨hbounds, fun v hvt => ?_, fun v hvt e he ⟨_, hhigh⟩ => ?_⟩
  · simp only [hmodel.holds_iff_countRange]
    exact existsUnique_countRange (hmodel.total_eq hft.1 ▸ hvt)
  · obtain ⟨-, hle⟩ := hbounds e he
    omega

end Sys2Proof.Proofs
end

section
/-! PROOFS. AEN (`44_arithmetic_encoder_interval_renorm.md` R175 to R190) completes: from an interval in range each
renormalization step doubles the width and settles or defers one bit, so the loop ends within K steps; it ends with an
interval wide enough that narrowing to any range of a valid model leaves one in range again. -/

namespace Sys2Proof.Machine

/-! ### The interval and the bits of a Coder State -/

/-- The range invariant of R188: a non-empty interval in `[0, r)`. -/
structure InRange (r : Int) (c : Encoder) : Prop where
  nonneg : 0 ≤ c.l
  le : c.l ≤ c.u
  lt : c.u < r

/-- What a renormalization leaves, and what a message starts with: an interval in range to which no case applies
(R189). -/
structure Renormed (r : Int) (c : Encoder) : Prop where
  inRange : InRange r c
  no_case : renormCase r c.l c.u = none

/-- The width `w` of the interval (R178). -/
def Encoder.width (c : Encoder) : Int := c.u - c.l + 1

/-- The bits emitted and those still pending (R190). -/
def Encoder.bitCount (c : Encoder) : Nat := c.out.length + c.m

/-- `Narrow` to the range of an interval (R178). -/
def Encoder.narrowed (t : Int) (e : Interval) (c : Encoder) : Encoder :=
  ⟨(narrow c.l c.u e.low e.high t).1, (narrow c.l c.u e.low e.high t).2, c.m, c.out⟩

theorem InRange.width_bounds {r : Int} {c : Encoder} (h : InRange r c) : 1 ≤ c.width ∧ c.width ≤ r := by
  obtain ⟨hl, hle, hu⟩ := h
  unfold Encoder.width
  omega

/-- R189 in numbers. -/
theorem Renormed.bounds {r : Int} {c : Encoder} (h : Renormed r c) (hr : 4 ∣ r) :
    c.l < r / 2 ∧ r / 2 ≤ c.u ∧ r / 4 + 2 ≤ c.width := by
  obtain ⟨⟨hl, -, hu⟩, hnone⟩ := h
  obtain ⟨hlow, hhigh, hmiddle⟩ := renormCase_none.1 hnone
  unfold Encoder.width
  omega

/-- A Coder State in range is its registers L, U and M with the bits (R188). -/
theorem InRange.eq_toNat {r : Int} {c : Encoder} (h : InRange r c) :
    c = ⟨c.l.toNat, c.u.toNat, c.m, c.out⟩ := by
  obtain ⟨hl, hle, -⟩ := h
  rw [Int.toNat_of_nonneg hl, Int.toNat_of_nonneg (hl.trans hle)]

theorem four_dvd_rangeOf {k : Nat} (hk : 2 ≤ k) : 4 ∣ rangeOf k := ⟨_, (rangeOf_quarters hk).1⟩

/-- R189 as L and U hold it. -/
theorem Renormed.toNat_bounds {k : Nat} {c : Encoder} (h : Renormed (rangeOf k) c) (hk : 2 ≤ k) :
    c.u.toNat < 2 ^ k ∧ c.l.toNat < 2 ^ k / 2 ∧ 2 ^ k / 2 ≤ c.u.toNat ∧ 2 ^ k / 4 + c.l.toNat + 1 ≤ c.u.toNat := by
  obtain ⟨hlow, hhigh, hwidth⟩ := h.bounds (four_dvd_rangeOf hk)
  obtain ⟨⟨hl, -, hu⟩, -⟩ := h
  unfold Encoder.width at hwidth
  unfold rangeOf at hlow hhigh hwidth hu
  omega

theorem encoderStart_eq (k : Nat) : encoderStart k = ⟨0, 2 ^ k - 1, 0, []⟩ := by rw [encoderStart, rangeOf_eq]

theorem renormed_encoderStart {k : Nat} (hk : 2 ≤ k) : Renormed (rangeOf k) (encoderStart k) := by
  have hpos := rangeOf_pos k
  have hr := four_dvd_rangeOf hk
  have hnone : renormCase (rangeOf k) 0 (rangeOf k - 1) = none := renormCase_none.2 (by omega)
  exact ⟨⟨le_rfl, by dsimp only [encoderStart]; omega, by dsimp only [encoderStart]; omega⟩, hnone⟩

/-- Narrowing to a range of a valid model keeps the interval in range: the width is at least T, so the range's two
bounds stay apart (R188, R189). -/
theorem Renormed.narrowed {r : Int} {t : Nat} {c : Encoder} {e : Interval} (h : Renormed r c) (hr : 4 ∣ r)
    (hprec : 4 * (t : Int) ≤ r) (hlow : e.low < e.high) (hhigh : e.high ≤ t) : InRange r (c.narrowed t e) := by
  obtain ⟨-, -, hwidth⟩ := h.bounds hr
  obtain ⟨⟨hl, hle, hu⟩, -⟩ := h
  have ht : 0 < (t : Int) := by omega
  have hstart : 0 ≤ c.width * e.low / t := Int.ediv_nonneg (Int.mul_nonneg (by omega) (by omega)) ht.le
  have hapart : c.width * e.low / t + 1 ≤ c.width * e.high / t := by
    rw [Int.le_ediv_iff_mul_le ht]
    calc (c.width * e.low / t + 1) * t
        = c.width * e.low / t * t + t := by ring
      _ ≤ c.width * e.low + c.width := add_le_add (Int.ediv_mul_le _ ht.ne') (by omega)
      _ = c.width * (e.low + 1) := by ring
      _ ≤ c.width * e.high := Int.mul_le_mul_of_nonneg_left (by omega) (by omega)
  have hlt := (narrow_lt hle hu hlow (Int.ofNat_le.2 hhigh)).2
  unfold Encoder.width at hstart hapart
  refine ⟨?_, ?_, hlt⟩ <;> dsimp only [Encoder.narrowed, narrow] <;> omega

/-! ### One renormalization step -/

/-- One step of `EncRenorm` with no bound on the output (R181 to R183). -/
def encodeShift (r : Int) (e : RenormCase) (c : Encoder) : Encoder :=
  match e with
  | .e1 => ⟨2 * c.l - r, 2 * c.u - r + 1, 0, c.out ++ true :: List.replicate c.m false⟩
  | .e2 => ⟨2 * c.l, 2 * c.u + 1, 0, c.out ++ false :: List.replicate c.m true⟩
  | .e3 => encodeE3 r c

theorem encodeShift_width (r : Int) (e : RenormCase) (c : Encoder) : (encodeShift r e c).width = 2 * c.width := by
  cases e <;> dsimp only [encodeShift, encodeE3, Encoder.width] <;> ring

theorem encodeShift_bitCount (r : Int) (e : RenormCase) (c : Encoder) :
    (encodeShift r e c).bitCount = c.bitCount + 1 := by
  cases e <;> simp [encodeShift, encodeE3, Encoder.bitCount] <;> omega

theorem encodeShift_out_length_le (r : Int) (e : RenormCase) (c : Encoder) :
    c.out.length ≤ (encodeShift r e c).out.length := by
  cases e <;> simp [encodeShift, encodeE3]

theorem InRange.shift {r : Int} {e : RenormCase} {c : Encoder} (h : InRange r c) (hr : 4 ∣ r)
    (he : renormCase r c.l c.u = some e) : InRange r (encodeShift r e c) := by
  obtain ⟨hl, hle, hu⟩ := h
  cases e with
  | e1 =>
    have := renormCase_e1.1 he
    constructor <;> dsimp only [encodeShift] <;> omega
  | e2 =>
    have := renormCase_e2.1 he
    constructor <;> dsimp only [encodeShift] <;> omega
  | e3 =>
    have := renormCase_e3.1 he
    constructor <;> dsimp only [encodeShift, encodeE3] <;> omega

theorem encRenorms_step {r : Int} {e : RenormCase} {c c' : Encoder} (he : renormCase r c.l c.u = some e)
    (h : EncRenorms r (encodeShift r e c) c') : EncRenorms r c c' := by
  cases e with
  | e1 => exact .e1 (renormCase_e1.1 he) h
  | e2 =>
    obtain ⟨hl, hu⟩ := renormCase_e2.1 he
    exact .e2 hl hu h
  | e3 =>
    obtain ⟨hl, hu, hl', hu'⟩ := renormCase_e3.1 he
    exact .e3 hl hu hl' hu' h

theorem encRenorms_done {r : Int} {c : Encoder} (hnone : renormCase r c.l c.u = none) : EncRenorms r c c := by
  obtain ⟨hl, hu, hmiddle⟩ := renormCase_none.1 hnone
  exact .done hl hu hmiddle

/-- Induction over the steps of a renormalization, whichever case each of them is. -/
theorem EncRenorms.induction_steps {r : Int} {c' : Encoder} {motive : ∀ c, EncRenorms r c c' → Prop}
    (done : ∀ hnone : renormCase r c'.l c'.u = none, motive c' (encRenorms_done hnone))
    (step : ∀ {e : RenormCase} {c : Encoder} (he : renormCase r c.l c.u = some e)
      (h : EncRenorms r (encodeShift r e c) c'), motive _ h → motive c (encRenorms_step he h))
    {c : Encoder} (h : EncRenorms r c c') : motive c h := by
  induction h with
  | done hl hu hmiddle => exact done (renormCase_none.2 ⟨hl, hu, hmiddle⟩)
  | e1 hl h ih => exact step (e := .e1) (renormCase_e1.2 hl) h (ih done step)
  | e2 hl hu h ih => exact step (e := .e2) (renormCase_e2.2 ⟨hl, hu⟩) h (ih done step)
  | e3 hl hu hl' hu' h ih => exact step (e := .e3) (renormCase_e3.2 ⟨hl, hu, hl', hu'⟩) h (ih done step)

theorem emit_of_fits {maxBits m : Nat} {out : BitString} {b : Bit}
    (hfit : (out ++ b :: List.replicate m (!b)).length ≤ maxBits) (i : Nat) :
    emit maxBits out b m i = .ok (out ++ b :: List.replicate m (!b)) :=
  emit_eq_ok.2 ⟨by simpa [Nat.add_assoc, Nat.add_comm 1] using hfit, rfl⟩

/-- A step whose output fits is made by the loop of the model. -/
theorem encRenorm_step {maxBits i fuel : Nat} {r : Int} {e : RenormCase} {c : Encoder}
    (he : renormCase r c.l c.u = some e) (hfit : (encodeShift r e c).out.length ≤ maxBits) :
    encRenorm maxBits r i (fuel + 1) c = encRenorm maxBits r i fuel (encodeShift r e c) := by
  rw [encRenorm, he]
  cases e with
  | e1 =>
    dsimp only [encodeE1]
    rw [emit_of_fits (b := true) hfit]
    rfl
  | e2 =>
    dsimp only [encodeE2]
    rw [emit_of_fits (b := false) hfit]
    rfl
  | e3 => rfl

/-! ### The renormalization of one symbol -/

theorem EncRenorms.out_length_le {r : Int} {c c' : Encoder} (h : EncRenorms r c c') :
    c.out.length ≤ c'.out.length := by
  induction h using EncRenorms.induction_steps with
  | done _ => exact le_rfl
  | @step e c _ _ ih => exact (encodeShift_out_length_le r e c).trans ih

/-- Every step doubles the width and settles or defers one bit (R190). -/
theorem EncRenorms.exists_steps {r : Int} {c c' : Encoder} (h : EncRenorms r c c') :
    ∃ j, c'.bitCount = c.bitCount + j ∧ c'.width = 2 ^ j * c.width := by
  induction h using EncRenorms.induction_steps with
  | done _ => exact ⟨0, by simp⟩
  | @step e c _ _ ih =>
    obtain ⟨j, hbits, hwidth⟩ := ih
    rw [encodeShift_bitCount] at hbits
    rw [encodeShift_width] at hwidth
    exact ⟨j + 1, by omega, by rw [hwidth, pow_succ, mul_assoc]⟩

theorem EncRenorms.renormed {r : Int} {c c' : Encoder} (h : EncRenorms r c c') (hr : 4 ∣ r) (hc : InRange r c) :
    Renormed r c' := by
  induction h using EncRenorms.induction_steps with
  | done hnone => exact ⟨hc, hnone⟩
  | step he _ ih => exact ih (hc.shift hr he)

/-- At most K steps: the width, at least 1 before, doubles at each and stays within `2^K` (R190). -/
theorem EncRenorms.bitCount_le_add {k : Nat} {c c' : Encoder} (h : EncRenorms (rangeOf k) c c') (hk : 2 ≤ k)
    (hc : InRange (rangeOf k) c) : c'.bitCount ≤ c.bitCount + k := by
  obtain ⟨j, hbits, hwidth⟩ := h.exists_steps
  have hend := (h.renormed (four_dvd_rangeOf hk) hc).inRange.width_bounds.2
  have hpow : (2 : Int) ^ j ≤ 2 ^ k :=
    calc (2 : Int) ^ j ≤ 2 ^ j * c.width := le_mul_of_one_le_right (by positivity) hc.width_bounds.1
      _ = c'.width := hwidth.symm
      _ ≤ 2 ^ k := rangeOf_eq k ▸ hend
  have hj : j ≤ k := (pow_le_pow_iff_right₀ one_lt_two).1 hpow
  omega

/-- From an interval in range the renormalization ends: its width grows and stays within `r`. -/
theorem exists_encRenorms {r : Int} {c : Encoder} (hr : 4 ∣ r) (hc : InRange r c) : ∃ c', EncRenorms r c c' := by
  induction hn : (r - c.width).toNat using Nat.strong_induction_on generalizing c with
  | _ n ih =>
    cases he : renormCase r c.l c.u with
    | none => exact ⟨c, encRenorms_done he⟩
    | some e =>
      have hc' := hc.shift hr he
      have hwidth := encodeShift_width r e c
      have hpos := hc.width_bounds.1
      have hle := hc'.width_bounds.2
      obtain ⟨c', h⟩ := ih _ (by omega) hc' rfl
      exact ⟨c', encRenorms_step he h⟩

/-- A renormalization whose output fits is the answer of the loop of the model, given a turn for each step and one for
the last test. -/
theorem encRenorm_of_encRenorms {maxBits i fuel : Nat} {r : Int} {c c' : Encoder} (h : EncRenorms r c c')
    (hfit : c'.out.length ≤ maxBits) (hfuel : c'.bitCount < c.bitCount + fuel) :
    encRenorm maxBits r i fuel c = .ok c' := by
  induction h using EncRenorms.induction_steps generalizing fuel with
  | done hnone =>
    obtain ⟨fuel, rfl⟩ := Nat.exists_eq_add_one.2 (Nat.pos_of_lt_add_right hfuel)
    rw [encRenorm, hnone]
  | @step e c he h ih =>
    obtain ⟨j, hbits, -⟩ := h.exists_steps
    rw [encodeShift_bitCount] at hbits
    obtain ⟨fuel, rfl⟩ : ∃ n, fuel = n + 1 := Nat.exists_eq_add_one.2 (by omega)
    rw [encRenorm_step he (h.out_length_le.trans hfit)]
    exact ih (by rw [encodeShift_bitCount]; omega)

/-! ### One symbol -/

section Symbols

variable {im : List Interval} {t k : Nat}

/-- The renormalization after a symbol of a valid model: at most K steps, to an interval about the middle. -/
theorem Renormed.encRenorms_narrowed {c c' : Encoder} {e : Interval} (hc : Renormed (rangeOf k) c) (hk : 2 ≤ k)
    (hprec : 4 * t ≤ 2 ^ k) (hlow : e.low < e.high) (hhigh : e.high ≤ t)
    (h : EncRenorms (rangeOf k) (c.narrowed t e) c') :
    Renormed (rangeOf k) c' ∧ c'.bitCount ≤ c.bitCount + k := by
  have hr := four_dvd_rangeOf hk
  have hin := hc.narrowed hr (by unfold rangeOf; exact_mod_cast hprec) hlow hhigh
  exact ⟨h.renormed hr hin, h.bitCount_le_add hk hin⟩

/-- A symbol whose bits fit is encoded by the model as the relation says. -/
theorem encodeSymbol_of_encRenorms {maxBits i : Nat} {x : Symbol} {c c' : Encoder} {e : Interval}
    (he : lookupInterval im x = some e) (ht : t ≠ 0) (h : EncRenorms (rangeOf k) (c.narrowed t e) c')
    (hfit : c'.out.length ≤ maxBits) (hsteps : c'.bitCount ≤ c.bitCount + k) :
    encodeSymbol im t k maxBits i x c = .ok c' := by
  rw [encodeSymbol, he]
  exact (if_neg ht).trans (encRenorm_of_encRenorms h hfit (Nat.lt_succ_of_le hsteps))

theorem encodeSymbols_unknown {x : Symbol} (hx : lookupInterval im x = none) (maxBits i : Nat) (xs : List Symbol)
    (c : Encoder) : encodeSymbols im t k maxBits i (x :: xs) c = raise .unknownSymbol i x := by
  rw [encodeSymbols, encodeSymbol, hx, raise_bind]

/-! ### The message -/

theorem Encodes.out_length_le {r : Int} {xs : List Symbol} {c c' : Encoder} (h : Encodes im t r xs c c') :
    c.out.length ≤ c'.out.length := by
  induction h with
  | nil => exact le_rfl
  | cons _ hr _ ih => exact hr.out_length_le.trans ih

variable (him : RangesWithin im t) (hk : 2 ≤ k) (hprec : 4 * t ≤ 2 ^ k)
include him hk hprec

/-- A message takes a renormalized interval to one, with at most K bits for each symbol (R189, R190). -/
theorem Encodes.renormed {xs : List Symbol} {c c' : Encoder} (h : Encodes im t (rangeOf k) xs c c')
    (hc : Renormed (rangeOf k) c) : Renormed (rangeOf k) c' ∧ c'.bitCount ≤ c.bitCount + xs.length * k := by
  induction h with
  | nil => exact ⟨hc, by simp⟩
  | cons he hr _ ih =>
    obtain ⟨hlow, hhigh⟩ := him _ (List.mem_of_find?_eq_some he)
    obtain ⟨hc', hone⟩ := hc.encRenorms_narrowed hk hprec hlow (Int.ofNat_le.1 hhigh) hr
    obtain ⟨hend, hrest⟩ := ih hc'
    refine ⟨hend, ?_⟩
    rw [List.length_cons, Nat.succ_mul]
    omega

/-- Every message of symbols of the model has an encoding. -/
theorem exists_encodes {xs : List Symbol} {c : Encoder} (hxs : ∀ x ∈ xs, ∃ e ∈ im, e.sym = x)
    (hc : Renormed (rangeOf k) c) : ∃ c', Encodes im t (rangeOf k) xs c c' := by
  induction xs generalizing c with
  | nil => exact ⟨c, .nil⟩
  | cons x xs ih =>
    obtain ⟨hx, hxs⟩ := List.forall_mem_cons.1 hxs
    obtain ⟨e, he⟩ : ∃ e, lookupInterval im x = some e :=
      Option.isSome_iff_exists.1 (List.find?_isSome.2 (by simpa using hx))
    obtain ⟨hlow, hhigh⟩ := him _ (List.mem_of_find?_eq_some he)
    have hhigh := Int.ofNat_le.1 hhigh
    have hr := four_dvd_rangeOf hk
    obtain ⟨c₁, h₁⟩ :=
      exists_encRenorms hr (hc.narrowed hr (by unfold rangeOf; exact_mod_cast hprec) hlow hhigh)
    obtain ⟨c', h⟩ := ih hxs (hc.encRenorms_narrowed hk hprec hlow hhigh h₁).1
    exact ⟨c', .cons he h₁ h⟩

/-- The loop of the model goes over the symbols `xs` as the relation says when their bits fit, and on behind them. -/
theorem encodeSymbols_append {maxBits i : Nat} {xs : List Symbol} {c c' : Encoder}
    (h : Encodes im t (rangeOf k) xs c c') (hc : Renormed (rangeOf k) c) (hfit : c'.out.length ≤ maxBits)
    (ys : List Symbol) :
    encodeSymbols im t k maxBits i (xs ++ ys) c = encodeSymbols im t k maxBits (i + xs.length) ys c' := by
  induction h generalizing i with
  | nil => rfl
  | @cons x xs e c c₁ c' he hr htail ih =>
    obtain ⟨hlow, hhigh⟩ := him _ (List.mem_of_find?_eq_some he)
    obtain ⟨hc₁, hsteps⟩ := hc.encRenorms_narrowed hk hprec hlow (Int.ofNat_le.1 hhigh) hr
    have hone : encodeSymbol im t k maxBits i x c = .ok c₁ :=
      encodeSymbol_of_encRenorms he (by omega) hr (htail.out_length_le.trans hfit) hsteps
    rw [List.cons_append, encodeSymbols, hone, ok_bind, ih hc₁ hfit, List.length_cons, Nat.add_assoc, Nat.add_comm 1]

end Symbols

/-! ### The flush -/

theorem flushedBits_length (r : Int) (c : Encoder) : (flushedBits r c).length = c.bitCount + 2 := by
  unfold flushedBits Encoder.bitCount
  split <;> simp <;> omega

theorem flush_of_fits {maxBits : Nat} {r : Int} {c : Encoder} (hfit : c.bitCount + 2 ≤ maxBits) (pos : Nat) :
    flush maxBits r c pos = .ok (flushedBits r c) := by
  unfold Encoder.bitCount at hfit
  unfold flush flushedBits
  rw [if_neg (Nat.not_lt.2 hfit)]
  split <;> simp

/-! ### The command -/

/-- A fault of a command's body is its outcome. -/
theorem exec_of_commandBody_raise {i : Instr} {s : State} {err : ErrCode} {pos : Nat} {sym : Symbol}
    (h : commandBody i s = raise err pos sym) : exec i s = .next (faultOutcome i err pos sym s) := by
  rw [exec_eq_conclude, h, conclude_raise, takeFault_eq_faultOutcome]

section Command

variable {s : State} (hv : s.flag .imV = true) (hovf : s.flag .symOvf = false) (hk : s.k.toNat ≤ s.params.kMax)
  (hprec : 4 * s.t ≤ 2 ^ s.k.toNat)
include hv hovf hk hprec

/-- AEN on a message that the loop encodes, with bits that fit. -/
theorem exec_aen_of_loop {c : Encoder}
    (hloop : encodeSymbols s.im s.t s.k.toNat s.params.maxBits 0 s.symIn (encoderStart s.k.toNat) = .ok c)
    (hfit : c.bitCount + 2 ≤ s.params.maxBits) :
    exec .aen s = .next { s with
      bitOut := flushedBits (2 ^ s.k.toNat) c, l := c.l.toNat, u := c.u.toNat, m := c.m, sympos := s.symIn.length
      bitpos := (flushedBits (2 ^ s.k.toNat) c).length
      status := s.status &&& 0xF0FF#16, errpos := 0, errsym := 0 } := by
  have hbody := aenBody_ok.2 ⟨hv, hovf, hk, hprec, c, _, hloop, flush_of_fits hfit _, rfl⟩
  have hexec := congrArg (conclude .aen s) hbody
  rw [conclude_ok, succeed_eq, rangeOf_eq] at hexec
  exact hexec

/-- A fault of the loop is the fault of AEN. -/
theorem exec_aen_raise {err : ErrCode} {pos : Nat} {sym : Symbol}
    (hloop : encodeSymbols s.im s.t s.k.toNat s.params.maxBits 0 s.symIn (encoderStart s.k.toNat) =
      raise err pos sym) :
    exec .aen s = .next (faultOutcome .aen err pos sym s) := by
  refine exec_of_commandBody_raise (i := .aen) ?_
  have hk' : decide (s.precision ≤ s.params.kMax) = true := decide_eq_true hk
  have hprec' : precOk s.precision s.t = true := (precOk_iff _ _).2 hprec
  change aenBody s = _
  rw [aenBody, hv, hovf, hk', hprec']
  change (encodeSymbols s.im s.t s.k.toNat s.params.maxBits 0 s.symIn (encoderStart s.k.toNat) >>= _) = _
  rw [hloop, raise_bind]

end Command

end Sys2Proof.Machine

namespace Sys2Proof.Proofs

open Sys2Proof.Machine

/-- Settles O34: the message has an encoding, which leaves the interval about the middle and has at most K bits for each
symbol, so the loop and the flush of the model give it. -/
theorem aenCompletesWithinItsBounds : Obligations.AenCompletesWithinItsBounds := by
  intro s hinv hv hovf hk hprec hsyms hmax
  have him := hinv.rangesWithin hv
  have hk2 : 2 ≤ s.k.toNat := hinv.two_le_precision hv hprec
  have hstart := renormed_encoderStart hk2
  obtain ⟨c, henc⟩ := exists_encodes him hk2 hprec hsyms hstart
  obtain ⟨hend, hbits⟩ := henc.renormed him hk2 hprec hstart
  have hzero : (encoderStart s.k.toNat).bitCount = 0 := rfl
  have hcount : c.bitCount = c.out.length + c.m := rfl
  have hloop := encodeSymbols_append him hk2 hprec (i := 0) henc hstart (maxBits := s.params.maxBits) (by omega) []
  rw [List.append_nil] at hloop
  obtain ⟨hu, hl, hu', hwidth⟩ := hend.toNat_bounds hk2
  have hlen := flushedBits_length (2 ^ s.k.toNat) c
  have hc := hend.inRange.eq_toNat
  have henc' : Encodes s.im s.t (2 ^ s.k.toNat) s.symIn ⟨0, 2 ^ s.k.toNat - 1, 0, []⟩ c := by
    rwa [encoderStart_eq, rangeOf_eq] at henc
  exact ⟨c.l.toNat, c.u.toNat, c.m, c.out, _, hc ▸ henc', congrArg _ hc,
    exec_aen_of_loop hv hovf hk hprec hloop (by omega), by omega, by omega, hu, hl, hu', hwidth⟩

/-- Settles O36: the symbols before the unknown one have an encoding, and it fits, so the loop reaches that symbol. -/
theorem aenFaultsAtTheFirstUnknownSymbol : Obligations.AenFaultsAtTheFirstUnknownSymbol := by
  intro s xs ys x hinv hv hovf hk hprec hmessage hxs hx hfit
  have him := hinv.rangesWithin hv
  have hk2 : 2 ≤ s.k.toNat := hinv.two_le_precision hv hprec
  have hstart := renormed_encoderStart hk2
  obtain ⟨c, henc⟩ := exists_encodes him hk2 hprec hxs hstart
  have hfits : c.out.length ≤ s.params.maxBits := hfit c (by rwa [encoderStart_eq, rangeOf_eq] at henc)
  have hreach := encodeSymbols_append him hk2 hprec (i := 0) henc hstart hfits (x :: ys)
  have hnone : lookupInterval s.im x = none := List.find?_eq_none.2 fun e he => by simpa using hx e he
  rw [encodeSymbols_unknown hnone, ← hmessage, Nat.zero_add] at hreach
  exact exec_aen_raise hv hovf hk hprec hreach

/-- Settles O35: the loop answers the start of a message, whose lower bound is below `R/4`, so the flush gives `01`. -/
theorem aenOnTheEmptyMessage : Obligations.AenOnTheEmptyMessage := by
  intro s hv hovf hk ht hprec hempty hmax
  have hloop : encodeSymbols s.im s.t s.k.toNat s.params.maxBits 0 s.symIn (encoderStart s.k.toNat) =
      .ok (encoderStart s.k.toNat) := by rw [hempty]; rfl
  have hquarter : ¬ (2 : Int) ^ s.k.toNat / 4 ≤ 0 := by
    have : (4 : Int) * s.t ≤ 2 ^ s.k.toNat := by exact_mod_cast hprec
    omega
  have hflush : flushedBits (2 ^ s.k.toNat) (encoderStart s.k.toNat) = [false, true] := if_neg hquarter
  have hu : (encoderStart s.k.toNat).u.toNat = 2 ^ s.k.toNat - 1 := by
    dsimp only [encoderStart, rangeOf]
    omega
  have hexec := exec_aen_of_loop hv hovf hk hprec hloop hmax
  rw [hflush, hu, List.length_eq_zero_iff.2 hempty] at hexec
  exact hexec

end Sys2Proof.Proofs
end

section
/-! PROOFS. ADE (`45_arithmetic_decoder_inverse_renorm.md` R200 to R210) in lock-step with AEN. Whatever the stream, the
decoder's window is the number read so far less the part of it that the encoder of the symbols found so far has settled
(`Encoder.lockstep`). A renormalization step and a narrowing keep that relation, and the window is in the new interval
exactly when it was in the old one and, for a narrowing, the value of R203 is in the range of the symbol. Read forwards
this gives R208 and R209, read backwards from the flush the round trip of R210. -/

namespace Sys2Proof.Machine

/-! ### The stream as a number -/

theorem streamWindow_succ (bits : BitString) (n : Nat) :
    streamWindow bits (n + 1) = 2 * streamWindow bits n + streamBit bits n := by
  have hdouble : ∀ p ∈ List.range n, streamBit bits p * 2 ^ (n - p) = 2 * (streamBit bits p * 2 ^ (n - 1 - p)) := by
    intro p hp
    have hlt := List.mem_range.1 hp
    rw [show n - p = n - 1 - p + 1 by omega, pow_succ]
    ring
  unfold streamWindow
  rw [List.range_succ, List.map_append, List.sum_append, Nat.add_sub_cancel, List.map_congr_left hdouble,
    List.sum_map_mul_left]
  simp

theorem streamBit_le_one (bits : BitString) (p : Nat) : streamBit bits p ≤ 1 := by
  unfold streamBit
  split <;> omega

/-- `j` more bits leave the number between its value and the next, scaled. -/
theorem streamWindow_add_bounds (bits : BitString) (n j : Nat) :
    streamWindow bits n * 2 ^ j ≤ streamWindow bits (n + j) ∧
      streamWindow bits (n + j) < (streamWindow bits n + 1) * 2 ^ j := by
  induction j with
  | zero => simp
  | succ j ih =>
    have hbit := streamBit_le_one bits (n + j)
    rw [← Nat.add_assoc, streamWindow_succ, pow_succ, ← Nat.mul_assoc, ← Nat.mul_assoc]
    omega

theorem streamWindow_lt (bits : BitString) (k : Nat) : streamWindow bits k < 2 ^ k :=
  initWindow_eq bits k ▸ initWindow_lt bits k

/-- Bits behind the first `n` do not matter to their number. -/
theorem streamWindow_append {bits : BitString} {n : Nat} (hn : n ≤ bits.length) (tail : BitString) :
    streamWindow (bits ++ tail) n = streamWindow bits n := by
  unfold streamWindow
  congr 1
  refine List.map_congr_left fun p hp => ?_
  have hp := List.mem_range.1 hp
  simp only [streamBit, List.getElem?_append_left (hp.trans_le hn)]

/-- The bits as a binary number, the first the most significant. -/
def bitsValue (bits : BitString) : Nat := streamWindow bits bits.length

theorem bitsValue_concat (bits : BitString) (b : Bit) : bitsValue (bits ++ [b]) = 2 * bitsValue bits + bitValue b := by
  have hbit : streamBit (bits ++ [b]) bits.length = bitValue b := by cases b <;> simp [streamBit, bitValue]
  rw [bitsValue, List.length_append, List.length_singleton, streamWindow_succ, streamWindow_append le_rfl, hbit,
    bitsValue]

/-- A `1` and the pending bits `0` (R181). -/
theorem bitsValue_emit_true (out : BitString) (m : Nat) :
    bitsValue (out ++ true :: List.replicate m false) = (2 * bitsValue out + 1) * 2 ^ m := by
  induction m with
  | zero => simp [bitsValue_concat, bitValue]
  | succ m ih =>
    rw [List.replicate_succ', ← List.cons_append, ← List.append_assoc, bitsValue_concat, ih, pow_succ]
    simp only [bitValue, Bool.false_eq_true, if_false]
    ring

/-- A `0` and the pending bits `1` (R182). -/
theorem bitsValue_emit_false (out : BitString) (m : Nat) :
    bitsValue (out ++ false :: List.replicate m true) + 1 = (2 * bitsValue out + 1) * 2 ^ m := by
  induction m with
  | zero => simp [bitsValue_concat, bitValue]
  | succ m ih =>
    rw [List.replicate_succ', ← List.cons_append, ← List.append_assoc, bitsValue_concat, pow_succ, ← Nat.mul_assoc, ← ih]
    simp only [bitValue, if_true]
    ring

/-! ### The decoder in lock-step with an encoder -/

/-- What the bits emitted and pending have taken off the stream's number: each emitted bit stands for `r` and each
pending one for `r/2`, doubled by every later step (R181 to R183). -/
def Encoder.settled (r : Int) (c : Encoder) : Int :=
  r * (bitsValue c.out * 2 ^ c.m) + r / 2 * (2 ^ c.m - 1)

/-- The decoder that has found the symbols of the encoder `c`: its interval, a bit read for each bit settled or deferred,
and the rest of the stream's number as window (R205, R206). -/
def Encoder.lockstep (bits : BitString) (k : Nat) (c : Encoder) : Decoder :=
  ⟨c.l, c.u, streamWindow bits (k + c.bitCount) - c.settled (rangeOf k), k + c.bitCount⟩

/-- The window invariant of R208. -/
def Decoder.InWindow (d : Decoder) : Prop := d.l ≤ d.code ∧ d.code ≤ d.u

/-- A decoder with its window in an interval in range is its registers L, U, CODE and BITPOS (R208). -/
theorem Decoder.eq_toNat {d : Decoder} (hl : 0 ≤ d.l) (hw : d.InWindow) :
    d = ⟨d.l.toNat, d.u.toNat, d.code.toNat, d.pos⟩ := by
  obtain ⟨hlow, hhigh⟩ := hw
  rw [Int.toNat_of_nonneg hl, Int.toNat_of_nonneg (hl.trans hlow), Int.toNat_of_nonneg (hl.trans (hlow.trans hhigh))]

theorem lockstep_encoderStart (bits : BitString) (k : Nat) :
    (encoderStart k).lockstep bits k = decoderStart bits k := by
  have hsettled : (encoderStart k).settled (rangeOf k) = 0 := by
    simp [encoderStart, Encoder.settled, bitsValue, streamWindow]
  rw [Encoder.lockstep, hsettled, decoderStart, initWindow_eq, Int.sub_zero]
  rfl

theorem decoderStart_eq (bits : BitString) (k : Nat) :
    decoderStart bits k = ⟨0, 2 ^ k - 1, streamWindow bits k, k⟩ := by
  rw [decoderStart, rangeOf_eq, initWindow_eq]

theorem inWindow_decoderStart (bits : BitString) (k : Nat) : (decoderStart bits k).InWindow := by
  have hlt := streamWindow_lt bits k
  rw [decoderStart, initWindow_eq]
  constructor <;> dsimp only [rangeOf] <;> omega

/-- Both units take the same offset off and double (R206). -/
theorem encodeShift_bounds {r : Int} (hr : 4 ∣ r) (e : RenormCase) (c : Encoder) :
    (encodeShift r e c).l = 2 * (c.l - renormOffset r e) ∧
      (encodeShift r e c).u = 2 * (c.u - renormOffset r e) + 1 := by
  cases e <;> constructor <;> dsimp only [encodeShift, encodeE3, renormOffset] <;> omega

theorem encodeShift_settled {r : Int} (hr : 4 ∣ r) (e : RenormCase) (c : Encoder) :
    (encodeShift r e c).settled r = 2 * (c.settled r + renormOffset r e) := by
  obtain ⟨q, rfl⟩ := hr
  have hhalf : 4 * q / 2 = 2 * q := by omega
  have hquarter : 4 * q / 4 = q := by omega
  unfold Encoder.settled
  rw [hhalf]
  cases e with
  | e1 =>
    dsimp only [encodeShift, renormOffset]
    rw [bitsValue_emit_true, hhalf]
    push_cast
    ring
  | e2 =>
    have hbits : (bitsValue (c.out ++ false :: List.replicate c.m true) : Int) =
        (2 * bitsValue c.out + 1) * 2 ^ c.m - 1 := eq_sub_of_add_eq (by exact_mod_cast bitsValue_emit_false c.out c.m)
    dsimp only [encodeShift, renormOffset]
    rw [hbits]
    ring
  | e3 =>
    dsimp only [encodeShift, encodeE3, renormOffset]
    rw [hquarter, pow_succ]
    ring

theorem decRenorm_done {r : Int} {d : Decoder} (hnone : renormCase r d.l d.u = none) (bits : BitString) (fuel : Nat) :
    decRenorm bits r (fuel + 1) d = .ok d := by
  rw [decRenorm, hnone]

theorem decRenorm_step {r : Int} {d : Decoder} {e : RenormCase} (he : renormCase r d.l d.u = some e) {bits : BitString}
    {fuel : Nat} : decRenorm bits r (fuel + 1) d = decRenorm bits r fuel (decodeShift bits r e d) := by
  rw [decRenorm, he]

section Lockstep

variable {bits : BitString} {k : Nat} (hk : 2 ≤ k)
include hk

theorem lockstep_encodeShift_code (e : RenormCase) (c : Encoder) :
    ((encodeShift (rangeOf k) e c).lockstep bits k).code =
      2 * ((c.lockstep bits k).code - renormOffset (rangeOf k) e) + streamBit bits (k + c.bitCount) := by
  dsimp only [Encoder.lockstep]
  rw [encodeShift_settled (four_dvd_rangeOf hk), encodeShift_bitCount, ← Nat.add_assoc, streamWindow_succ]
  push_cast
  ring

/-- A step neither brings the window into the interval nor takes it out (R208). -/
theorem inWindow_encodeShift (e : RenormCase) (c : Encoder) :
    ((encodeShift (rangeOf k) e c).lockstep bits k).InWindow ↔ (c.lockstep bits k).InWindow := by
  obtain ⟨hl, hu⟩ := encodeShift_bounds (four_dvd_rangeOf hk) e c
  have hbit := streamBit_le_one bits (k + c.bitCount)
  unfold Decoder.InWindow
  rw [lockstep_encodeShift_code hk]
  dsimp only [Encoder.lockstep]
  rw [hl, hu]
  omega

/-- With the window in the interval, one step of each unit keeps the two in lock-step: the reduction modulo `R` changes
nothing (R208). -/
theorem decodeShift_lockstep {e : RenormCase} {c : Encoder} (hin : InRange (rangeOf k) (encodeShift (rangeOf k) e c))
    (hw : (c.lockstep bits k).InWindow) :
    decodeShift bits (rangeOf k) e (c.lockstep bits k) = (encodeShift (rangeOf k) e c).lockstep bits k := by
  obtain ⟨hl, hu⟩ := encodeShift_bounds (four_dvd_rangeOf hk) e c
  obtain ⟨hlow, hhigh⟩ := (inWindow_encodeShift hk e c).2 hw
  have hcode := lockstep_encodeShift_code (bits := bits) hk e c
  have hmod : ((encodeShift (rangeOf k) e c).lockstep bits k).code % rangeOf k =
      ((encodeShift (rangeOf k) e c).lockstep bits k).code :=
    Int.emod_eq_of_lt (hin.nonneg.trans hlow) (hhigh.trans_lt hin.lt)
  rw [hcode] at hmod
  rw [decodeShift_eq]
  refine (Decoder.mk.injEq ..).mpr ⟨hl.symm, hu.symm, hmod.trans hcode.symm, ?_⟩
  rw [encodeShift_bitCount]
  rfl

/-- The renormalization of a symbol keeps the window in the interval or out of it, whichever it was. -/
theorem EncRenorms.inWindow_iff {c c' : Encoder} (h : EncRenorms (rangeOf k) c c') :
    (c'.lockstep bits k).InWindow ↔ (c.lockstep bits k).InWindow := by
  induction h using EncRenorms.induction_steps with
  | done _ => exact Iff.rfl
  | @step e c _ _ ih => exact ih.trans (inWindow_encodeShift hk e c)

/-- With the window in the interval, the two units renormalize in lock-step (R206), given a turn of the decoder's loop for
each step and one for the last test. -/
theorem decRenorm_lockstep {fuel : Nat} {c c' : Encoder} (h : EncRenorms (rangeOf k) c c') (hin : InRange (rangeOf k) c)
    (hw : (c.lockstep bits k).InWindow) (hfuel : c'.bitCount < c.bitCount + fuel) :
    decRenorm bits (rangeOf k) fuel (c.lockstep bits k) = .ok (c'.lockstep bits k) := by
  induction h using EncRenorms.induction_steps generalizing fuel with
  | done hnone =>
    obtain ⟨fuel, rfl⟩ := Nat.exists_eq_add_one.2 (Nat.pos_of_lt_add_right hfuel)
    exact decRenorm_done hnone bits fuel
  | @step e c he h ih =>
    obtain ⟨j, hbits, -⟩ := h.exists_steps
    rw [encodeShift_bitCount] at hbits
    obtain ⟨fuel, rfl⟩ : ∃ n, fuel = n + 1 := Nat.exists_eq_add_one.2 (by omega)
    have hin' := hin.shift (four_dvd_rangeOf hk) he
    rw [decRenorm_step he, decodeShift_lockstep hk hin' hw]
    exact ih hin' ((inWindow_encodeShift hk e c).2 hw) (by rw [encodeShift_bitCount]; omega)

end Lockstep

/-! ### Narrowing and the value of R203 -/

/-- A narrowed interval holds `code` exactly when the value of R203 lies in the range narrowed to (R208). -/
theorem narrow_holds_iff {l u t : Int} (ht : 0 < t) (hle : l ≤ u) (code low high : Int) :
    (narrow l u low high t).1 ≤ code ∧ code ≤ (narrow l u low high t).2 ↔
      low ≤ valueOf code l u t ∧ valueOf code l u t < high := by
  have hw : 0 < u - l + 1 := by omega
  have hlow : low ≤ valueOf code l u t ↔ (u - l + 1) * low / t < code - l + 1 := by
    rw [valueOf, Int.le_ediv_iff_mul_le hw, Int.ediv_lt_iff_lt_mul ht, Int.mul_comm low]
    omega
  have hhigh : valueOf code l u t < high ↔ code - l + 1 ≤ (u - l + 1) * high / t := by
    rw [valueOf, Int.ediv_lt_iff_lt_mul hw, Int.le_ediv_iff_mul_le ht, Int.mul_comm high]
    omega
  rw [hlow, hhigh]
  dsimp only [narrow]
  omega

/-- The value is below the total exactly when the window is in the interval (R203, R208): all of `[0, t)` narrows to the
interval itself. -/
theorem inWindow_iff_value {d : Decoder} {t : Int} (ht : 0 < t) (hle : d.l ≤ d.u) :
    d.InWindow ↔ 0 ≤ valueOf d.code d.l d.u t ∧ valueOf d.code d.l d.u t < t := by
  rw [← narrow_holds_iff ht hle]
  dsimp only [narrow]
  rw [Int.mul_zero, Int.zero_ediv, Int.mul_ediv_cancel _ ht.ne', Decoder.InWindow]
  omega

theorem inWindow_narrowed_iff {bits : BitString} {k : Nat} {t : Int} {c : Encoder} (ht : 0 < t) (hle : c.l ≤ c.u)
    (e : Interval) :
    ((c.narrowed t e).lockstep bits k).InWindow ↔
      e.low ≤ valueOf (c.lockstep bits k).code c.l c.u t ∧ valueOf (c.lockstep bits k).code c.l c.u t < e.high :=
  narrow_holds_iff ht hle (c.lockstep bits k).code e.low e.high

/-! ### Finding the symbol -/

theorem findInterval_some {im : List Interval} {v : Int} {e : Interval} (h : findInterval im v = some e) :
    e ∈ im ∧ e.low ≤ v ∧ v < e.high :=
  ⟨List.mem_of_find?_eq_some h, by simpa using List.find?_some h⟩

section Model

variable {ft : List FtEntry} {im : List Interval} {t : Nat} (hmodel : IntervalInv ft im t)
include hmodel

/-- No value lies in two ranges of a valid model (`43_interval_model.md` R167). -/
theorem IntervalInv.eq_of_holds {d e : Interval} (hd : d ∈ im) (he : e ∈ im) {v : Int} (hdv : d.low ≤ v ∧ v < d.high)
    (hev : e.low ≤ v ∧ v < e.high) : d = e := by
  obtain ⟨v, rfl⟩ := Int.eq_ofNat_of_zero_le (show 0 ≤ v by omega)
  obtain ⟨i, hi⟩ := List.mem_iff_getElem?.1 hd
  obtain ⟨j, hj⟩ := List.mem_iff_getElem?.1 he
  have hci := (hmodel.holds_iff_countRange v i).1 ⟨d, hi, by omega, by omega⟩
  have hcj := (hmodel.holds_iff_countRange v j).1 ⟨e, hj, by omega, by omega⟩
  obtain rfl := Nat.le_antisymm (hcj.le hci) (hci.le hcj)
  exact Option.some.inj (hi.symm.trans hj)

theorem IntervalInv.findInterval_of_mem {e : Interval} (he : e ∈ im) {v : Int} (hev : e.low ≤ v ∧ v < e.high) :
    findInterval im v = some e := by
  obtain ⟨d, hd⟩ : ∃ d, findInterval im v = some d :=
    Option.isSome_iff_exists.1 (List.find?_isSome.2 ⟨e, he, by simpa using hev⟩)
  obtain ⟨hmem, hdv⟩ := findInterval_some hd
  rw [hd, hmodel.eq_of_holds hmem he hdv hev]

theorem IntervalInv.total_pos (him : RangesWithin im t) : 0 < t := by
  obtain ⟨e, he, rfl⟩ := Option.map_eq_some_iff.1 hmodel.total
  exact Nat.zero_lt_of_lt (him e (List.mem_of_getLast? he)).1

/-- Every value below the total is found (R209). -/
theorem IntervalInv.exists_findInterval (hne : ft ≠ []) {v : Int} (hv : 0 ≤ v ∧ v < t) :
    ∃ e, findInterval im v = some e := by
  obtain ⟨v, rfl⟩ := Int.eq_ofNat_of_zero_le hv.1
  have htotal := hmodel.total_eq hne
  obtain ⟨i, hi⟩ := exists_countRange (ft := ft) (v := v) (by omega)
  obtain ⟨e, he, hlow, hhigh⟩ := (hmodel.holds_iff_countRange v i).2 hi
  exact ⟨e, hmodel.findInterval_of_mem (List.mem_of_getElem? he) (by omega)⟩

end Model

/-! ### The symbols -/

section Symbols

variable {im : List Interval} {t k : Nat} {bits : BitString} (him : RangesWithin im t) (hk : 2 ≤ k)
  (hprec : 4 * t ≤ 2 ^ k)
include him hk hprec

theorem Renormed.narrowed_of_mem {c : Encoder} {e : Interval} (hc : Renormed (rangeOf k) c) (he : e ∈ im) :
    InRange (rangeOf k) (c.narrowed t e) := by
  obtain ⟨hlow, hhigh⟩ := him e he
  exact hc.narrowed (four_dvd_rangeOf hk) (by unfold rangeOf; exact_mod_cast hprec) hlow (Int.ofNat_le.1 hhigh)

/-- The decoder decodes the symbol that it finds, in lock-step with an encoder of that symbol. -/
theorem decodeSymbol_lockstep {i : Nat} {c c' : Encoder} {e : Interval} (hc : Renormed (rangeOf k) c)
    (he : findInterval im (valueOf (c.lockstep bits k).code c.l c.u t) = some e)
    (h : EncRenorms (rangeOf k) (c.narrowed t e) c') :
    decodeSymbol im t k bits i (c.lockstep bits k) = .ok (e.sym, c'.lockstep bits k) := by
  obtain ⟨hmem, hev⟩ := findInterval_some he
  obtain ⟨hlow, hhigh⟩ := him e hmem
  have hin := hc.narrowed_of_mem him hk hprec hmem
  have hw : ((c.narrowed t e).lockstep bits k).InWindow :=
    (inWindow_narrowed_iff (by omega) hc.inRange.le e).2 hev
  have hloop := decRenorm_lockstep hk h hin hw (fuel := k + 1) (Nat.lt_succ_of_le (h.bitCount_le_add hk hin))
  have ht : t ≠ 0 := by omega
  unfold decodeSymbol
  dsimp only [Encoder.lockstep] at he ⊢
  rw [he]
  dsimp only
  rw [if_neg ht]
  exact congrArg (· >>= _) hloop

/-- From a window in the interval any number of symbols is decoded, without a fault, with at most K bits for each (R208,
R209). -/
theorem exists_decodeSymbols {ft : List FtEntry} (hmodel : IntervalInv ft im t) (hne : ft ≠ []) {n i : Nat} {c : Encoder}
    (acc : List Symbol) (hc : Renormed (rangeOf k) c) (hw : (c.lockstep bits k).InWindow) :
    ∃ out c', decodeSymbols im t k bits n i (c.lockstep bits k) acc = .ok (c'.lockstep bits k, out) ∧
      Renormed (rangeOf k) c' ∧ (c'.lockstep bits k).InWindow ∧ c'.bitCount ≤ c.bitCount + n * k := by
  induction n generalizing i c acc with
  | zero => exact ⟨acc, c, rfl, hc, hw, by simp⟩
  | succ n ih =>
    have hpos : 0 < (t : Int) := Int.natCast_pos.2 (hmodel.total_pos him)
    obtain ⟨e, he⟩ := hmodel.exists_findInterval hne ((inWindow_iff_value hpos hc.inRange.le).1 hw)
    obtain ⟨hmem, hev⟩ := findInterval_some he
    obtain ⟨hlow, hhigh⟩ := him e hmem
    obtain ⟨c₁, h₁⟩ := exists_encRenorms (four_dvd_rangeOf hk) (hc.narrowed_of_mem him hk hprec hmem)
    obtain ⟨hc₁, hone⟩ := hc.encRenorms_narrowed hk hprec hlow (Int.ofNat_le.1 hhigh) h₁
    have hw₁ := (h₁.inWindow_iff hk).2 ((inWindow_narrowed_iff hpos hc.inRange.le e).2 hev)
    obtain ⟨out, c', hrest, hc', hw', hbits⟩ := ih (i := i + 1) (acc ++ [e.sym]) hc₁ hw₁
    refine ⟨out, c', ?_, hc', hw', ?_⟩
    · rw [decodeSymbols, decodeSymbol_lockstep him hk hprec hc he h₁]
      exact hrest
    · rw [Nat.succ_mul]
      omega

/-- The decoder finds the symbols of an encoding in whose last interval the window lies: it lay in every interval
before. -/
theorem Encodes.decodeSymbols_lockstep {ft : List FtEntry} (hmodel : IntervalInv ft im t) {xs : List Symbol}
    {c c' : Encoder}
    (h : Encodes im t (rangeOf k) xs c c') (hc : Renormed (rangeOf k) c) (hw : (c'.lockstep bits k).InWindow) :
    (c.lockstep bits k).InWindow ∧ ∀ (i : Nat) (acc : List Symbol),
      decodeSymbols im t k bits xs.length i (c.lockstep bits k) acc = .ok (c'.lockstep bits k, acc ++ xs) := by
  induction h with
  | nil => exact ⟨hw, fun _ acc => by rw [List.append_nil]; rfl⟩
  | @cons x xs e c c₁ c' he h₁ _ ih =>
    have hmem := List.mem_of_find?_eq_some he
    obtain ⟨hlow, hhigh⟩ := him e hmem
    obtain ⟨hw₁, hrest⟩ := ih (hc.encRenorms_narrowed hk hprec hlow (Int.ofNat_le.1 hhigh) h₁).1 hw
    have hsym : e.sym = x := by simpa using List.find?_some he
    have hev := (inWindow_narrowed_iff (by omega) hc.inRange.le e).1 ((h₁.inWindow_iff hk).1 hw₁)
    refine ⟨(inWindow_iff_value (by omega) hc.inRange.le).2 ⟨(Int.natCast_nonneg _).trans hev.1, hev.2.trans_le hhigh⟩,
      fun i acc => ?_⟩
    rw [List.length_cons, decodeSymbols,
      decodeSymbol_lockstep him hk hprec hc (hmodel.findInterval_of_mem hmem hev) h₁, ok_bind, hrest, hsym,
      List.append_assoc]
    rfl

end Symbols

/-! ### The flush -/

theorem bitsValue_flushedBits (r : Int) (c : Encoder) :
    bitsValue (flushedBits r c) + (if r / 4 ≤ c.l then 0 else 1) = 2 * ((2 * bitsValue c.out + 1) * 2 ^ c.m) := by
  unfold flushedBits
  split
  · rw [← List.append_assoc, bitsValue_concat, bitsValue_emit_true]
    simp [bitValue]
  · rw [← List.append_assoc, bitsValue_concat, ← bitsValue_emit_false]
    simp only [bitValue, if_true]
    ring

/-- After the flushed bits the window is in the last interval, whatever bits follow
(`44_arithmetic_encoder_interval_renorm.md` R187): it is in the second quarter of `[0, r)` after `01` and in the third
after `10`. -/
theorem Renormed.inWindow_flushedBits {k : Nat} {c : Encoder} (hc : Renormed (rangeOf k) c) (hk : 2 ≤ k)
    (tail : BitString) : (c.lockstep (flushedBits (rangeOf k) c ++ tail) k).InWindow := by
  obtain ⟨j, rfl⟩ := Nat.exists_eq_add_of_le hk
  obtain ⟨hlow, hhigh, hmiddle⟩ := renormCase_none.1 hc.no_case
  have hr : rangeOf (2 + j) = 4 * 2 ^ j := by rw [rangeOf_eq, pow_add]; rfl
  have hq : (0 : Int) < 2 ^ j := by positivity
  have hlen := flushedBits_length (rangeOf (2 + j)) c
  have hread : streamWindow (flushedBits (rangeOf (2 + j)) c ++ tail) (c.bitCount + 2) =
      bitsValue (flushedBits (rangeOf (2 + j)) c) := hlen ▸ streamWindow_append le_rfl tail
  have hbounds := streamWindow_add_bounds (flushedBits (rangeOf (2 + j)) c ++ tail) (c.bitCount + 2) j
  have hvalue := bitsValue_flushedBits (rangeOf (2 + j)) c
  rw [hread, show c.bitCount + 2 + j = 2 + j + c.bitCount by omega] at hbounds
  have hsettled : c.settled (rangeOf (2 + j)) = 2 * ((2 * bitsValue c.out + 1) * 2 ^ c.m) * 2 ^ j - 2 * 2 ^ j := by
    rw [Encoder.settled, hr, show (4 * 2 ^ j / 2 : Int) = 2 * 2 ^ j by omega]
    ring
  zify at hbounds hvalue
  rw [add_mul] at hbounds
  unfold Decoder.InWindow
  dsimp only [Encoder.lockstep]
  rw [hsettled, ← hvalue, add_mul]
  split <;> omega

end Sys2Proof.Machine
end

section
/-! PROOFS. The command ADE (`45_arithmetic_decoder_inverse_renorm.md` R200, R202, R207): its outcome when the loop
answers, for fewer symbols, and on a stream with zeros behind it. -/

namespace Sys2Proof.Machine

/-! ### The outcome of the loop -/

/-- ADE on a stream that the loop decodes. -/
theorem exec_ade_of_loop {s : State} (hv : s.flag .imV = true) (hovf : s.flag .bitOvf = false)
    (hk : s.k.toNat ≤ s.params.kMax) (hn : s.n.toNat ≤ s.params.maxN) (hprec : 4 * s.t ≤ 2 ^ s.k.toNat) {d : Decoder}
    {out : List Symbol}
    (hloop : decodeSymbols s.im s.t s.k.toNat s.bitIn s.n.toNat 0 (decoderStart s.bitIn s.k.toNat) [] = .ok (d, out)) :
    exec .ade s = .next (succeed { s with
      symOut := out, l := d.l.toNat, u := d.u.toNat, code := d.code.toNat, m := 0
      bitpos := d.pos, sympos := s.n.toNat }) :=
  congrArg (conclude .ade s) (adeBody_ok.2 ⟨hv, hovf, hk, hn, hprec, d, out, hloop, rfl⟩)

/-! ### A smaller N -/

/-- The loop answers for fewer symbols too, and its longer answer goes on from there (R207). -/
theorem decodeSymbols_prefix {im : List Interval} {t k : Nat} {bits : BitString} {n i : Nat} {d d' : Decoder}
    {acc out : List Symbol} (h : decodeSymbols im t k bits n i d acc = .ok (d', out)) {n' : Nat} (hn : n' ≤ n) :
    ∃ d₁ out₁, decodeSymbols im t k bits n' i d acc = .ok (d₁, out₁) ∧ out₁ <+: out := by
  induction n generalizing i d acc n' with
  | zero =>
    obtain rfl := Nat.le_zero.1 hn
    exact ⟨d', out, h, List.prefix_rfl⟩
  | succ n ih =>
    cases n' with
    | zero =>
      obtain ⟨xs, rfl, -⟩ := decodeSymbols_sound h
      exact ⟨d, acc, rfl, List.prefix_append _ _⟩
    | succ n' =>
      obtain ⟨r, hone, hrest⟩ := bind_eq_ok.1 h
      obtain ⟨d₁, out₁, hloop, hpre⟩ := ih hrest (Nat.le_of_succ_le_succ hn)
      exact ⟨d₁, out₁, bind_eq_ok.2 ⟨r, hone, hloop⟩, hpre⟩

/-! ### Zeros behind the stream -/

theorem nextBit_append_zeros (bits : BitString) (j : Nat) : nextBit (bits ++ List.replicate j false) = nextBit bits := by
  funext p
  unfold nextBit
  rcases Nat.lt_or_ge p bits.length with hp | hp
  · rw [List.getD_append _ _ _ _ hp]
  · rw [List.getD_append_right _ _ _ _ hp, List.getD_eq_default bits _ hp]
    rw [List.getD_eq_getElem?_getD, List.getElem?_replicate]
    split <;> rfl

section Streams

variable {bits bits' : BitString} (h : nextBit bits' = nextBit bits)
include h

/-- The decoder reads its stream through `NextBit` only (R202, R206). -/
theorem decRenorm_congr (r : Int) (fuel : Nat) (d : Decoder) : decRenorm bits' r fuel d = decRenorm bits r fuel d := by
  induction fuel generalizing d with
  | zero => rfl
  | succ fuel ih =>
    rw [decRenorm, decRenorm]
    cases renormCase r d.l d.u with
    | none => rfl
    | some e =>
      have hshift : decodeShift bits' r e d = decodeShift bits r e d := by simp only [decodeShift, h]
      exact (congrArg _ hshift).trans (ih _)

theorem decodeSymbols_congr (im : List Interval) (t k n i : Nat) (d : Decoder) (acc : List Symbol) :
    decodeSymbols im t k bits' n i d acc = decodeSymbols im t k bits n i d acc := by
  induction n generalizing i d acc with
  | zero => rfl
  | succ n ih =>
    have hone : decodeSymbol im t k bits' i d = decodeSymbol im t k bits i d := by
      simp only [decodeSymbol, decRenorm_congr h]
    simp only [decodeSymbols, hone, ih]

end Streams

/-- The body of ADE on another stream with the same `NextBit`: the same end, with that stream kept. -/
theorem adeBody_congr {s : State} {bits : BitString} (h : nextBit bits = nextBit s.bitIn) :
    adeBody { s with bitIn := bits } = (fun t : State => { t with bitIn := bits }) <$> adeBody s := by
  have hstart : decoderStart bits s.precision = decoderStart s.bitIn s.precision := by
    simp only [decoderStart, initWindow, h]
  simp only [adeBody, map_bind, map_pure]
  simp only [State.flag, State.precision, State.messageLength] at hstart ⊢
  simp only [hstart, decodeSymbols_congr h]
  rfl

theorem conclude_ade_map_bitIn {s t : State} {r : Result State} (h : conclude .ade s r = .next t) (bits : BitString) :
    conclude .ade { s with bitIn := bits } ((fun u : State => { u with bitIn := bits }) <$> r) =
      .next { t with bitIn := bits } := by
  rcases conclude_next h with ⟨u, rfl, rfl⟩ | ⟨f, rfl, rfl⟩ <;> rfl

/-! ### The empty message -/

/-- The window of R201 as the sum of the places of its ones. -/
theorem streamWindow_eq_sum (bits : BitString) (k : Nat) :
    streamWindow bits k = ((List.range k).map fun p => if bits[p]? = some true then 2 ^ (k - 1 - p) else 0).sum := by
  simp only [streamWindow, streamBit, ite_mul, Nat.one_mul, Nat.zero_mul]

end Sys2Proof.Machine

namespace Sys2Proof.Proofs

open Sys2Proof.Machine

/-- Settles O38: the decoder starts with its window in `[0, R)` and decodes in lock-step with an encoder of the symbols it
finds; what the loop of the model answers is what `Decodes` gives. -/
theorem adeDecodesEveryStream : Obligations.AdeDecodesEveryStream := by
  intro s hinv hv hovf hk hn hprec
  have him := hinv.rangesWithin hv
  have hk2 : 2 ≤ s.k.toNat := hinv.two_le_precision hv hprec
  have hw := inWindow_decoderStart s.bitIn s.k.toNat
  rw [← lockstep_encoderStart] at hw
  obtain ⟨out, c, hloop, hc, hw', hbits⟩ := exists_decodeSymbols him hk2 hprec (hinv.model hv)
    (hinv.table (by simp [hv])).2.1 (n := s.n.toNat) (i := 0) [] (renormed_encoderStart hk2) hw
  have hlen := decodeSymbols_length hloop
  rw [lockstep_encoderStart] at hloop
  obtain ⟨_, rfl, hdec⟩ := decodeSymbols_sound hloop
  have hexec := exec_ade_of_loop hv hovf hk hn hprec hloop
  rw [succeed_eq] at hexec
  rw [Decoder.eq_toNat hc.inRange.nonneg hw', decoderStart_eq, rangeOf_eq] at hdec
  have hzero : (encoderStart s.k.toNat).bitCount = 0 := rfl
  have hpos : (c.lockstep s.bitIn s.k.toNat).pos = s.k.toNat + c.bitCount := rfl
  exact ⟨out, _, _, _, _, hdec, hexec, by simpa using hlen, hdec.sym_mem, Int.toNat_le_toNat hw'.1,
    Int.toNat_le_toNat hw'.2, (hc.toNat_bounds hk2).1, by omega, by omega⟩

/-- Settles O40: the two streams have the same `NextBit`. -/
theorem adeReadsZerosPastTheEnd : Obligations.AdeReadsZerosPastTheEnd := by
  intro s t j hexec
  exact (congrArg (conclude .ade _) (adeBody_congr (nextBit_append_zeros s.bitIn j))).trans
    (conclude_ade_map_bitIn hexec _)

/-- Settles O41: the tests do not fail for a smaller N, and the loop's answer starts the longer one. -/
theorem adeWithSmallerNGivesAPrefix : Obligations.AdeWithSmallerNGivesAPrefix := by
  intro s t n' hexec herr hle
  obtain ⟨u, hbody, rfl⟩ := exec_success hexec herr
  obtain ⟨hv, hovf, hk, hn, hprec, d, out, hloop, rfl⟩ := adeBody_ok.1 hbody
  obtain ⟨d', out', hloop', hpre⟩ := decodeSymbols_prefix hloop hle
  exact ⟨_, exec_ade_of_loop (s := { s with n := n' }) hv hovf hk (hle.trans hn) hprec hloop', succeed_err _, hpre⟩

/-- Settles O42: AEN's bits put the window into the last interval of its encoding, so ADE finds the encoded symbols, in
lock-step with AEN. -/
theorem arithmeticRoundTrip : Obligations.ArithmeticRoundTrip := by
  intro s s' d tail hinv hv hexec herr hparams him ht hk hn hdv hdovf hbits
  obtain ⟨u, hbody, rfl⟩ := exec_success hexec herr
  obtain ⟨-, -, hkMax, hprec, c, out, hloop, hflush, rfl⟩ := aenBody_ok.1 hbody
  obtain rfl := flush_bits hflush
  have henc := encodeSymbols_sound hloop
  have hranges := hinv.rangesWithin hv
  have hk2 : 2 ≤ s.precision := hinv.two_le_precision hv hprec
  have hstart := renormed_encoderStart hk2
  obtain ⟨hc, -⟩ := henc.renormed hranges hk2 hprec hstart
  obtain ⟨-, hloop⟩ :=
    henc.decodeSymbols_lockstep hranges hk2 hprec (hinv.model hv) hstart (hc.inWindow_flushedBits hk2 tail)
  have hloop := hloop 0 []
  have hk : d.precision = s.precision := congrArg BitVec.toNat hk
  have hbits : d.bitIn = flushedBits (rangeOf s.precision) c ++ tail := hbits
  obtain ⟨-, -, -, -, hmax, -⟩ := (memory_wf_iff s).1 hinv.capacity
  rw [lockstep_encoderStart, ← hbits, ← hk, ← him, ← ht, ← hn] at hloop
  rw [← hk, ← hparams] at hkMax
  rw [← hk, ← ht] at hprec
  rw [← hn, ← hparams] at hmax
  refine ⟨_, exec_ade_of_loop hdv hdovf hkMax hmax hprec hloop, rfl, succeed_err _, rfl, rfl, ?_⟩
  change d.precision + c.bitCount + 2 = d.precision + (flushedBits (rangeOf s.precision) c).length
  rw [flushedBits_length, Nat.add_assoc]

/-- Settles O39: with no symbol to decode the loop answers the start, whose window is that of R201. -/
theorem adeWithNoSymbolsShowsTheWindow : Obligations.AdeWithNoSymbolsShowsTheWindow := by
  intro s hv hovf hk hn hprec
  have hzero : s.n.toNat = 0 := by rw [hn]; rfl
  have hloop : decodeSymbols s.im s.t s.k.toNat s.bitIn s.n.toNat 0 (decoderStart s.bitIn s.k.toNat) [] =
      .ok (decoderStart s.bitIn s.k.toNat, []) := by rw [hzero]; rfl
  have hu : (rangeOf s.k.toNat - 1).toNat = 2 ^ s.k.toNat - 1 := by unfold rangeOf; omega
  rw [exec_ade_of_loop hv hovf hk (hzero.trans_le (Nat.zero_le _)) hprec hloop, succeed_eq, ← streamWindow_eq_sum, hzero,
    ← initWindow_eq]
  dsimp only [decoderStart]
  rw [hu]
  rfl

end Sys2Proof.Proofs
end

section
/-! PROOFS. The buffer commands (`46_buffer_commands.md` R220 to R222): each clears its own overflow flag and ERR, and these
two masks of STATUS are one. The equations of CLRFT and CLRBIT stand with the script lines that begin with them. -/

namespace Sys2Proof.Machine

theorem exec_clrsym (s : State) :
    exec .clrsym s = .next { s with
      symIn := [], status := s.status &&& 0xF0EF#16, errpos := 0, errsym := 0 } := by
  have hmask : (s.status &&& 0xFFEF#16) &&& 0xF0FF#16 = s.status &&& 0xF0EF#16 := by
    rw [BitVec.and_assoc]; rfl
  simp only [exec, execClrsym, conclude_ok, succeed_eq, putFlag_symOvf_false, hmask]

end Sys2Proof.Machine

namespace Sys2Proof.Proofs

open Sys2Proof.Machine

/-- Settles O43. -/
theorem clrftEmptiesTheTableAndInvalidates : Obligations.ClrftEmptiesTheTableAndInvalidates :=
  exec_clrft

/-- Settles O44. -/
theorem clrsymEmptiesTheSymbols : Obligations.ClrsymEmptiesTheSymbols :=
  exec_clrsym

/-- Settles O45. -/
theorem clrbitEmptiesTheBits : Obligations.ClrbitEmptiesTheBits :=
  exec_clrbit

end Sys2Proof.Proofs
end

section
/-! PROOFS. The tests that a command makes before its loop (`60_exceptions.md` R238 to R240), and what every command leaves
(R231, R236, R241). -/

namespace Sys2Proof.Machine

/-! ### One test -/

section Test

variable {α : Type} {c : Bool} {err : ErrCode} {pos : Nat} {sym : Symbol} {f : Unit → Result α}

theorem require_bind_pass (hc : c = true) : (require c err pos sym >>= f) = f () := by
  rw [hc, require_true, ok_bind]

theorem require_bind_raise (hc : c = false) : (require c err pos sym >>= f) = raise err pos sym := by
  rw [hc, require_false, raise_bind]

end Test

/-! ### The first tests of each command, in the order of R240 -/

section Tests

variable {s : State}

theorem commandBody_of_ftOvf (hovf : s.flag .ftOvf = true) :
    commandBody .bht s = raise .capacityExceeded 0 0 ∧ commandBody .bim s = raise .capacityExceeded 0 0 :=
  have hfail : (!s.flag .ftOvf) = false := by rw [hovf]; rfl
  ⟨require_bind_raise hfail, require_bind_raise hfail⟩

/-- A fault of FTCheck is that of the two commands that read the table. -/
theorem commandBody_of_ftCheck {err : ErrCode} {pos : Nat} {sym : Symbol} (hovf : s.flag .ftOvf = false)
    (h : ftCheck s.ft = raise err pos sym) :
    commandBody .bht s = raise err pos sym ∧ commandBody .bim s = raise err pos sym := by
  have hpass : (!s.flag .ftOvf) = true := by rw [hovf]; rfl
  constructor
  · refine (require_bind_pass hpass).trans ?_
    rw [h, raise_bind]
  · refine (require_bind_pass hpass).trans ?_
    rw [h, raise_bind]

theorem commandBody_of_no_tree (hv : s.flag .treeV = false) :
    commandBody .hct s = raise .notReady 0 0 ∧ commandBody .hde s = raise .notReady 0 0 :=
  ⟨require_bind_raise hv, require_bind_raise hv⟩

theorem commandBody_of_no_codes (hv : s.flag .ctV = false) : commandBody .hen s = raise .notReady 0 0 :=
  require_bind_raise hv

theorem commandBody_of_no_model (hv : s.flag .imV = false) :
    commandBody .aen s = raise .notReady 0 0 ∧ commandBody .ade s = raise .notReady 0 0 :=
  ⟨require_bind_raise hv, require_bind_raise hv⟩

theorem commandBody_hen_of_symOvf (hv : s.flag .ctV = true) (hovf : s.flag .symOvf = true) :
    commandBody .hen s = raise .capacityExceeded 0 0 :=
  (require_bind_pass hv).trans (require_bind_raise (by rw [hovf]; rfl))

theorem commandBody_hde_of_bitOvf (hv : s.flag .treeV = true) (hovf : s.flag .bitOvf = true) :
    commandBody .hde s = raise .capacityExceeded 0 0 :=
  (require_bind_pass hv).trans (require_bind_raise (by rw [hovf]; rfl))

section Model

variable (hv : s.flag .imV = true)
include hv

theorem commandBody_aen_of_symOvf (hovf : s.flag .symOvf = true) :
    commandBody .aen s = raise .capacityExceeded 0 0 :=
  (require_bind_pass hv).trans (require_bind_raise (by rw [hovf]; rfl))

theorem commandBody_ade_of_bitOvf (hovf : s.flag .bitOvf = true) :
    commandBody .ade s = raise .capacityExceeded 0 0 :=
  (require_bind_pass hv).trans (require_bind_raise (by rw [hovf]; rfl))

theorem commandBody_aen_of_precision (hovf : s.flag .symOvf = false) :
    (s.params.kMax < s.precision → commandBody .aen s = raise .capacityExceeded s.precision 0) ∧
    (s.precision ≤ s.params.kMax → 2 ^ s.precision < 4 * s.t →
      commandBody .aen s = raise .precisionTooLow s.precision 0) := by
  have hpass : (!s.flag .symOvf) = true := by rw [hovf]; rfl
  refine ⟨fun hk => ?_, fun hk ht => ?_⟩ <;>
    refine (require_bind_pass hv).trans ((require_bind_pass hpass).trans ?_)
  · exact require_bind_raise (decide_eq_false hk.not_ge)
  · exact (require_bind_pass (decide_eq_true hk)).trans (require_bind_raise (decide_eq_false ht.not_ge))

theorem commandBody_ade_of_operands (hovf : s.flag .bitOvf = false) :
    (s.params.kMax < s.precision → commandBody .ade s = raise .capacityExceeded s.precision 0) ∧
    (s.precision ≤ s.params.kMax → s.params.maxN < s.messageLength →
      commandBody .ade s = raise .capacityExceeded s.messageLength 0) ∧
    (s.precision ≤ s.params.kMax → s.messageLength ≤ s.params.maxN → 2 ^ s.precision < 4 * s.t →
      commandBody .ade s = raise .precisionTooLow s.precision 0) := by
  have hpass : (!s.flag .bitOvf) = true := by rw [hovf]; rfl
  refine ⟨fun hk => ?_, fun hk hn => ?_, fun hk hn ht => ?_⟩ <;>
    refine (require_bind_pass hv).trans ((require_bind_pass hpass).trans ?_)
  · exact require_bind_raise (decide_eq_false hk.not_ge)
  · exact (require_bind_pass (decide_eq_true hk)).trans (require_bind_raise (decide_eq_false hn.not_ge))
  · exact (require_bind_pass (decide_eq_true hk)).trans <|
      (require_bind_pass (decide_eq_true hn)).trans (require_bind_raise (decide_eq_false ht.not_ge))

end Model

end Tests

/-! ### FTCheck -/

/-- FTCheck at one index: the entry there offends, or the next one is examined. -/
theorem ftCheckFrom_take_drop {ft : List FtEntry} {n : Nat} {e : FtEntry} (he : ft[n]? = some e) :
    ftCheckFrom (ft.take n) n (ft.drop n) =
      if offends ft n then raise .invalidInput n e.sym else ftCheckFrom (ft.take (n + 1)) (n + 1) (ft.drop (n + 1)) := by
  obtain ⟨hn, hget⟩ := List.getElem?_eq_some_iff.1 he
  rw [List.drop_eq_getElem_cons hn, hget, ftCheckFrom, List.take_add_one, he, offends, he]
  by_cases hcount : e.count = 0
  · simp [hcount]
  · by_cases hseen : ((ft.take n).any fun d => d.sym == e.sym) = true
    · simp only [hcount, hseen, if_true, if_false, Bool.or_true]
    · simp [hcount, hseen]

/-- From any index up to the least offending one FTCheck comes to it. -/
theorem ftCheckFrom_of_offends {ft : List FtEntry} {i n : Nat} {e : FtEntry} (he : ft[i]? = some e)
    (hoff : offends ft i = true) (hleast : ∀ j < i, offends ft j = false) (hn : n ≤ i) :
    ftCheckFrom (ft.take n) n (ft.drop n) = raise .invalidInput i e.sym := by
  induction hn using Nat.decreasingInduction with
  | self => rw [ftCheckFrom_take_drop he, if_pos hoff]
  | of_succ j hj ih =>
    obtain ⟨d, hd⟩ : ∃ d, ft[j]? = some d :=
      ⟨_, List.getElem?_eq_getElem (hj.trans (List.getElem?_eq_some_iff.1 he).1)⟩
    rw [ftCheckFrom_take_drop hd, hleast j hj, if_neg Bool.false_ne_true, ih]

theorem ftCheck_of_offends {ft : List FtEntry} {i : Nat} {e : FtEntry} (he : ft[i]? = some e)
    (hoff : offends ft i = true) (hleast : ∀ j < i, offends ft j = false) :
    ftCheck ft = raise .invalidInput i e.sym := by
  have hne : ft.isEmpty = false := by
    cases ft with
    | nil => cases he
    | cons => rfl
  rw [ftCheck, hne]
  exact ftCheckFrom_of_offends he hoff hleast (Nat.zero_le i)

/-! ### What a command leaves -/

/-- Everything a command that goes on can have done: succeeded, or left the state of R236's table for one of its faults. -/
theorem exec_next {i : Instr} {s t : State} (h : exec i s = .next t) :
    (∃ u, commandBody i s = .ok u ∧ t = succeed u) ∨
      ∃ f : CmdFault, f.err ∈ mayRaise i ∧ t = faultOutcome i f.err f.pos f.sym s := by
  rw [exec_eq_conclude] at h
  refine (conclude_next h).imp_right ?_
  rintro ⟨f, hf, rfl⟩
  exact ⟨f, (commandBody_raises i s f hf).err, takeFault_eq_faultOutcome i f s⟩

/-! ### Illegal values of CMD -/

/-- The word of a command is one of 1 to 10 (`30_encoding.md` R91). -/
theorem encode_toNat_bounds (i : Instr) : 1 ≤ (encode i).toNat ∧ (encode i).toNat ≤ 10 := by
  cases i <;> decide

theorem illegalCommand_eq (s : State) :
    illegalCommand s = { s with
      status := faultStatus s.status 0xF0FF#16 .illegalCommand, errpos := s.cmd.toNat, errsym := 0 } := rfl

/-- Any other low byte is an illegal command. -/
theorem runCommand_illegal {v : Nat} (hv : v % 256 = 0 ∨ 0x0B ≤ v % 256) (s : State) :
    runCommand v s = .next (illegalCommand { s with cmd := BitVec.ofNat 8 v }) := by
  cases hd : decode (BitVec.ofNat 8 v) with
  | ok i =>
    have hbyte : (encode i).toNat = v % 256 := by
      rw [decode_eq_ok_iff_encode_eq.1 hd, BitVec.toNat_ofNat]
    have := encode_toNat_bounds i
    omega
  | error e => simp only [runCommand, hd]

end Sys2Proof.Machine

namespace Sys2Proof.Proofs

open Sys2Proof.Machine

/-- Settles O18: FTCheck goes over the entries in index order and stops at the first that offends. -/
theorem tableFaultsReportTheFirstOffendingEntry : Obligations.TableFaultsReportTheFirstOffendingEntry := by
  intro s hovf
  refine ⟨fun hempty => ?_, fun i e he hoff hleast => ?_⟩
  · obtain ⟨hbht, hbim⟩ := commandBody_of_ftCheck hovf (show ftCheck s.ft = raise .invalidInput 0 0 by rw [hempty]; rfl)
    exact ⟨exec_of_commandBody_raise hbht, exec_of_commandBody_raise hbim⟩
  · obtain ⟨hbht, hbim⟩ := commandBody_of_ftCheck hovf (ftCheck_of_offends he hoff hleast)
    exact ⟨exec_of_commandBody_raise hbht, exec_of_commandBody_raise hbim⟩

/-- Settles O49: a success reports ERR = 0, and a fault leaves the table's state. -/
theorem faultsLeaveTheTableOfRule236 : Obligations.FaultsLeaveTheTableOfRule236 := by
  intro i s t hexec herr
  rcases exec_next hexec with ⟨u, -, rfl⟩ | ⟨f, hmay, rfl⟩
  · exact absurd (succeed_err u) herr
  · exact ⟨f.err, f.pos, f.sym, hmay, rfl⟩

/-- Settles O50: the frame of commands, and the report of a success. -/
theorem commandsWriteOnlyTheirWriteSet : Obligations.CommandsWriteOnlyTheirWriteSet := by
  intro i s t hexec
  refine ⟨exec_writesOnly hexec, fun herr => ?_⟩
  obtain ⟨u, -, rfl⟩ := exec_success hexec herr
  exact ⟨rfl, rfl⟩

/-- Settles O4: no command's word has that low byte. -/
theorem illegalCommandChangesOnlyTheReport : Obligations.IllegalCommandChangesOnlyTheReport := by
  intro s rest v hv
  rw [step_cons]
  refine (runCommand_illegal hv _).trans ?_
  rw [illegalCommand_eq, BitVec.toNat_ofNat]

/-- Settles O46: the valid bit is the first test of each of the five. -/
theorem missingStructureIsNotReady : Obligations.MissingStructureIsNotReady := by
  intro s
  refine ⟨fun hv => ?_, fun hv => exec_of_commandBody_raise (commandBody_of_no_codes hv), fun hv => ?_⟩
  · obtain ⟨hhct, hhde⟩ := commandBody_of_no_tree hv
    exact ⟨exec_of_commandBody_raise hhct, exec_of_commandBody_raise hhde⟩
  · obtain ⟨haen, hade⟩ := commandBody_of_no_model hv
    exact ⟨exec_of_commandBody_raise haen, exec_of_commandBody_raise hade⟩

/-- Settles O47: the overflow flag is the first test, or the one after the valid bit. -/
theorem droppedPushIsCapacityExceeded : Obligations.DroppedPushIsCapacityExceeded := by
  intro s
  refine ⟨fun hovf => ?_, fun hovf => ⟨fun hv => ?_, fun hv => ?_⟩, fun hovf => ⟨fun hv => ?_, fun hv => ?_⟩⟩
  · obtain ⟨hbht, hbim⟩ := commandBody_of_ftOvf hovf
    exact ⟨exec_of_commandBody_raise hbht, exec_of_commandBody_raise hbim⟩
  · exact exec_of_commandBody_raise (commandBody_hen_of_symOvf hv hovf)
  · exact exec_of_commandBody_raise (commandBody_aen_of_symOvf hv hovf)
  · exact exec_of_commandBody_raise (commandBody_hde_of_bitOvf hv hovf)
  · exact exec_of_commandBody_raise (commandBody_ade_of_bitOvf hv hovf)

/-- Settles O48: the tests on K, N and the precision, behind the two of the flags. -/
theorem precisionAndLengthLimits : Obligations.PrecisionAndLengthLimits := by
  intro s hv
  refine ⟨fun hovf => ?_, fun hovf => ?_⟩
  · obtain ⟨hk, hprec⟩ := commandBody_aen_of_precision hv hovf
    exact ⟨fun h => exec_of_commandBody_raise (hk h), fun h ht => exec_of_commandBody_raise (hprec h ht)⟩
  · obtain ⟨hk, hn, hprec⟩ := commandBody_ade_of_operands hv hovf
    exact ⟨fun h => exec_of_commandBody_raise (hk h), fun h h' => exec_of_commandBody_raise (hn h h'),
      fun h h' ht => exec_of_commandBody_raise (hprec h h' ht)⟩

end Sys2Proof.Proofs
end

section
/-! PROOFS. HDE on more symbols than fit in SYM_OUT (`60_exceptions.md` R239 (e)). -/

namespace Sys2Proof.Machine

theorem CodeInv.length_flatMap_bits {ft : List FtEntry} {tn : List TreeNode} {root : Nat} {ct cs : List CodeEntry}
    (htree : TreeInv ft tn root) (h : CodeInv ft tn root ct) (hcs : ∀ c ∈ cs, c ∈ ct) :
    (cs.flatMap CodeEntry.bits).length = (cs.map CodeEntry.len).sum := by
  rw [List.length_flatMap, List.map_congr_left fun c hc => (h.entry_bounds htree (hcs c hc)).1]

end Sys2Proof.Machine

namespace Sys2Proof.Proofs

open Sys2Proof.Machine

/-- Settles O29: behind MAX_N codes SYM_OUT is full, and the last bit of the next code emits its symbol. -/
theorem hdeFaultsAtTheSymbolThatDoesNotFit : Obligations.HdeFaultsAtTheSymbolThatDoesNotFit := by
  intro s ct cs c bs hinv hv hovf hcodes hcs hc hmax hbits
  have htree := hinv.tree hv
  have hloop := hcodes.huffmanDecode_codes htree hcs (out := []) (by simpa using hmax.le) 0 (c.bits ++ bs)
  rw [hcodes.huffmanDecode_code htree hc, if_pos (by simpa using hmax), ← List.append_assoc, ← hbits, Nat.zero_add,
    hcodes.length_flatMap_bits htree hcs, (hcodes.entry_bounds htree hc).1] at hloop
  exact exec_hde_raise hv hovf hloop

end Sys2Proof.Proofs
end

section
/-! PROOFS. AEN when its output passes MAX_BITS (`60_exceptions.md` R239 (d)). One symbol takes a Coder State to the next
whatever the capacity is (`EncodesSymbol`); the capacity only says whether the model goes on to that state or faults. -/

namespace Sys2Proof.Machine

/-! ### The renormalization of one symbol -/

theorem emit_full {maxBits m : Nat} {out : BitString} {b : Bit}
    (hfull : maxBits < (out ++ b :: List.replicate m (!b)).length) (i : Nat) :
    emit maxBits out b m i = raise .capacityExceeded i 0 :=
  if_pos (by simpa [Nat.add_assoc, Nat.add_comm 1] using hfull)

/-- A step whose output does not fit is one that emits, so the loop of the model faults in it. -/
theorem encRenorm_step_full {maxBits i fuel : Nat} {r : Int} {e : RenormCase} {c : Encoder}
    (he : renormCase r c.l c.u = some e) (hc : c.out.length ≤ maxBits)
    (hfull : maxBits < (encodeShift r e c).out.length) :
    encRenorm maxBits r i (fuel + 1) c = raise .capacityExceeded i 0 := by
  rw [encRenorm, he]
  cases e with
  | e1 =>
    dsimp only [encodeE1]
    rw [emit_full (b := true) hfull, raise_bind, raise_bind]
  | e2 =>
    dsimp only [encodeE2]
    rw [emit_full (b := false) hfull, raise_bind, raise_bind]
  | e3 => exact absurd hfull hc.not_gt

/-- A renormalization whose output does not fit ends in the fault. -/
theorem encRenorm_full {maxBits i fuel : Nat} {r : Int} {c c' : Encoder} (h : EncRenorms r c c')
    (hc : c.out.length ≤ maxBits) (hfull : maxBits < c'.out.length) (hfuel : c'.bitCount < c.bitCount + fuel) :
    encRenorm maxBits r i fuel c = raise .capacityExceeded i 0 := by
  induction h using EncRenorms.induction_steps generalizing fuel with
  | done _ => exact absurd hfull hc.not_gt
  | @step e c he h ih =>
    obtain ⟨j, hbits, -⟩ := h.exists_steps
    rw [encodeShift_bitCount] at hbits
    obtain ⟨fuel, rfl⟩ : ∃ n, fuel = n + 1 := Nat.exists_eq_add_one.2 (by omega)
    rcases Nat.lt_or_ge maxBits (encodeShift r e c).out.length with hstep | hstep
    · exact encRenorm_step_full he hc hstep
    · rw [encRenorm_step he hstep]
      exact ih hstep (by rw [encodeShift_bitCount]; omega)

/-- A loop that answers has had a turn for each step. -/
theorem EncRenorms.bitCount_lt_of_encRenorm {maxBits i fuel : Nat} {r : Int} {c c' : Encoder} (h : EncRenorms r c c')
    (hfit : c'.out.length ≤ maxBits) (hloop : encRenorm maxBits r i fuel c = .ok c') :
    c'.bitCount < c.bitCount + fuel := by
  induction h using EncRenorms.induction_steps generalizing fuel with
  | done _ =>
    cases fuel with
    | zero => cases hloop
    | succ fuel => omega
  | @step e c he h ih =>
    cases fuel with
    | zero => cases hloop
    | succ fuel =>
      rw [encRenorm_step he (h.out_length_le.trans hfit)] at hloop
      have := ih hloop
      rw [encodeShift_bitCount] at this
      omega

/-! ### One symbol -/

/-- One symbol of `44_arithmetic_encoder_interval_renorm.md` R175 with no bound on the output, in at most K steps. -/
structure EncodesSymbol (im : List Interval) (t k : Nat) (x : Symbol) (c c' : Encoder) : Prop where
  total_ne_zero : t ≠ 0
  renorms : ∃ e, lookupInterval im x = some e ∧ EncRenorms (rangeOf k) (c.narrowed t e) c'
  steps : c'.bitCount ≤ c.bitCount + k

section Symbol

variable {im : List Interval} {t k : Nat} {x : Symbol} {c c' : Encoder}

theorem EncodesSymbol.encodeSymbol_of_fits (h : EncodesSymbol im t k x c c') {maxBits : Nat}
    (hfit : c'.out.length ≤ maxBits) (i : Nat) : encodeSymbol im t k maxBits i x c = .ok c' := by
  obtain ⟨ht, ⟨e, he, hr⟩, hsteps⟩ := h
  exact encodeSymbol_of_encRenorms he ht hr hfit hsteps

theorem EncodesSymbol.encodeSymbol_of_full (h : EncodesSymbol im t k x c c') {maxBits : Nat}
    (hc : c.out.length ≤ maxBits) (hfull : maxBits < c'.out.length) (i : Nat) :
    encodeSymbol im t k maxBits i x c = raise .capacityExceeded i 0 := by
  obtain ⟨ht, ⟨e, he, hr⟩, hsteps⟩ := h
  rw [encodeSymbol, he]
  exact (if_neg ht).trans (encRenorm_full hr hc hfull (Nat.lt_succ_of_le hsteps))

theorem encodesSymbol_of_encodeSymbol {maxBits i : Nat} (h : encodeSymbol im t k maxBits i x c = .ok c')
    (hfit : c'.out.length ≤ maxBits) : EncodesSymbol im t k x c c' := by
  unfold encodeSymbol at h
  split at h
  · cases h
  · next e he =>
    split at h
    · cases h
    · next ht =>
      have hr := encRenorm_sound h
      exact ⟨ht, ⟨e, he, hr⟩, Nat.le_of_lt_succ (hr.bitCount_lt_of_encRenorm hfit h)⟩

theorem EncodesSymbol.encodes (h : EncodesSymbol im t k x c c') : Encodes im t (rangeOf k) [x] c c' := by
  obtain ⟨-, ⟨e, he, hr⟩, -⟩ := h
  exact .cons he hr .nil

section Model

variable (him : RangesWithin im t) (hk : 2 ≤ k) (hprec : 4 * t ≤ 2 ^ k)
include him hk hprec

/-- With a valid model one symbol is always within K steps (R190). -/
theorem Encodes.encodesSymbol (h : Encodes im t (rangeOf k) [x] c c') (hc : Renormed (rangeOf k) c) :
    EncodesSymbol im t k x c c' := by
  obtain ⟨-, hsteps⟩ := h.renormed him hk hprec hc
  rw [List.length_singleton, Nat.one_mul] at hsteps
  cases h with
  | @cons _ _ e _ _ _ he hr hnil =>
    cases hnil
    obtain ⟨hlow, hhigh⟩ := him e (List.mem_of_find?_eq_some he)
    exact ⟨by omega, ⟨e, he, hr⟩, hsteps⟩

end Model

end Symbol

/-! ### The message -/

section Message

variable {im : List Interval} {t k maxBits i w : Nat} {xs : List Symbol} {c c' : Encoder}
  (h : encodeSymbols im t k maxBits i xs c = .ok c') (hmax : c'.out.length ≤ maxBits)
include h hmax

/-- An encoding that fits in another capacity is the same there. -/
theorem encodeSymbols_of_fits (hfit : c'.out.length ≤ w) : encodeSymbols im t k w i xs c = .ok c' := by
  induction xs generalizing i c with
  | nil => exact h
  | cons x xs ih =>
    obtain ⟨c₁, hone, hrest⟩ := bind_eq_ok.1 h
    have hle := (encodeSymbols_sound hrest).out_length_le
    have hx := encodesSymbol_of_encodeSymbol hone (hle.trans hmax)
    rw [encodeSymbols, hx.encodeSymbol_of_fits (hle.trans hfit), ok_bind, ih hrest]

/-- An encoding that does not fit in another capacity has a first symbol that passes it, and faults there. -/
theorem encodeSymbols_of_full (hc : c.out.length ≤ w) (hfull : w < c'.out.length) :
    ∃ (pre post : List Symbol) (x : Symbol) (c₁ c₂ : Encoder), xs = pre ++ x :: post ∧
      Encodes im t (rangeOf k) pre c c₁ ∧ c₁.out.length ≤ w ∧ Encodes im t (rangeOf k) [x] c₁ c₂ ∧
      w < c₂.out.length ∧ encodeSymbols im t k w i xs c = raise .capacityExceeded (i + pre.length) 0 := by
  induction xs generalizing i c with
  | nil => cases h; exact absurd hfull hc.not_gt
  | cons x xs ih =>
    obtain ⟨c₁, hone, hrest⟩ := bind_eq_ok.1 h
    have hle := (encodeSymbols_sound hrest).out_length_le
    have hx := encodesSymbol_of_encodeSymbol hone (hle.trans hmax)
    rcases Nat.lt_or_ge w c₁.out.length with hpast | hwithin
    · refine ⟨[], xs, x, c, c₁, rfl, .nil, hc, hx.encodes, hpast, ?_⟩
      rw [encodeSymbols, hx.encodeSymbol_of_full hc hpast, raise_bind]
      rfl
    · obtain ⟨pre, post, y, d, d', rfl, hpre, hd, hy, hpast, hloop⟩ := ih hrest hwithin
      refine ⟨x :: pre, post, y, d, d', rfl, hx.encodes.append hpre, hd, hy, hpast, ?_⟩
      rw [encodeSymbols, hx.encodeSymbol_of_fits hwithin, ok_bind, hloop, List.length_cons, Nat.add_assoc,
        Nat.add_comm 1]

end Message

/-! ### The command -/

theorem flush_full {maxBits : Nat} {r : Int} {c : Encoder} (hfull : maxBits < (flushedBits r c).length) (pos : Nat) :
    flush maxBits r c pos = raise .capacityExceeded pos 0 := by
  rw [flushedBits_length] at hfull
  exact if_pos hfull

/-- AEN on a message that the loop encodes, with termination bits that do not fit. -/
theorem exec_aen_flush_full {s : State} (hv : s.flag .imV = true) (hovf : s.flag .symOvf = false)
    (hk : s.k.toNat ≤ s.params.kMax) (hprec : 4 * s.t ≤ 2 ^ s.k.toNat) {c : Encoder}
    (hloop : encodeSymbols s.im s.t s.k.toNat s.params.maxBits 0 s.symIn (encoderStart s.k.toNat) = .ok c)
    (hfull : s.params.maxBits < (flushedBits (2 ^ s.k.toNat) c).length) :
    exec .aen s = .next (faultOutcome .aen .capacityExceeded s.symIn.length 0 s) := by
  refine exec_of_commandBody_raise (i := .aen) ?_
  have hpass : (!s.flag .symOvf) = true := by rw [hovf]; rfl
  have hflush := flush_full hfull s.symIn.length
  rw [← rangeOf_eq] at hflush
  refine (require_bind_pass hv).trans <| (require_bind_pass hpass).trans <|
    (require_bind_pass (decide_eq_true hk)).trans <| (require_bind_pass (decide_eq_true hprec)).trans ?_
  exact bind_eq_error.2 (.inr ⟨c, hloop, bind_eq_error.2 (.inl hflush)⟩)

/-- With a valid model AEN faults where its output passes MAX_BITS: the loop goes over the symbols before. -/
theorem exec_aen_of_overflowsAt {s : State} {pos : Nat} (hinv : Inv s) (hv : s.flag .imV = true)
    (hovf : s.flag .symOvf = false) (hk : s.k.toNat ≤ s.params.kMax) (hprec : 4 * s.t ≤ 2 ^ s.k.toNat)
    (hover : OutputOverflowsAt s.im s.t (2 ^ s.k.toNat) s.params.maxBits s.symIn pos) :
    exec .aen s = .next (faultOutcome .aen .capacityExceeded pos 0 s) := by
  have him := hinv.rangesWithin hv
  have hk2 : 2 ≤ s.k.toNat := hinv.two_le_precision hv hprec
  have hstart := renormed_encoderStart hk2
  rw [OutputOverflowsAt, ← encoderStart_eq, ← rangeOf_eq] at hover
  rcases hover with ⟨pre, post, x, c, c', hmessage, rfl, hpre, hfit, hx, hfull⟩ | ⟨c, rfl, henc, hfit, hfull⟩
  · have hreach := encodeSymbols_append him hk2 hprec (i := 0) hpre hstart hfit (x :: post)
    have hc := (hpre.renormed him hk2 hprec hstart).1
    rw [encodeSymbols, (hx.encodesSymbol him hk2 hprec hc).encodeSymbol_of_full hfit hfull, raise_bind, ← hmessage,
      Nat.zero_add] at hreach
    exact exec_aen_raise hv hovf hk hprec hreach
  · have hloop := encodeSymbols_append him hk2 hprec (i := 0) henc hstart hfit []
    rw [List.append_nil] at hloop
    rw [rangeOf_eq] at hfull
    exact exec_aen_flush_full hv hovf hk hprec hloop hfull

/-! ### Another capacity -/

/-- The block with another MAX_BITS. -/
def State.withMaxBits (s : State) (w : Nat) : State := { s with params := { s.params with maxBits := w } }

section Success

variable {s t : State} {w : Nat} (hexec : exec .aen s = .next t) (herr : t.err = ErrCode.success.code)
include hexec herr

/-- A success of AEN has encoded its message within the capacity. -/
theorem exec_aen_success :
    s.flag .imV = true ∧ s.flag .symOvf = false ∧ s.precision ≤ s.params.kMax ∧ 4 * s.t ≤ 2 ^ s.precision ∧
      ∃ c, encodeSymbols s.im s.t s.precision s.params.maxBits 0 s.symIn (encoderStart s.precision) = .ok c ∧
        c.bitCount + 2 ≤ s.params.maxBits ∧
        t = succeed { s with
          bitOut := flushedBits (rangeOf s.precision) c, l := c.l.toNat, u := c.u.toNat, m := c.m
          sympos := s.symIn.length, bitpos := (flushedBits (rangeOf s.precision) c).length } := by
  obtain ⟨u, hbody, rfl⟩ := exec_success hexec herr
  obtain ⟨hv, hovf, hk, hprec, c, out, hloop, hflush, rfl⟩ := aenBody_ok.1 hbody
  obtain rfl := flush_bits hflush
  have hmax := (flush_length hflush).2
  rw [flushedBits_length] at hmax
  exact ⟨hv, hovf, hk, hprec, c, hloop, hmax, rfl⟩

theorem exec_aen_withMaxBits_of_fits (hfit : t.bitOut.length ≤ w) :
    exec .aen (s.withMaxBits w) = .next (t.withMaxBits w) := by
  obtain ⟨hv, hovf, hk, hprec, c, hloop, hmax, rfl⟩ := exec_aen_success hexec herr
  rw [succeed_bitOut, flushedBits_length] at hfit
  have hcount : c.bitCount = c.out.length + c.m := rfl
  have hloop' := encodeSymbols_of_fits hloop (w := w) (by omega) (by omega)
  exact congrArg (conclude .aen _)
    (aenBody_ok (s := s.withMaxBits w).2 ⟨hv, hovf, hk, hprec, c, _, hloop', flush_of_fits hfit _, rfl⟩)

theorem exec_aen_withMaxBits_of_full (hfull : w < t.bitOut.length) :
    ∃ pos ≤ s.symIn.length, OutputOverflowsAt s.im s.t (2 ^ s.k.toNat) w s.symIn pos ∧
      exec .aen (s.withMaxBits w) = .next (faultOutcome .aen .capacityExceeded pos 0 (s.withMaxBits w)) := by
  obtain ⟨hv, hovf, hk, hprec, c, hloop, hmax, rfl⟩ := exec_aen_success hexec herr
  have hcount : c.bitCount = c.out.length + c.m := rfl
  have hmax : c.out.length ≤ s.params.maxBits := by omega
  rw [← rangeOf_eq]
  rcases Nat.lt_or_ge w c.out.length with hpast | hwithin
  · obtain ⟨pre, post, x, c₁, c₂, hmessage, hpre, hfit, hx, hpast, hloop'⟩ :=
      encodeSymbols_of_full hloop hmax (Nat.zero_le w) hpast
    rw [Nat.zero_add] at hloop'
    refine ⟨pre.length, by simp [hmessage], .inl ⟨pre, post, x, c₁, c₂, hmessage, rfl, hpre, hfit, hx, hpast⟩, ?_⟩
    exact exec_aen_raise (s := s.withMaxBits w) hv hovf hk hprec hloop'
  · refine ⟨s.symIn.length, le_rfl, .inr ⟨c, rfl, encodeSymbols_sound hloop, hwithin, hfull⟩, ?_⟩
    exact exec_aen_flush_full (s := s.withMaxBits w) hv hovf hk hprec (encodeSymbols_of_fits hloop hmax hwithin)
      (rangeOf_eq s.k.toNat ▸ hfull)

end Success

end Sys2Proof.Machine

namespace Sys2Proof.Proofs

open Sys2Proof.Machine

/-- Settles O37: the loop goes over the symbols that fit and faults in the one that does not; a success has encoded its
message within the capacity, so another capacity makes no difference before the output passes it. -/
theorem aenFaultsWhenItsOutputDoesNotFit : Obligations.AenFaultsWhenItsOutputDoesNotFit := by
  refine ⟨fun s pos => exec_aen_of_overflowsAt, fun s t w hexec herr => ⟨fun hfit => ?_, fun hfull => ?_⟩⟩
  · -- AEN writes no parameter, so `t` and `s` differ from their `withMaxBits w` in the same field.
    obtain ⟨-, -, -, -, c, -, -, rfl⟩ := exec_aen_success hexec herr
    exact exec_aen_withMaxBits_of_fits hexec herr hfit
  · exact exec_aen_withMaxBits_of_full hexec herr hfull

end Sys2Proof.Proofs
end

section
/-! PROOFS. From a state that meets R51 no command reaches a stop of the model (`70_reset_and_hazards.md` R272): a valid TN
is a tree that HCT fills its table from, and with a valid IM every renormalization ends within K steps. -/

namespace Sys2Proof.Machine

/-! ### Results that are no stop -/

/-- `r` is a value or a fault of the spec, no stop of the model. -/
def NeverStuck {α : Type} (r : Result α) : Prop := ∀ f, r ≠ .error (.stuck f)

theorem neverStuck_ok {α : Type} (a : α) : NeverStuck (.ok a : Result α) := nofun

theorem neverStuck_raise {α : Type} (err : ErrCode) (pos : Nat) (sym : Symbol) :
    NeverStuck (raise err pos sym : Result α) := nofun

theorem NeverStuck.bind {α β : Type} {x : Result α} {f : α → Result β} (hx : NeverStuck x)
    (hf : ∀ a, x = .ok a → NeverStuck (f a)) : NeverStuck (x >>= f) := by
  intro r hr
  rcases bind_eq_error.1 hr with h | ⟨a, ha, h⟩
  · exact hx r h
  · exact hf a ha r h

/-- Behind a test only what passes it counts. -/
theorem neverStuck_require_bind {β : Type} {c : Bool} {err : ErrCode} {pos : Nat} {sym : Symbol} {f : Unit → Result β}
    (h : c = true → NeverStuck (f ())) : NeverStuck (require c err pos sym >>= f) := by
  cases c with
  | false => exact neverStuck_raise err pos sym
  | true => exact h rfl

theorem NeverStuck.notStopped_conclude {r : Result State} (h : NeverStuck r) (i : Instr) (s : State) :
    NotStopped (conclude i s r) := by
  match r with
  | .ok _ => trivial
  | .error (.raise _) => trivial
  | .error (.stuck f) => exact absurd rfl (h f)

/-! ### The loop of AEN -/

theorem flush_neverStuck (maxBits : Nat) (r : Int) (c : Encoder) (pos : Nat) : NeverStuck (flush maxBits r c pos) := by
  unfold flush
  split
  · exact neverStuck_raise _ _ _
  · split <;> exact neverStuck_ok _

section Symbols

variable {im : List Interval} {t k : Nat} (him : RangesWithin im t) (hk : 2 ≤ k) (hprec : 4 * t ≤ 2 ^ k)
include him hk hprec

/-- A symbol of a valid model is encoded, or its output does not fit; any other symbol is unknown. -/
theorem encodeSymbol_neverStuck {c : Encoder} (hc : Renormed (rangeOf k) c) {maxBits : Nat}
    (hfit : c.out.length ≤ maxBits) (i : Nat) (x : Symbol) :
    NeverStuck (encodeSymbol im t k maxBits i x c) ∧
      ∀ c', encodeSymbol im t k maxBits i x c = .ok c' → Renormed (rangeOf k) c' ∧ c'.out.length ≤ maxBits := by
  cases he : lookupInterval im x with
  | none =>
    have hraise : encodeSymbol im t k maxBits i x c = raise .unknownSymbol i x := by rw [encodeSymbol, he]
    rw [hraise]
    exact ⟨neverStuck_raise _ _ _, nofun⟩
  | some e =>
    have hx : ∀ y ∈ [x], ∃ e ∈ im, e.sym = y := by
      simpa using ⟨e, List.mem_of_find?_eq_some he, by simpa using List.find?_some he⟩
    obtain ⟨c', h⟩ := exists_encodes him hk hprec hx hc
    have hone := h.encodesSymbol him hk hprec hc
    rcases Nat.lt_or_ge maxBits c'.out.length with hfull | hfit'
    · rw [hone.encodeSymbol_of_full hfit hfull]
      exact ⟨neverStuck_raise _ _ _, nofun⟩
    · rw [hone.encodeSymbol_of_fits hfit']
      refine ⟨neverStuck_ok _, ?_⟩
      rintro _ ⟨⟩
      exact ⟨(h.renormed him hk hprec hc).1, hfit'⟩

theorem encodeSymbols_neverStuck {maxBits : Nat} (i : Nat) (xs : List Symbol) {c : Encoder}
    (hc : Renormed (rangeOf k) c) (hfit : c.out.length ≤ maxBits) :
    NeverStuck (encodeSymbols im t k maxBits i xs c) := by
  induction xs generalizing i c with
  | nil => exact neverStuck_ok c
  | cons x xs ih =>
    obtain ⟨hone, hnext⟩ := encodeSymbol_neverStuck him hk hprec hc hfit i x
    refine hone.bind fun c' h => ?_
    obtain ⟨hc', hfit'⟩ := hnext c' h
    exact ih (i + 1) hc' hfit'

end Symbols

/-! ### The commands -/

section Commands

variable {s : State} (hinv : Inv s)
include hinv

theorem aenBody_neverStuck : NeverStuck (aenBody s) := by
  refine neverStuck_require_bind fun hv => neverStuck_require_bind fun _ => neverStuck_require_bind fun _ =>
    neverStuck_require_bind fun hprec => ?_
  have hprec := (precOk_iff _ _).1 hprec
  have hk := hinv.two_le_precision hv hprec
  refine NeverStuck.bind ?_ fun c _ => (flush_neverStuck _ _ c _).bind fun _ _ => neverStuck_ok _
  exact encodeSymbols_neverStuck (hinv.rangesWithin hv) hk hprec 0 s.symIn (renormed_encoderStart hk) (Nat.zero_le _)

/-- The loop of ADE always has a value (R208, R209). -/
theorem adeBody_neverStuck : NeverStuck (adeBody s) := by
  refine neverStuck_require_bind fun hv => neverStuck_require_bind fun _ => neverStuck_require_bind fun _ =>
    neverStuck_require_bind fun _ => neverStuck_require_bind fun hprec => ?_
  have hprec := (precOk_iff _ _).1 hprec
  have hk := hinv.two_le_precision hv hprec
  have hw := inWindow_decoderStart s.bitIn s.precision
  rw [← lockstep_encoderStart] at hw
  obtain ⟨out, c, hloop, -⟩ := exists_decodeSymbols (hinv.rangesWithin hv) hk hprec (hinv.model hv)
    (hinv.table (by simp [hv])).2.1 (n := s.messageLength) (i := 0) [] (renormed_encoderStart hk) hw
  rw [lockstep_encoderStart] at hloop
  rw [hloop]
  exact neverStuck_ok _

theorem hctBody_neverStuck : NeverStuck (hctBody s) := by
  refine neverStuck_require_bind fun hv => ?_
  obtain ⟨ct, hct⟩ := (hinv.tree hv).exists_codeTable
  rw [hct]
  exact neverStuck_ok _

theorem commandBody_neverStuck (i : Instr) : NeverStuck (commandBody i s) := by
  cases i
  case bht =>
    exact neverStuck_require_bind fun _ => NeverStuck.bind (ftCheck_not_stuck s.ft) fun _ _ => neverStuck_ok _
  case hct => exact hctBody_neverStuck hinv
  case hen =>
    exact neverStuck_require_bind fun _ => neverStuck_require_bind fun _ =>
      NeverStuck.bind (huffmanEncode_not_stuck _ _ _ _ _) fun _ _ => neverStuck_ok _
  case hde =>
    exact neverStuck_require_bind fun _ => neverStuck_require_bind fun _ =>
      NeverStuck.bind (huffmanDecode_not_stuck _ _ _ _ _ _ _) fun _ _ => neverStuck_require_bind fun _ => neverStuck_ok _
  case bim =>
    exact neverStuck_require_bind fun _ => NeverStuck.bind (ftCheck_not_stuck s.ft) fun _ _ => neverStuck_ok _
  case aen => exact aenBody_neverStuck hinv
  case ade => exact adeBody_neverStuck hinv
  case clrft => exact neverStuck_ok _
  case clrsym => exact neverStuck_ok _
  case clrbit => exact neverStuck_ok _

theorem exec_notStopped (i : Instr) : NotStopped (exec i s) := by
  rw [exec_eq_conclude]
  exact (commandBody_neverStuck hinv i).notStopped_conclude i s

/-! ### The host actions -/

theorem runCommand_notStopped (v : Nat) : NotStopped (runCommand v s) := by
  cases hd : decode (BitVec.ofNat 8 v) with
  | ok i =>
    rw [runCommand_of_decode hd]
    exact exec_notStopped (inv_kept.hostFields s _ _ _ _ _ hinv) i
  | error e =>
    simp only [runCommand, hd]
    trivial

/-- Of all actions only the write to CMD runs a command. -/
theorem perform_notStopped (a : HostAction) : NotStopped (perform a s) := by
  cases a with
  | writeReg no v =>
    simp only [perform, hostWrite]
    split
    · exact runCommand_notStopped hinv v
    all_goals trivial
  | readReg no =>
    simp only [perform, hostRead]
    split
    · split <;> trivial
    · trivial
  | memRead space i =>
    simp only [perform, memRead]
    split <;> trivial
  | memWrite space e =>
    simp only [perform, memWrite]
    repeat' split
    all_goals trivial
  | reset => trivial

end Commands

end Sys2Proof.Machine

namespace Sys2Proof.Proofs

open Sys2Proof.Machine

/-- Settles O57: an idle step answers, and taking an action off the pending ones keeps the invariant. -/
theorem invariantStatesNeverStop : Obligations.InvariantStatesNeverStop := by
  intro s hinv
  unfold step
  split
  · trivial
  · exact perform_notStopped (inv_kept.hostFields s _ _ _ _ _ hinv) _

end Sys2Proof.Proofs
end
